-- ==== Sys2Proof/Word.lean ====
section
/-! DEFINITION. The two word types of spec/00_scope.md rule R8: `DATA_W` = 8 and `ADDR_W` = 16. All values are
unsigned, bit 0 is the least significant bit (R10). -/

namespace Sys2Proof

/-- A data byte (R8, `DATA_W`). -/
abbrev Byte := BitVec 8

/-- An address of the cartridge's logical address space (R8, `ADDR_W`). -/
abbrev Addr := BitVec 16

end Sys2Proof
end

