-- ==== Sys2Proof/Config.lean ====
section
/-! DEFINITION. The named parameters of spec/00_scope.md rule R9. One value of `Params` belongs to one machine; the state
carries it (assumption log 4) and no step changes it, so a statement over every state is a statement over every
parameter value. -/

namespace Sys2Proof

/-- The parameters of R9. `tWrite` and `tInit` are `T_WRITE` and `T_INIT` in `clk` periods (R136, R203: the number of
periods that covers the duration). -/
structure Params where
  /-- `HEX_UPPER`: the letter case of hex digits (R91, D8). -/
  hexUpper : Bool
  /-- `EXIT_READ_SEQ`: the bytes ExitReadMode transmits (R84, D11). -/
  exitReadSeq : List Byte
  /-- `INIT_ON_RESET`: does the block send the start-up sequence itself (R143, D14). -/
  initOnReset : Bool
  /-- `T_WRITE`: the settling delay after each write phase, in `clk` periods. -/
  tWrite : Nat
  /-- `T_INIT`: the settling delay of the start-up sequence, in `clk` periods. -/
  tInit : Nat
deriving DecidableEq, Repr

/-- The defaults of R9. DESIGN CHOICE (log 4): the two durations counted in periods of one microsecond; the spec gives
no clock rate and no rule depends on the number (R9, R136). -/
def Params.default : Params where
  hexUpper := false
  exitReadSeq := [0x30]
  initOnReset := true
  tWrite := 1000
  tInit := 100

/-- R9 admits an `EXIT_READ_SEQ` of 0 to 7 bytes. -/
abbrev Params.wf (p : Params) : Prop := p.exitReadSeq.length ≤ 7

/-- The two duration parameters, as the wire trace names them in `D(P)` (R13, R136). -/
inductive DelayParam where
  | tWrite
  | tInit
deriving DecidableEq, Repr

/-- The number of `clk` periods of a duration parameter (R203). -/
def Params.periods (p : Params) : DelayParam → Nat
  | .tWrite => p.tWrite
  | .tInit => p.tInit

end Sys2Proof
end

