-- ==== Sys2Proof/Syntax.lean ====
section
/-! DEFINITION. The instructions: one constructor for each of the sixteen rows of spec/opcode_table.json, in its order. The
first eight are host request words (spec/30_encoding.md rule R93), the other eight wire commands (R81). -/

namespace Sys2Proof

/-- The block's operations. Ignored fields of a request word (R93) are no operands. -/
inductive Instr where
  /-- `READ a` (R160). -/
  | read (a : Addr)
  /-- `WROM a, v` (R161). -/
  | wrom (a : Addr) (v : Byte)
  /-- `WRAM a, v` (R162). -/
  | wram (a : Addr) (v : Byte)
  /-- `GSAV` (R163). -/
  | gsav
  /-- `LSAV`; its payload comes on the `p_*` channel (R164, R97). -/
  | lsav
  /-- Reserved operation code 5 (R165). -/
  | reserved5
  /-- Reserved operation code 6 (R165). -/
  | reserved6
  /-- Reserved operation code 7 (R165). -/
  | reserved7
  /-- `ENTER_READ` (R131). -/
  | enterRead
  /-- `SELECT_ADDRESS(a)` (R130). -/
  | selectAddress (a : Addr)
  /-- `TRIGGER_BURST` (R132). -/
  | triggerBurst
  /-- `WRITE_ADDR(a)` (R137). -/
  | writeAddr (a : Addr)
  /-- `WRITE_VALUE(v)` (R138). -/
  | writeValue (v : Byte)
  /-- `INIT_G` (R142). -/
  | initG
  /-- `INIT_5` (R144). -/
  | init5
  /-- `EXIT_READ` (R134). -/
  | exitRead
deriving DecidableEq, Repr

end Sys2Proof
end

