-- ==== Sys2Proof/WellFormed.lean ====
section
/-! DEFINITION. Which instructions the block can be made to run. Every operand of every row is admitted but one:
SELECT_ADDRESS only ever carries a block base (spec/41_link_codec.md R130, spec/20_memory.md R60). -/

namespace Sys2Proof

/-- The one check: a selected address is 64-aligned (R60, R130, R233). The encoder formats any 16-bit value all the
same. -/
def Instr.wellFormed : Instr → Bool
  | .read _ => true
  | .wrom _ _ => true
  | .wram _ _ => true
  | .gsav => true
  | .lsav => true
  | .reserved5 => true
  | .reserved6 => true
  | .reserved7 => true
  | .enterRead => true
  | .selectAddress a => a.toNat % 64 == 0
  | .triggerBurst => true
  | .writeAddr _ => true
  | .writeValue _ => true
  | .initG => true
  | .init5 => true
  | .exitRead => true

/-- The instructions the block can be made to run. -/
abbrev Instr.WellFormed (i : Instr) : Prop := i.wellFormed = true

end Sys2Proof
end

