-- ==== Sys2Proof/Decode.lean ====
section
/-! DEFINITION. Encodings (spec/30_encoding.md): the formatters hexc, hex4 and dec, the byte string of every wire command,
the host request word; the decoder of both interfaces, total, rejecting by name; the encoder. -/

namespace Sys2Proof

/-! ## The argument formatters -/

/-- `hexc(n)`: one hex digit as a character (R91). -/
def hexc (upper : Bool) (n : BitVec 4) : Byte :=
  if n < 10 then 0x30 + n.setWidth 8
  else if upper then 0x41 + (n.setWidth 8 - 10)
  else 0x61 + (n.setWidth 8 - 10)

/-- `hex4(a)`: always four characters, most significant first (R90, R54). -/
def hex4 (upper : Bool) (a : Addr) : List Byte :=
  [hexc upper (a.extractLsb' 12 4), hexc upper (a.extractLsb' 8 4),
   hexc upper (a.extractLsb' 4 4), hexc upper (a.extractLsb' 0 4)]

/-- The decimal digit character of `n < 10` (R82, R92). -/
def digit (n : Nat) : Byte := BitVec.ofNat 8 (0x30 + n)

/-- `dec(v)`: the decimal numeral, minimal width (R92). -/
def dec (v : Byte) : List Byte :=
  let h := v.toNat / 100
  let t := v.toNat % 100 / 10
  let u := v.toNat % 10
  if h ≠ 0 then [digit h, digit t, digit u]
  else if t ≠ 0 then [digit t, digit u]
  else [digit u]

/-! ## The wire commands (R80, R81) -/

/-- The token of ENTER_READ, `'0'`. -/
def tokEnterRead : Byte := 0x30
/-- The token of SELECT_ADDRESS, `'A'`. -/
def tokSelect : Byte := 0x41
/-- The token of TRIGGER_BURST, `'R'`. -/
def tokTrigger : Byte := 0x52
/-- The token `'B'` of both write phases (R83). -/
def tokWrite : Byte := 0x42
/-- The token of INIT_G, `'G'`. -/
def tokInitG : Byte := 0x47
/-- The token of INIT_5, `'5'`. -/
def tokInit5 : Byte := 0x35

/-- SELECT_ADDRESS, format `WH4` (R81, R130). -/
def selectAddressBytes (p : Params) (a : Addr) : List Byte := tokSelect :: (hex4 p.hexUpper a ++ [0x00])

/-- WRITE_ADDR, format `WH4` (R81, R137). -/
def writeAddrBytes (p : Params) (a : Addr) : List Byte := tokWrite :: (hex4 p.hexUpper a ++ [0x00])

/-- WRITE_VALUE, format `WD` (R81, R138). -/
def writeValueBytes (v : Byte) : List Byte := tokWrite :: (dec v ++ [0x00])

/-- INIT_5, format `WZ` (R81, R144). -/
def init5Bytes : List Byte := [tokInit5, 0x00]

/-! ## The host request word (R93) -/

/-- `{op[2:0], addr[15:0], wdata[7:0]}` (R93). -/
def requestWord (op : BitVec 3) (a : Addr) (v : Byte) : BitVec 27 := op ++ a ++ v

/-- `h_req[26:24]` (R93). -/
def reqOp (w : BitVec 27) : BitVec 3 := w.extractLsb' 24 3

/-- `h_req[23:8]` (R93). -/
def reqAddr (w : BitVec 27) : Addr := w.extractLsb' 8 16

/-- `h_req[7:0]` (R93). -/
def reqData (w : BitVec 27) : Byte := w.extractLsb' 0 8

/-- The operation of a request word: every word has one, ignored fields have no effect (R93, R94). -/
def decodeRequest (w : BitVec 27) : Instr :=
  if reqOp w = 0 then .read (reqAddr w)
  else if reqOp w = 1 then .wrom (reqAddr w) (reqData w)
  else if reqOp w = 2 then .wram (reqAddr w) (reqData w)
  else if reqOp w = 3 then .gsav
  else if reqOp w = 4 then .lsav
  else if reqOp w = 5 then .reserved5
  else if reqOp w = 6 then .reserved6
  else .reserved7

/-! ## Decoding the wire -/

/-- Why a byte string is no command. -/
inductive DecodeError where
  /-- The string is empty where a command must begin. -/
  | empty
  /-- The first byte begins no command at this place of a session (R81, R85). -/
  | unknownToken
  /-- No `0x00` ends the argument (R80, R95). -/
  | noTerminator
  /-- The argument has a length its format does not have (R90, R92, R96). -/
  | badLength
  /-- A character of the argument is no digit of its format (R90, R91, R92, R96). -/
  | badDigit
  /-- A numeral the grammar can never contain: a leading zero, or a value above 255 (R92, R96). -/
  | badNumeral
  /-- Bytes follow the command where one command was to be decoded. -/
  | trailing
deriving DecidableEq, Repr

/-- The place in a session at which a command is read: the tokens `'B'` and `'0'` need it (R83, R85). -/
inductive WirePhase where
  /-- Between commands. -/
  | listening
  /-- After WRITE_ADDR: the value phase follows. -/
  | value
  /-- After ENTER_READ. -/
  | readMode
  /-- After TRIGGER_BURST: only EXIT_READ follows. -/
  | streaming
deriving DecidableEq, Repr

/-- The value of a hex digit character in the letter case of `HEX_UPPER` (R91). -/
def hexVal (upper : Bool) (c : Byte) : Option (BitVec 4) :=
  let letter : Byte := if upper then 0x41 else 0x61
  if 0x30 ≤ c ∧ c ≤ 0x39 then some ((c - 0x30).setWidth 4)
  else if letter ≤ c ∧ c ≤ letter + 5 then some ((c - letter + 10).setWidth 4)
  else none

/-- The value of a decimal digit character (R92). -/
def decVal (c : Byte) : Option Nat :=
  if 0x30 ≤ c ∧ c ≤ 0x39 then some (c.toNat - 0x30) else none

/-- The bytes before the first `0x00` and the bytes after it (R95). -/
def splitNul : List Byte → Option (List Byte × List Byte)
  | [] => none
  | b :: bs => if b = 0x00 then some ([], bs) else (splitNul bs).map fun r => (b :: r.1, r.2)

/-- An address argument: four hex digits (R90). -/
def decodeHex4 (upper : Bool) : List Byte → Except DecodeError Addr
  | [c3, c2, c1, c0] =>
    match hexVal upper c3, hexVal upper c2, hexVal upper c1, hexVal upper c0 with
    | some n3, some n2, some n1, some n0 => .ok (n3 ++ n2 ++ n1 ++ n0)
    | _, _, _, _ => .error .badDigit
  | _ => .error .badLength

/-- A value argument: a decimal numeral of one to three digits, no leading zero, at most 255 (R92, R96). -/
def decodeDec : List Byte → Except DecodeError Byte
  | [c0] =>
    match decVal c0 with
    | some u => .ok (BitVec.ofNat 8 u)
    | none => .error .badDigit
  | [c1, c0] =>
    match decVal c1, decVal c0 with
    | some t, some u => if t = 0 then .error .badNumeral else .ok (BitVec.ofNat 8 (10 * t + u))
    | _, _ => .error .badDigit
  | [c2, c1, c0] =>
    match decVal c2, decVal c1, decVal c0 with
    | some h, some t, some u =>
      if h = 0 ∨ 255 < 100 * h + 10 * t + u then .error .badNumeral
      else .ok (BitVec.ofNat 8 (100 * h + 10 * t + u))
    | _, _, _ => .error .badDigit
  | _ => .error .badLength

/-- A command whose argument is an address (format `WH4`), after its token. -/
def decodeAddrArg (upper : Bool) (mk : Addr → Instr) (bs : List Byte) : Except DecodeError (Instr × List Byte) :=
  match splitNul bs with
  | none => .error .noTerminator
  | some (arg, rest) =>
    match decodeHex4 upper arg with
    | .ok a => .ok (mk a, rest)
    | .error e => .error e

/-- WRITE_VALUE's argument (format `WD`), after its token. -/
def decodeValueArg (bs : List Byte) : Except DecodeError (Instr × List Byte) :=
  match splitNul bs with
  | none => .error .noTerminator
  | some (arg, rest) =>
    match decodeDec arg with
    | .ok v => .ok (.writeValue v, rest)
    | .error e => .error e

/-- INIT_5 after its token: the terminator at once (format `WZ`). -/
def decodeInit5Arg : List Byte → Except DecodeError (Instr × List Byte)
  | [] => .error .noTerminator
  | b :: rest => if b = 0x00 then .ok (.init5, rest) else .error .badLength

/-- A command that begins between commands (R80, R85). -/
def decodeListening (p : Params) : List Byte → Except DecodeError (Instr × List Byte)
  | [] => .error .empty
  | b :: rest =>
    if b = tokSelect then decodeAddrArg p.hexUpper .selectAddress rest
    else if b = tokEnterRead then .ok (.enterRead, rest)
    else if b = tokWrite then decodeAddrArg p.hexUpper .writeAddr rest
    else if b = tokInitG then .ok (.initG, rest)
    else if b = tokInit5 then decodeInit5Arg rest
    else .error .unknownToken

/-- The second command of a write (R83). -/
def decodeValuePhase : List Byte → Except DecodeError (Instr × List Byte)
  | [] => .error .empty
  | b :: rest => if b = tokWrite then decodeValueArg rest else .error .unknownToken

/-- EXIT_READ: the bytes of the parameter EXIT_READ_SEQ (R84, R134). -/
def decodeExit (p : Params) (bs : List Byte) : Except DecodeError (Instr × List Byte) :=
  if p.exitReadSeq.isPrefixOf bs then .ok (.exitRead, bs.drop p.exitReadSeq.length) else .error .unknownToken

/-- After ENTER_READ: the trigger, or at once the exit (R85, R141). -/
def decodeReadMode (p : Params) (bs : List Byte) : Except DecodeError (Instr × List Byte) :=
  if bs.head? = some tokTrigger then .ok (.triggerBurst, bs.drop 1) else decodeExit p bs

/-- One command at a place of a session, with the bytes that follow it. Total: what is no command is rejected by
name. -/
def decodeWire (p : Params) (ph : WirePhase) (bs : List Byte) : Except DecodeError (Instr × List Byte) :=
  match ph with
  | .listening => decodeListening p bs
  | .value => decodeValuePhase bs
  | .readMode => decodeReadMode p bs
  | .streaming => decodeExit p bs

/-! ## Encoder and decoder of both interfaces -/

/-- An instruction as its interface carries it. -/
inductive Encoded where
  /-- A host request word (R93). -/
  | request (w : BitVec 27)
  /-- A byte string on the wire (R81). -/
  | wire (bs : List Byte)
deriving DecidableEq, Repr

/-- The encoding of an instruction; ignored fields of a request word are sent as 0 (R81, R93). -/
def encode (p : Params) : Instr → Encoded
  | .read a => .request (requestWord 0 a 0)
  | .wrom a v => .request (requestWord 1 a v)
  | .wram a v => .request (requestWord 2 a v)
  | .gsav => .request (requestWord 3 0 0)
  | .lsav => .request (requestWord 4 0 0)
  | .reserved5 => .request (requestWord 5 0 0)
  | .reserved6 => .request (requestWord 6 0 0)
  | .reserved7 => .request (requestWord 7 0 0)
  | .enterRead => .wire [tokEnterRead]
  | .selectAddress a => .wire (selectAddressBytes p a)
  | .triggerBurst => .wire [tokTrigger]
  | .writeAddr a => .wire (writeAddrBytes p a)
  | .writeValue v => .wire (writeValueBytes v)
  | .initG => .wire [tokInitG]
  | .init5 => .wire init5Bytes
  | .exitRead => .wire p.exitReadSeq

/-- The place of a session at which a wire command stands (R85); a request word needs none. -/
def Instr.phase : Instr → WirePhase
  | .read _ => .listening
  | .wrom _ _ => .listening
  | .wram _ _ => .listening
  | .gsav => .listening
  | .lsav => .listening
  | .reserved5 => .listening
  | .reserved6 => .listening
  | .reserved7 => .listening
  | .enterRead => .listening
  | .selectAddress _ => .listening
  | .triggerBurst => .readMode
  | .writeAddr _ => .listening
  | .writeValue _ => .value
  | .initG => .listening
  | .init5 => .listening
  | .exitRead => .streaming

/-- Exactly one instruction from its encoding. -/
def decode (p : Params) (ph : WirePhase) : Encoded → Except DecodeError Instr
  | .request w => .ok (decodeRequest w)
  | .wire bs =>
    match decodeWire p ph bs with
    | .ok (i, []) => .ok i
    | .ok (_, _ :: _) => .error .trailing
    | .error e => .error e

/-! ## The opcode table's numbering -/

/-- The bytes of an opcode-table word: the first byte is bits 7..0; the longest command has six bytes. -/
def tableBytes (w : Nat) : List Byte :=
  [BitVec.ofNat 8 w, BitVec.ofNat 8 (w / 2 ^ 8), BitVec.ofNat 8 (w / 2 ^ 16), BitVec.ofNat 8 (w / 2 ^ 24),
   BitVec.ofNat 8 (w / 2 ^ 32), BitVec.ofNat 8 (w / 2 ^ 40)]

/-- A wire command at one place of a session, followed by zero bytes only (log 11). -/
def decodePadded (ph : WirePhase) (bs : List Byte) : Option Instr :=
  match decodeWire Params.default ph bs with
  | .ok (i, rest) => if rest.all (· == 0x00) then some i else none
  | .error _ => none

/-- The instruction of an opcode-table word (log 11): a row of 25 to 32 bits is a request word; any other is a byte
string, read at the first place of a session that admits it. Parameters at their defaults. -/
def decodeTableWord (nbits w : Nat) : Option Instr :=
  if 24 < nbits ∧ nbits ≤ 32 then
    if w < 2 ^ 27 then some (decodeRequest (BitVec.ofNat 27 w)) else none
  else
    let bs := tableBytes (w % 2 ^ nbits)
    (decodePadded .listening bs).orElse fun _ =>
      (decodePadded .value bs).orElse fun _ =>
        (decodePadded .readMode bs).orElse fun _ => decodePadded .streaming bs

end Sys2Proof
end

