-- ==== Sys2Proof/Machine/State.lean ====
section
/-! DEFINITION. The state of the block, everything spec/10_state.md gives it (R20), with the inputs still to come and the
outputs given so far; the reasons a step can stop; the state after reset (R35). -/

namespace Sys2Proof.Machine

open Sys2Proof

/-- The sixteen states of the framing state machine, in the order of their codes (R23). -/
inductive Fsm where
  | idle
  | initG
  | initDly1
  | init5
  | initDly2
  | addrSel
  | rmEnter
  | burstTrig
  | burstRx
  | rmExit
  | wAddr
  | wDly1
  | wValue
  | wDly2
  | inval
  | lsavDrain
deriving DecidableEq, Repr

/-- An event of the wire trace `W` (R13). -/
inductive Wire where
  /-- `T(b)`: the transport accepted a byte from the block. -/
  | tx (b : Byte)
  /-- `R(v)`: the block took a byte from the reply stream. -/
  | rx (b : Byte)
  /-- `D(P)`: a settling delay elapsed. -/
  | delay (p : DelayParam)
deriving DecidableEq, Repr

/-- A response to the host, a sum type so that bits without a meaning have no value (R86). -/
inductive Response where
  /-- `OK` of a READ, with the byte read. -/
  | okByte (b : Byte)
  /-- `OK` of any other operation. -/
  | ok
  /-- `FATAL` with the cause code. -/
  | fatal (cause : BitVec 3)
  /-- `ILLEGAL`. -/
  | illegal
deriving DecidableEq, Repr

/-- What the host's request pins carry when the block looks at them (R89): `h_req_valid`, `h_req`. -/
structure HostPins where
  valid : Bool
  req : BitVec 27
deriving DecidableEq, Repr

/-- What the payload pins carry when the block looks at them (R97): `p_valid`, `p_data`, `p_end`. -/
structure PayPins where
  valid : Bool
  data : Byte
  last : Bool
deriving DecidableEq, Repr

/-- What the transport answers to an offered byte (R88): `tx_ready`, `tx_err`. -/
structure TxPins where
  ready : Bool
  err : Bool
deriving DecidableEq, Repr

/-- What the reply pins carry when the block is ready for a byte (R88): `rx_valid`, `rx_data`, `rx_err`, `rx_eof`. -/
structure RxPins where
  valid : Bool
  data : Byte
  err : Bool
  eof : Bool
deriving DecidableEq, Repr

/-- A byte memory: addresses strictly rising, an unlisted address has no value (log 6). -/
abbrev Memory := List Host.Cell

/-- The state of the block (R20), its parameters (R9), the inputs to come (log 2) and what was given out (log 7). -/
structure State where
  /-- The parameters of this machine; no step changes them (R9). -/
  par : Params
  /-- `V`: bit `i` is the valid bit of entry `i` (R25). -/
  v : BitVec 1024
  /-- `Dm`: the byte at address `64 i + k` is `Dm[i][k]`, of valid entries only (R25, R26, log 6). -/
  dm : Memory
  /-- `FB`: the fill buffer (R28). -/
  fb : Vector Byte 64
  /-- `FAULT`: the sticky flag (R30). -/
  fault : Bool
  /-- `CAUSE` (R31, R190). -/
  cause : BitVec 3
  /-- `FSTATE` (R31). -/
  fstate : BitVec 4
  /-- `FCNT` (R31). -/
  fcnt : BitVec 7
  /-- `fsm`: the sequencer (R23). -/
  fsm : Fsm
  /-- `seq`: position within the command being sent (R24). -/
  seq : BitVec 3
  /-- `op_r`: the operation in progress (R21). -/
  opR : BitVec 3
  /-- `addr_r` (R21). -/
  addrR : Addr
  /-- `wdata_r` (R21). -/
  wdataR : Byte
  /-- `cnt`: burst bytes received so far (R21). -/
  cnt : BitVec 7
  /-- `ep`: the pending error cause, 0 for none (R32). -/
  ep : BitVec 3
  /-- `dly`: the settling-delay down-counter, of implementation width (R21, R203). -/
  dly : Nat
  /-- Input: the level of `rst` at the coming steps. -/
  rstIn : List Bool
  /-- Input: the request pins at the coming looks in `S_IDLE`. -/
  hostIn : List HostPins
  /-- Input: the payload pins at the coming looks in `S_LSAV_DRAIN`. -/
  payIn : List PayPins
  /-- Input: the transport's answers to the coming offered bytes. -/
  txIn : List TxPins
  /-- Input: the reply pins at the coming looks in `S_BURST_RX`. -/
  rxIn : List RxPins
  /-- The wire trace `W`, oldest first; no rule reads it (R13). -/
  wire : List Wire
  /-- The responses delivered, oldest first; no rule reads it (R86, R89). -/
  rsp : List Response
deriving DecidableEq, Repr

/-- Why a step stops. Both are safe: the spec gives these states no behaviour and no run from reset reaches them. -/
inductive Fault where
  /-- Raised by a row of spec/42_controller_ops.md R170 in a state the table has no row for: `seq` beyond the command's
  last byte, or 64 bytes received and still in `S_BURST_RX`. Safe (log 10). -/
  | noTransition
  /-- Raised by a READ that hits an entry whose byte has no value. Safe (log 6). -/
  | rowWithoutBytes
deriving DecidableEq, Repr

/-- Why an instruction is not run. -/
inductive Refusal where
  /-- An instruction without a meaning; no arm answers it. Safe. -/
  | notModelled (mnemonic : String)
  /-- Answered by a host operation offered outside `S_IDLE`, where `h_req_ready` is 0 (R89). `step` never offers one
  there. Safe (log 9). -/
  | busy (mnemonic : String)
  /-- Answered by a wire command outside the sequencer state that sends it (R85, R170). `step` never asks for one there.
  Safe (log 8). -/
  | outOfSequence (mnemonic : String)
deriving DecidableEq, Repr

/-- The result of one row of the transition table (R170). -/
inductive Tick where
  /-- The row was taken. -/
  | moved (s : State)
  /-- The port the block waits for gave nothing: no row; only the looked-at sample is gone (R58, R59, R193, log 3). -/
  | waits (s : State)
  /-- The table has no row for this state (log 10). -/
  | noRow
deriving Repr

/-- The state after reset of a machine with parameters `p`, nothing to come and nothing given out (R35; the registers
R35 leaves unspecified are 0, `Dm` has no bytes: log 5, log 6). -/
def State.resetWith (p : Params) : State where
  par := p
  v := 0
  dm := []
  fb := Vector.replicate 64 0
  fault := false
  cause := 0
  fstate := 0
  fcnt := 0
  fsm := if p.initOnReset then .initG else .idle
  seq := 0
  opR := 0
  addrR := 0
  wdataR := 0
  cnt := 0
  ep := 0
  dly := 0
  rstIn := []
  hostIn := []
  payIn := []
  txIn := []
  rxIn := []
  wire := []
  rsp := []

/-- The machine right after reset, with the default parameters (R35, R9). -/
def State.reset : State := State.resetWith Params.default

end Sys2Proof.Machine
end

