-- ==== Sys2Proof/Machine/Operands.lean ====
section
/-! DEFINITION. The operand forms: the parts of an address (spec/00_scope.md R11), the derived values of
spec/10_state.md R22, and the numbering of the working registers (R21). -/

namespace Sys2Proof.Machine

open Sys2Proof

/-- `off(a) = a mod 64` (R11). -/
def off (a : Addr) : BitVec 6 := a.extractLsb' 0 6

/-- `idx(a) = a[15:6]` (R11). -/
def idx (a : Addr) : BitVec 10 := a.extractLsb' 6 10

/-- `base(a) = {a[15:6], 0b000000}` (R11). -/
def base (a : Addr) : Addr := idx a ++ (0 : BitVec 6)

/-- Where entry `i` begins in `Dm`: the logical address `64 i` (R25, R53, R110). -/
def rowBase (i : BitVec 10) : Nat := 64 * i.toNat

/-- `base_r` (R22). -/
def State.baseR (s : State) : Addr := base s.addrR

/-- `idx_r` (R22). -/
def State.idxR (s : State) : BitVec 10 := idx s.addrR

/-- `off_r` (R22). -/
def State.offR (s : State) : BitVec 6 := off s.addrR

/-- The working registers under their numbers `x[0]` to `x[6]`, as numbers (R12, R21). -/
def State.x (s : State) : Fin 7 → Nat
  | 0 => s.opR.toNat
  | 1 => s.addrR.toNat
  | 2 => s.wdataR.toNat
  | 3 => s.seq.toNat
  | 4 => s.cnt.toNat
  | 5 => s.ep.toNat
  | 6 => s.dly

end Sys2Proof.Machine
end

