-- ==== Sys2Proof/Machine/Flags.lean ====
section
/-! DEFINITION. The status registers: state and cause codes (spec/10_state.md R23, spec/60_exceptions.md R190), what is noted
at the first error (R31, R196), and the flag FAULT (R30). -/

namespace Sys2Proof.Machine

open Sys2Proof

/-- The code of a state, as `FSTATE` records it (R23). -/
def Fsm.code : Fsm → BitVec 4
  | .idle => 0
  | .initG => 1
  | .initDly1 => 2
  | .init5 => 3
  | .initDly2 => 4
  | .addrSel => 5
  | .rmEnter => 6
  | .burstTrig => 7
  | .burstRx => 8
  | .rmExit => 9
  | .wAddr => 10
  | .wDly1 => 11
  | .wValue => 12
  | .wDly2 => 13
  | .inval => 14
  | .lsavDrain => 15

/-- No error (R190, R32). -/
def causeNone : BitVec 3 := 0
/-- `TX_FAIL` (R190). -/
def causeTxFail : BitVec 3 := 1
/-- `RX_FAIL` (R190). -/
def causeRxFail : BitVec 3 := 2
/-- `SHORT_READ` (R190). -/
def causeShortRead : BitVec 3 := 3

/-- Is `FCNT` the burst count in this state (R31, R196)? -/
def Fsm.countsBurst (q : Fsm) : Bool := q = .burstTrig || q = .burstRx || q = .rmExit

/-- Is a host operation in progress (R196)? Not in `S_IDLE`, and not during the start-up sequence (R198). -/
def Fsm.inOperation (q : Fsm) : Bool :=
  !(q = .idle || q = .initG || q = .initDly1 || q = .init5 || q = .initDly2)

/-- An error of the operation is noted: `FSTATE` and `FCNT` (R31, R196). -/
def State.note (s : State) : State :=
  { s with fstate := s.fsm.code, fcnt := if s.fsm.countsBurst then s.cnt else 0 }

/-- Was an error of this operation noted before the trap? Exactly when it waits in `ep` for the end of the exit (R174,
R175, R176, R196). DEDUCED (log 15). -/
def State.errorNoted (s : State) : Bool := s.fsm = .rmExit && s.ep != causeNone

/-- `CAUSE <- c; FAULT <- 1` (R196). -/
def State.setFault (c : BitVec 3) (s : State) : State := { s with cause := c, fault := true }

end Sys2Proof.Machine
end

