-- ==== Sys2Proof/Machine/Ops.lean ====
section
/-! DEFINITION. The named operations: byte memory, the cache primitives of spec/40_cache_array.md (R111-R116), the transport
primitives `Tx` and `Rx` with the port priorities of R88, responses, the transport-fatal trap (R196), reset (R220). -/

namespace Sys2Proof.Machine

open Sys2Proof

/-! ## Byte memory -/

/-- The byte at an address; none where nothing is listed. -/
def Memory.read : Memory → Nat → Option Byte
  | [], _ => none
  | c :: m, a => if c.1 = a then some c.2 else Memory.read m a

/-- Write one byte, keeping the addresses strictly rising. -/
def Memory.write : Memory → Nat → Byte → Memory
  | [], a, b => [(a, b)]
  | c :: m, a, b =>
    if a < c.1 then (a, b) :: c :: m
    else if a = c.1 then (a, b) :: m
    else c :: Memory.write m a b

/-- Write bytes at consecutive addresses. -/
def Memory.writeBytes : Memory → Nat → List Byte → Memory
  | m, _, [] => m
  | m, a, b :: bs => Memory.writeBytes (m.write a b) (a + 1) bs

/-- The canonical form: addresses strictly rising. -/
abbrev Memory.wf (m : Memory) : Prop := m.Pairwise fun c d => c.1 < d.1

/-! ## The cache array -/

/-- `V[i] = 1`. -/
def State.valid (s : State) (i : BitVec 10) : Bool := s.v.getLsbD i.toNat

/-- `LOOKUP(a)`: true is a hit (R111). -/
def State.lookup (s : State) (a : Addr) : Bool := s.valid (idx a)

/-- `READ_BYTE(a) = Dm[idx(a)][off(a)]`, a look into the partial map: none on an invalid entry (R112, R25). -/
def State.readByte (s : State) (a : Addr) : Option Byte :=
  if s.lookup a then Memory.read s.dm (rowBase (idx a) + (off a).toNat) else none

/-- `cache(i)`: the 64 bytes of a valid entry (R25). -/
def State.cache (s : State) (i : BitVec 10) : Option (List Byte) :=
  if s.valid i then (List.range 64).mapM fun k => Memory.read s.dm (rowBase i + k) else none

/-- `FB_WRITE(k, v)` (R115). -/
def State.fbWrite (k : Nat) (b : Byte) (s : State) : State := { s with fb := s.fb.setIfInBounds k b }

/-- `FILL(i)`: the fill buffer becomes row `i`, and `i` valid, in one step (R113). -/
def State.fill (i : BitVec 10) (s : State) : State :=
  { s with dm := Memory.writeBytes s.dm (rowBase i) s.fb.toList, v := s.v ||| BitVec.twoPow 1024 i.toNat }

/-- `INVALIDATE_ALL`: every valid bit to 0, the map empty (R116). The bytes of rows that are no longer valid have no
value any more (R26, log 6). -/
def State.invalidateAll (s : State) : State := { s with v := 0, dm := [] }

/-! ## The transport -/

/-- What the transport did with an offered byte (R58). -/
inductive TxOutcome where
  | accepted
  | failed
  | blocked
deriving DecidableEq, Repr

/-- `tx_err` wins over `tx_ready` (R88). -/
def TxPins.outcome (p : TxPins) : TxOutcome :=
  if p.err then .failed else if p.ready then .accepted else .blocked

/-- What the reply stream gave (R59). -/
inductive RxOutcome where
  | byte (b : Byte)
  | failed
  | ended
  | blocked
deriving DecidableEq, Repr

/-- `rx_err` wins over `rx_valid`, which wins over `rx_eof` (R88). -/
def RxPins.outcome (p : RxPins) : RxOutcome :=
  if p.err then .failed else if p.valid then .byte p.data else if p.eof then .ended else .blocked

/-- `Tx(b)`: the outcome, and the state with the answer taken and, if the byte was accepted, `T(b)` appended (R58).
Without an answer to come the transport is not ready. -/
def State.tx (b : Byte) (s : State) : TxOutcome × State :=
  match s.txIn with
  | [] => (.blocked, s)
  | p :: ps =>
    let t := { s with txIn := ps }
    (p.outcome, if p.outcome = .accepted then { t with wire := t.wire ++ [.tx b] } else t)

/-- `Rx()`: the outcome, and the state with the sample taken and, if a byte came, `R(v)` appended (R59). Without a
sample to come nothing is signalled. -/
def State.rx (s : State) : RxOutcome × State :=
  match s.rxIn with
  | [] => (.blocked, s)
  | p :: ps =>
    let t := { s with rxIn := ps }
    (p.outcome, match p.outcome with
      | .byte b => { t with wire := t.wire ++ [.rx b] }
      | .failed => t
      | .ended => t
      | .blocked => t)

/-! ## Responses, the trap, reset -/

/-- `respond(...)`: one response to the host (R86, R12). -/
def State.respond (r : Response) (s : State) : State := { s with rsp := s.rsp ++ [r] }

/-- `TRAP(c)`, the transport-fatal trap, in one step (R196). -/
def State.trap (c : BitVec 3) (s : State) : State :=
  let noted := if s.errorNoted then s else s.note
  let faulted := (noted.setFault c).invalidateAll
  let answered := if s.fsm.inOperation then faulted.respond (.fatal c) else faulted
  { answered with fsm := .idle }

/-- Reset (R220, R221): the reset state of R35 for this machine's parameters. What is still to come on the input pins
and what was given out stay; an operation in progress gets no response. -/
def State.resetBlock (s : State) : State :=
  { State.resetWith s.par with
    rstIn := s.rstIn, hostIn := s.hostIn, payIn := s.payIn, txIn := s.txIn, rxIn := s.rxIn,
    wire := s.wire, rsp := s.rsp }

end Sys2Proof.Machine
end

