-- ==== Sys2Proof/Machine/Rows.lean ====
section
/-! DEFINITION. The rows of the transition table of spec/42_controller_ops.md R170 outside `S_IDLE`, state by state
(R172-R182), and a visit of a state: its rows until the state is left. -/

namespace Sys2Proof.Machine

open Sys2Proof

/-! ## Sending -/

/-- Offer one byte: what to do when it is accepted and when it fails; blocked is no row (R58, R170). -/
def offer (b : Byte) (accepted failed : State → Tick) (s : State) : Tick :=
  match s.tx b with
  | (.accepted, t) => accepted t
  | (.failed, t) => failed t
  | (.blocked, t) => .waits t

/-- A state that sends a command: byte `CMD[seq]`; after the last one `done` (R140, R170). -/
def sendRow (cmd : List Byte) (done failed : State → Tick) (s : State) : Tick :=
  match cmd[s.seq.toNat]? with
  | none => .noRow
  | some b =>
    offer b
      (fun t => if s.seq.toNat + 1 = cmd.length then done t else .moved { t with seq := t.seq + 1 })
      failed s

/-- The `fail` row of the states outside a bracketed burst (R170). -/
def trapTxFail (s : State) : Tick := .moved (s.trap causeTxFail)

/-! ## The rows of each state -/

/-- `S_INIT_G` (R142, R182). -/
def rowInitG (s : State) : Tick :=
  offer tokInitG (fun t => .moved { t with dly := t.par.periods .tInit, fsm := .initDly1 }) trapTxFail s

/-- `S_INIT_5` (R144, R182). -/
def rowInit5 (s : State) : Tick :=
  sendRow init5Bytes (fun t => .moved { t with dly := t.par.periods .tInit, fsm := .initDly2 }) trapTxFail s

/-- `S_ADDR_SEL`, sending SELECT_ADDRESS of `a` (R130, R172). -/
def rowSelectAddress (a : Addr) (s : State) : Tick :=
  sendRow (selectAddressBytes s.par a) (fun t => .moved { t with seq := 0, fsm := .rmEnter }) trapTxFail s

/-- `S_RM_ENTER` (R131, R173). -/
def rowEnterRead (s : State) : Tick :=
  offer tokEnterRead (fun t => .moved { t with ep := causeNone, fsm := .burstTrig }) trapTxFail s

/-- An error inside the bracketed burst: held in `ep`, noted, and the exit is sent next (R141, R174, R175). -/
def holdError (c : BitVec 3) (s : State) : Tick :=
  .moved { ({ s with ep := c } : State).note with seq := 0, fsm := .rmExit }

/-- `S_BURST_TRIG` (R132, R174). -/
def rowTriggerBurst (s : State) : Tick :=
  offer tokTrigger
    (fun t => .moved { t with cnt := 0, fsm := .burstRx })
    (fun t => holdError causeTxFail { t with cnt := 0 }) s

/-- A received byte: to `FB[cnt]`; the 64th ends the burst (R133, R170, R175). -/
def takeByte (b : Byte) (s : State) : Tick :=
  if s.cnt.toNat < 63 then .moved { s.fbWrite s.cnt.toNat b with cnt := s.cnt + 1 }
  else .moved { s.fbWrite s.cnt.toNat b with cnt := s.cnt + 1, seq := 0, fsm := .rmExit }

/-- `S_BURST_RX` (R133, R175). -/
def rowBurstRx (s : State) : Tick :=
  if 64 ≤ s.cnt.toNat then .noRow
  else
    match s.rx with
    | (.byte b, t) => takeByte b t
    | (.failed, t) => holdError causeRxFail t
    | (.ended, t) => holdError causeShortRead t
    | (.blocked, t) => .waits t

/-- The exit was sent: commit the block and answer, or take the pending fault (R176). -/
def finishExit (s : State) : Tick :=
  if s.ep = causeNone then
    let t := s.fill s.idxR
    match t.readByte t.addrR with
    | some b => .moved { t.respond (.okByte b) with fsm := .idle }
    | none => .noRow
  else .moved (s.trap s.ep)

/-- A byte of the exit failed: the pending error is the one reported (R176, R194). -/
def failExit (s : State) : Tick := .moved (s.trap (if s.ep = causeNone then causeTxFail else s.ep))

/-- `S_RM_EXIT`: EXIT_READ_SEQ, or nothing when it is empty (R134, R176). -/
def rowExitRead (s : State) : Tick :=
  if s.par.exitReadSeq = [] then finishExit s else sendRow s.par.exitReadSeq finishExit failExit s

/-- `S_W_ADDR`, sending WRITE_ADDR of `a` (R137, R177). -/
def rowWriteAddr (a : Addr) (s : State) : Tick :=
  sendRow (writeAddrBytes s.par a) (fun t => .moved { t with dly := t.par.periods .tWrite, fsm := .wDly1 }) trapTxFail s

/-- `S_W_VALUE`, sending WRITE_VALUE of `v` (R138, R179). -/
def rowWriteValue (v : Byte) (s : State) : Tick :=
  sendRow (writeValueBytes v) (fun t => .moved { t with dly := t.par.periods .tWrite, fsm := .wDly2 }) trapTxFail s

/-- A delay state: `dly` counts down by one a period; at 0 the delay has elapsed (R136, R203, log 14). -/
def rowDelay (p : DelayParam) (next : State → State) (s : State) : Tick :=
  if s.dly = 0 then .moved (next { s with wire := s.wire ++ [.delay p] }) else .moved { s with dly := s.dly - 1 }

/-- `S_INIT_DLY1` (R182). -/
def rowInitDly1 : State → Tick := rowDelay .tInit fun t => { t with seq := 0, fsm := .init5 }

/-- `S_INIT_DLY2` (R182). -/
def rowInitDly2 : State → Tick := rowDelay .tInit fun t => { t with fsm := .idle }

/-- `S_W_DLY1` (R178). -/
def rowWDly1 : State → Tick := rowDelay .tWrite fun t => { t with seq := 0, fsm := .wValue }

/-- `S_W_DLY2` (R178). -/
def rowWDly2 : State → Tick := rowDelay .tWrite fun t => { t with fsm := .inval }

/-- `S_INVAL` (R180). -/
def rowInval (s : State) : Tick := .moved { s.invalidateAll.respond .ok with fsm := .idle }

/-- `S_LSAV_DRAIN`: one beat is dropped; the end beat ends the operation (R97, R181). -/
def rowDrain (s : State) : Tick :=
  match s.payIn with
  | [] => .waits s
  | p :: ps =>
    let t := { s with payIn := ps }
    if !p.valid then .waits t
    else if p.last then .moved { t.respond .ok with fsm := .idle }
    else .moved t

/-- The row the table has outside `S_IDLE` (R170). -/
def rowOf (s : State) : Tick :=
  match s.fsm with
  | .idle => .noRow
  | .initG => rowInitG s
  | .initDly1 => rowInitDly1 s
  | .init5 => rowInit5 s
  | .initDly2 => rowInitDly2 s
  | .addrSel => rowSelectAddress s.baseR s
  | .rmEnter => rowEnterRead s
  | .burstTrig => rowTriggerBurst s
  | .burstRx => rowBurstRx s
  | .rmExit => rowExitRead s
  | .wAddr => rowWriteAddr s.addrR s
  | .wDly1 => rowWDly1 s
  | .wValue => rowWriteValue s.wdataR s
  | .wDly2 => rowWDly2 s
  | .inval => rowInval s
  | .lsavDrain => rowDrain s

/-! ## Visits -/

/-- Take a row again and again, at most `n` times, until it leaves the state it began in or the block waits. -/
def repeatRow (row : State → Tick) : Nat → State → Tick
  | 0, s => .moved s
  | n + 1, s =>
    match row s with
    | .moved t => if t.fsm = s.fsm then repeatRow row n t else .moved t
    | .waits t => .waits t
    | .noRow => .noRow

/-- How many rows a visit can take: the bytes of the command, of the burst, the periods of the delay, the beats still
to come (R23, table column "what one visit does"). -/
def State.visitBound (s : State) : Nat :=
  match s.fsm with
  | .idle => 0
  | .initG => 1
  | .initDly1 => s.dly + 1
  | .init5 => 2
  | .initDly2 => s.dly + 1
  | .addrSel => 6
  | .rmEnter => 1
  | .burstTrig => 1
  | .burstRx => 64
  | .rmExit => s.par.exitReadSeq.length + 1
  | .wAddr => 6
  | .wDly1 => s.dly + 1
  | .wValue => 5
  | .wDly2 => s.dly + 1
  | .inval => 1
  | .lsavDrain => s.payIn.length + 1

/-- One visit of the present state: its command is sent, its burst received, its delay waited (R23). -/
def visit (s : State) : Tick := repeatRow rowOf s.visitBound s

/-- Run an operation from the present state to its end in `S_IDLE`, at most `n` visits, or until the block waits. -/
def runOp : Nat → State → Tick
  | 0, s => .moved s
  | n + 1, s =>
    if s.fsm = .idle then .moved s
    else
      match visit s with
      | .moved t => runOp n t
      | .waits t => .waits t
      | .noRow => .noRow

/-- The longest path through the table, a read miss or a write, visits five states (R23). -/
def maxVisits : Nat := 5

/-- The step a row, a visit or a run of visits makes. A block that waits is in a next state: the run goes on without a
response (R193, log 3). -/
def Tick.toOutcome : Tick → Host.Outcome State Fault Refusal
  | .moved s => .next s
  | .waits s => .next s
  | .noRow => .fault .noTransition

end Sys2Proof.Machine
end

