-- ==== Sys2Proof/Machine/HostOps.lean ====
section
/-! DEFINITION. The meanings of the host operations (spec/42_controller_ops.md R160-R165): the acceptance in `S_IDLE` (R171),
then the operation's rows to its response (R170). -/

namespace Sys2Proof.Machine

open Sys2Proof

/-! ## Acceptance (R171) -/

/-- The request codes (R93), as `op_r` latches them. -/
def opRead : BitVec 3 := 0
/-- `WROM`. -/
def opWrom : BitVec 3 := 1
/-- `WRAM`. -/
def opWram : BitVec 3 := 2
/-- `LSAV`. -/
def opLsav : BitVec 3 := 4

/-- READ: refused with FATAL while FAULT is 1, answered at once on a hit, else the fetch begins (R160, R171, R199). -/
def acceptRead (a : Addr) (s : State) : Tick :=
  if s.fault then .moved (s.respond (.fatal s.cause))
  else if s.lookup a then
    match s.readByte a with
    | some b => .moved (s.respond (.okByte b))
    | none => .noRow
  else .moved { s with opR := opRead, addrR := a, seq := 0, fsm := .addrSel }

/-- WROM and WRAM: refused with FATAL while FAULT is 1, else the write sequence begins (R161, R162, R171, R199). -/
def acceptWrite (op : BitVec 3) (a : Addr) (v : Byte) (s : State) : Tick :=
  if s.fault then .moved (s.respond (.fatal s.cause))
  else .moved { s with opR := op, addrR := a, wdataR := v, seq := 0, fsm := .wAddr }

/-- GSAV: `OK` at once, FAULT or not (R163, R171). -/
def acceptGsav (s : State) : Tick := .moved (s.respond .ok)

/-- LSAV: the payload is drained next, FAULT or not (R164, R171). -/
def acceptLsav (s : State) : Tick := .moved { s with opR := opLsav, fsm := .lsavDrain }

/-- A reserved operation: `ILLEGAL`, nothing else (R165, R171). -/
def acceptReserved (s : State) : Tick := .moved (s.respond .illegal)

/-- The acceptance of a request, by its operation (R171); a wire command is no request. -/
def accept (i : Instr) (s : State) : Tick :=
  match i with
  | .read a => acceptRead a s
  | .wrom a v => acceptWrite opWrom a v s
  | .wram a v => acceptWrite opWram a v s
  | .gsav => acceptGsav s
  | .lsav => acceptLsav s
  | .reserved5 => acceptReserved s
  | .reserved6 => acceptReserved s
  | .reserved7 => acceptReserved s
  | .enterRead => .noRow
  | .selectAddress _ => .noRow
  | .triggerBurst => .noRow
  | .writeAddr _ => .noRow
  | .writeValue _ => .noRow
  | .initG => .noRow
  | .init5 => .noRow
  | .exitRead => .noRow

/-- One row of the whole table (R170): in `S_IDLE` the acceptance of an offered request, elsewhere the state's row. -/
def transition (s : State) : Tick :=
  if s.fsm = .idle then
    match s.hostIn with
    | [] => .waits s
    | p :: ps =>
      let t := { s with hostIn := ps }
      if p.valid then accept (decodeRequest p.req) t else .waits t
  else rowOf s

/-! ## The operations -/

/-- An accepted request is run to its response or until the block waits (R62, R170). A hit whose byte has no value
stops (log 6). -/
def Tick.finish : Tick → Host.Outcome State Fault Refusal
  | .moved t => (runOp maxVisits t).toOutcome
  | .waits t => .next t
  | .noRow => .fault .rowWithoutBytes

/-- A host operation: accepted in `S_IDLE`, then run to its response or until the block waits (R62, R170). Outside
`S_IDLE` no request is accepted (R89, log 9). -/
def hostOp (name : String) (acceptOp : State → Tick) (s : State) : Host.Outcome State Fault Refusal :=
  if s.fsm = .idle then (acceptOp s).finish else .refused (.busy name)

/-- `READ a` (R160). -/
def execRead (a : Addr) (s : State) : Host.Outcome State Fault Refusal := hostOp "READ" (acceptRead a) s

/-- `WROM a, v` (R161). -/
def execWrom (a : Addr) (v : Byte) (s : State) : Host.Outcome State Fault Refusal :=
  hostOp "WROM" (acceptWrite opWrom a v) s

/-- `WRAM a, v` (R162). -/
def execWram (a : Addr) (v : Byte) (s : State) : Host.Outcome State Fault Refusal :=
  hostOp "WRAM" (acceptWrite opWram a v) s

/-- `GSAV` (R163). -/
def execGsav (s : State) : Host.Outcome State Fault Refusal := hostOp "GSAV" acceptGsav s

/-- `LSAV` (R164). -/
def execLsav (s : State) : Host.Outcome State Fault Refusal := hostOp "LSAV" acceptLsav s

/-- Reserved operation code 5 (R165). -/
def execReserved5 (s : State) : Host.Outcome State Fault Refusal := hostOp "RESERVED_5" acceptReserved s

/-- Reserved operation code 6 (R165). -/
def execReserved6 (s : State) : Host.Outcome State Fault Refusal := hostOp "RESERVED_6" acceptReserved s

/-- Reserved operation code 7 (R165). -/
def execReserved7 (s : State) : Host.Outcome State Fault Refusal := hostOp "RESERVED_7" acceptReserved s

end Sys2Proof.Machine
end

