-- ==== Sys2Proof/Machine/Wire.lean ====
section
/-! DEFINITION. The meanings of the wire commands (spec/41_link_codec.md R130-R144): each is the visit of the sequencer
state that sends it. Outside that state a command cannot be issued (R85, R99, log 8). -/

namespace Sys2Proof.Machine

open Sys2Proof

/-- A wire command: in state `q`, its row until the command is sent, cut or waiting. A command that was waiting goes on
at byte `seq`. -/
def wireCommand (q : Fsm) (name : String) (row : State → Tick) (s : State) : Host.Outcome State Fault Refusal :=
  if s.fsm = q then (repeatRow row s.visitBound s).toOutcome else .refused (.outOfSequence name)

/-- `ENTER_READ` (R131, R173). -/
def execEnterRead (s : State) : Host.Outcome State Fault Refusal :=
  wireCommand .rmEnter "ENTER_READ" rowEnterRead s

/-- `SELECT_ADDRESS(a)` (R130, R172). -/
def execSelectAddress (a : Addr) (s : State) : Host.Outcome State Fault Refusal :=
  wireCommand .addrSel "SELECT_ADDRESS" (rowSelectAddress a) s

/-- `TRIGGER_BURST` (R132, R174). -/
def execTriggerBurst (s : State) : Host.Outcome State Fault Refusal :=
  wireCommand .burstTrig "TRIGGER_BURST" rowTriggerBurst s

/-- `WRITE_ADDR(a)` (R137, R177). -/
def execWriteAddr (a : Addr) (s : State) : Host.Outcome State Fault Refusal :=
  wireCommand .wAddr "WRITE_ADDR" (rowWriteAddr a) s

/-- `WRITE_VALUE(v)` (R138, R179). -/
def execWriteValue (v : Byte) (s : State) : Host.Outcome State Fault Refusal :=
  wireCommand .wValue "WRITE_VALUE" (rowWriteValue v) s

/-- `INIT_G` (R142, R182). -/
def execInitG (s : State) : Host.Outcome State Fault Refusal :=
  wireCommand .initG "INIT_G" rowInitG s

/-- `INIT_5` (R144, R182). -/
def execInit5 (s : State) : Host.Outcome State Fault Refusal :=
  wireCommand .init5 "INIT_5" rowInit5 s

/-- `EXIT_READ`, with the commit or the pending trap at its end (R134, R176). -/
def execExitRead (s : State) : Host.Outcome State Fault Refusal :=
  wireCommand .rmExit "EXIT_READ" rowExitRead s

end Sys2Proof.Machine
end

