-- ==== Sys2Proof/Machine/Dispatch.lean ====
section
/-! DEFINITION. The meaning of every instruction, one arm per constructor. -/

namespace Sys2Proof.Machine

open Sys2Proof

def exec (i : Instr) (s : State) : Host.Outcome State Fault Refusal :=
  match i with
  | .read a => Sys2Proof.Machine.execRead a s
  | .wrom a v => Sys2Proof.Machine.execWrom a v s
  | .wram a v => Sys2Proof.Machine.execWram a v s
  | .gsav => Sys2Proof.Machine.execGsav s
  | .lsav => Sys2Proof.Machine.execLsav s
  | .reserved5 => Sys2Proof.Machine.execReserved5 s
  | .reserved6 => Sys2Proof.Machine.execReserved6 s
  | .reserved7 => Sys2Proof.Machine.execReserved7 s
  | .enterRead => Sys2Proof.Machine.execEnterRead s
  | .selectAddress a => Sys2Proof.Machine.execSelectAddress a s
  | .triggerBurst => Sys2Proof.Machine.execTriggerBurst s
  | .writeAddr a => Sys2Proof.Machine.execWriteAddr a s
  | .writeValue v => Sys2Proof.Machine.execWriteValue v s
  | .initG => Sys2Proof.Machine.execInitG s
  | .init5 => Sys2Proof.Machine.execInit5 s
  | .exitRead => Sys2Proof.Machine.execExitRead s

end Sys2Proof.Machine
end

