-- ==== Sys2Proof/Machine/Fetch.lean ====
section
/-! DEFINITION. What the next step runs: reset, the request the host offers, the wire command of the sequencer's state, or a
state that sends nothing; and how an instruction is placed so that the next step runs it. -/

namespace Sys2Proof.Machine

open Sys2Proof

/-- The wire command the sequencer's state sends (R23, R170). -/
def State.command (s : State) : Option Instr :=
  match s.fsm with
  | .idle => none
  | .initG => some .initG
  | .initDly1 => none
  | .init5 => some .init5
  | .initDly2 => none
  | .addrSel => some (.selectAddress s.baseR)
  | .rmEnter => some .enterRead
  | .burstTrig => some .triggerBurst
  | .burstRx => none
  | .rmExit => some .exitRead
  | .wAddr => some (.writeAddr s.addrR)
  | .wDly1 => none
  | .wValue => some (.writeValue s.wdataR)
  | .wDly2 => none
  | .inval => none
  | .lsavDrain => none

/-- What the next step does. -/
inductive Fetched where
  /-- `rst` is 1: the reset state is taken. -/
  | reset (s : State)
  /-- An instruction is run. -/
  | instr (i : Instr) (s : State)
  /-- A state that sends no command is visited, or nothing is offered. -/
  | inner (t : Tick)
deriving Repr

/-- A step that is no reset: in `S_IDLE` the offered request, decoded; in a sending state its command; in any other
state its visit (R170, R171, R89). -/
def State.fetchRun (s : State) : Fetched :=
  if s.fsm = .idle then
    match s.hostIn with
    | [] => .inner (.waits s)
    | p :: ps =>
      let t := { s with hostIn := ps }
      if p.valid then .instr (decodeRequest p.req) t else .inner (.waits t)
  else
    match s.command with
    | some i => .instr i s
    | none => .inner (visit s)

/-- `rst` is looked at first, once a step (R220, log 12). -/
def State.fetch (s : State) : Fetched :=
  match s.rstIn with
  | [] => s.fetchRun
  | r :: rs =>
    let t := { s with rstIn := rs }
    if r then .reset t.resetBlock else t.fetchRun

/-- Place an instruction so that the next step runs it: a request word `w` offered in `S_IDLE`; a wire command by the
sequencer state and the latch that make the block send it (log 13). -/
def State.place (s : State) (i : Instr) (w : BitVec 27) : State :=
  let t := { s with rstIn := false :: s.rstIn }
  let offered := { t with fsm := .idle, hostIn := ⟨true, w⟩ :: t.hostIn }
  match i with
  | .read _ => offered
  | .wrom _ _ => offered
  | .wram _ _ => offered
  | .gsav => offered
  | .lsav => offered
  | .reserved5 => offered
  | .reserved6 => offered
  | .reserved7 => offered
  | .enterRead => { t with fsm := .rmEnter }
  | .selectAddress a => { t with fsm := .addrSel, seq := 0, addrR := a }
  | .triggerBurst => { t with fsm := .burstTrig }
  | .writeAddr a => { t with fsm := .wAddr, seq := 0, addrR := a }
  | .writeValue v => { t with fsm := .wValue, seq := 0, wdataR := v }
  | .initG => { t with fsm := .initG }
  | .init5 => { t with fsm := .init5, seq := 0 }
  | .exitRead => { t with fsm := .rmExit, seq := 0 }

end Sys2Proof.Machine
end

