-- ==== Sys2Proof/Machine/Step.lean ====
section
/-! DEFINITION. One step of the machine, and the placing of an opcode-table word for the next step. -/

namespace Sys2Proof.Machine

open Sys2Proof

/-- What was fetched is run. -/
def Fetched.run : Fetched → Host.Outcome State Fault Refusal
  | .reset t => .next t
  | .instr i t => exec i t
  | .inner t => t.toOutcome

/-- One step: reset, one instruction, or one visit of a state that sends nothing (log 1). -/
def step (s : State) : Host.Outcome State Fault Refusal := s.fetch.run

/-- The state with the instruction of an opcode-table word placed for the next step; unchanged where the decoder refuses
the word (log 13). -/
def State.withFetchWord (s : State) (nbits w : Nat) : State :=
  match decodeTableWord nbits w with
  | some i => s.place i (BitVec.ofNat 27 w)
  | none => s

end Sys2Proof.Machine
end

