-- ==== Sys2Proof/Machine/Ports.lean ====
section
/-! DEFINITION. The output pins, functions of the state (spec/30_encoding.md R88, R89), and the response word (R86). -/

namespace Sys2Proof.Machine

open Sys2Proof

/-- `h_req_ready`: 1 exactly in `S_IDLE` (R89). -/
def State.hReqReady (s : State) : Bool := s.fsm = .idle

/-- `rx_ready`: 1 only in `S_BURST_RX` (R88, R175). -/
def State.rxReady (s : State) : Bool := s.fsm = .burstRx

/-- `p_ready`: 1 only in `S_LSAV_DRAIN` (R97, R181). -/
def State.pReady (s : State) : Bool := s.fsm = .lsavDrain

/-- `fatal`: the level of FAULT (R30, R89). -/
def State.fatalOut (s : State) : Bool := s.fault

/-- `st_cause`, `st_fstate`, `st_fcnt`: levels of the status registers (R31, R89). -/
def State.stOut (s : State) : BitVec 3 × BitVec 4 × BitVec 7 := (s.cause, s.fstate, s.fcnt)

/-- `tx_valid` and `tx_data` together: the byte on offer, none where `tx_valid` is 0 (R88, R172-R182). -/
def State.txOffer (s : State) : Option Byte :=
  match s.fsm with
  | .idle => none
  | .initG => some tokInitG
  | .initDly1 => none
  | .init5 => init5Bytes[s.seq.toNat]?
  | .initDly2 => none
  | .addrSel => (selectAddressBytes s.par s.baseR)[s.seq.toNat]?
  | .rmEnter => some tokEnterRead
  | .burstTrig => some tokTrigger
  | .burstRx => none
  | .rmExit => s.par.exitReadSeq[s.seq.toNat]?
  | .wAddr => (writeAddrBytes s.par s.addrR)[s.seq.toNat]?
  | .wDly1 => none
  | .wValue => (writeValueBytes s.wdataR)[s.seq.toNat]?
  | .wDly2 => none
  | .inval => none
  | .lsavDrain => none

/-- `status` of a response (R86). -/
def Response.status : Response → BitVec 2
  | .okByte _ => 0
  | .ok => 0
  | .fatal _ => 1
  | .illegal => 2

/-- `cause` of a response (R86). -/
def Response.causeField : Response → BitVec 3
  | .okByte _ => 0
  | .ok => 0
  | .fatal c => c
  | .illegal => 0

/-- `rdata` of a response; none where its bits have no meaning (R86). -/
def Response.rdata : Response → Option Byte
  | .okByte b => some b
  | .ok => none
  | .fatal _ => none
  | .illegal => none

/-- Is `w = {status[1:0], cause[2:0], rdata[7:0]}` a response word of `r`? Bits without a meaning may hold any value, so
this is a relation and no function (R86, U11). -/
def Response.isWord (r : Response) (w : BitVec 13) : Bool :=
  w.extractLsb' 11 2 = r.status && w.extractLsb' 8 3 = r.causeField &&
    match r.rdata with
    | some b => w.extractLsb' 0 8 = b
    | none => true

end Sys2Proof.Machine
end

