-- ==== Sys2Proof/Safety.lean ====
section
/-! DEFINITION. The terms claims use: the invariants of the block, runs of transition-table rows, what the wire trace shows
of the cache, and answers of the environment. -/

namespace Sys2Proof.Safety

open Sys2Proof Sys2Proof.Machine

/-! ## Invariants -/

/-- The cache array is a partial map of whole rows: the memory is canonical, and a byte has a value exactly when its
entry is valid (R25, R119 I1 and I2, R235). -/
def CacheInv (s : State) : Prop :=
  Memory.wf s.dm ∧ ∀ a : Nat, (Memory.read s.dm a).isSome = s.v.getLsbD (a / 64)

/-- The counters are where the transition table has a row (R24, R170, R176). -/
def SeqInv (s : State) : Prop :=
  match s.fsm with
  | .init5 => s.seq.toNat < 2
  | .addrSel => s.seq.toNat < 6
  | .wAddr => s.seq.toNat < 6
  | .wValue => s.seq.toNat < (writeValueBytes s.wdataR).length
  | .burstRx => s.cnt.toNat < 64
  | .rmExit => (s.par.exitReadSeq = [] ∨ s.seq.toNat < s.par.exitReadSeq.length) ∧ (s.ep = 0 → s.cnt = 64)
  | _ => True

/-- The states of the read path after acceptance (R23). -/
def onReadPath (q : Fsm) : Bool :=
  q = .addrSel || q = .rmEnter || q = .burstTrig || q = .burstRx || q = .rmExit

/-- The states of the write path (R23). -/
def onWritePath (q : Fsm) : Bool :=
  q = .wAddr || q = .wDly1 || q = .wValue || q = .wDly2 || q = .inval

/-- What the latches hold while an operation runs: the operation, and for a fetch an entry that is not valid (R113,
R114, R171). -/
def LatchInv (s : State) : Prop :=
  (onReadPath s.fsm → s.opR = opRead ∧ s.lookup s.addrR = false) ∧
  (onWritePath s.fsm → s.opR = opWrom ∨ s.opR = opWram) ∧
  (s.fsm = .lsavDrain → s.opR = opLsav)

/-- The status registers (R30, R31, R32, R190, R196, R199). -/
def StatusInv (s : State) : Prop :=
  (s.fault = true ↔ s.cause ≠ causeNone) ∧
  s.cause.toNat ≤ 3 ∧ s.ep.toNat ≤ 3 ∧ s.fcnt.toNat ≤ 64 ∧
  (s.fault = true → s.v = 0 ∧ (s.fsm = .idle ∨ s.fsm = .lsavDrain)) ∧
  (s.fault = false → s.errorNoted = false → s.fstate = 0 ∧ s.fcnt = 0) ∧
  (s.fsm = .burstTrig ∨ s.fsm = .burstRx → s.ep = causeNone)

/-- The invariant of the machine. -/
def Inv (s : State) : Prop :=
  s.par.wf ∧ CacheInv s ∧ SeqInv s ∧ LatchInv s ∧ StatusInv s

/-! ## Runs of rows -/

/-- `t` is reached from `s` by rows of the transition table (R170), the last look at a port possibly finding nothing. -/
inductive RowsTo : State → State → Prop where
  | refl (s : State) : RowsTo s s
  | waits {s t : State} (h : transition s = .waits t) : RowsTo s t
  | row {s t u : State} (h : transition s = .moved t) (r : RowsTo t u) : RowsTo s u

/-- The step from this state is no reset and accepts no WROM and no WRAM (R232). -/
def Undisturbed (s : State) : Prop :=
  s.rstIn.head? ≠ some true ∧
    (s.fsm = .idle → ∀ p ∈ s.hostIn.head?, p.valid = true → reqOp p.req ≠ 1 ∧ reqOp p.req ≠ 2)

/-- `t` is reached from `s` by any number of steps of which none is a reset or accepts a write. -/
inductive UndisturbedTo : State → State → Prop where
  | refl (s : State) : UndisturbedTo s s
  | step {s t u : State} (h : Undisturbed s) (hs : Machine.step s = .next t) (r : UndisturbedTo t u) : UndisturbedTo s u

/-! ## What the wire shows of the cache -/

/-- The address of entry `i` (R110). -/
def entryAddr (i : BitVec 10) : Addr := i ++ (0 : BitVec 6)

/-- The events of a command sent whole. -/
def sent (bs : List Byte) : List Wire := bs.map .tx

/-- The events of a fetch of entry `i` up to the `n`-th received byte (R141). -/
def fetchTrace (p : Params) (i : BitVec 10) (got : List Byte) : List Wire :=
  sent (selectAddressBytes p (entryAddr i)) ++ [.tx tokEnterRead, .tx tokTrigger] ++ got.map .rx

/-- What the wire trace ends with while a fetch runs without an error (R141, R172-R176). -/
def FetchOnWire (s : State) : Prop :=
  match s.fsm with
  | .addrSel => ∃ before, s.wire = before ++ sent ((selectAddressBytes s.par s.baseR).take s.seq.toNat)
  | .rmEnter => ∃ before, s.wire = before ++ sent (selectAddressBytes s.par s.baseR)
  | .burstTrig => ∃ before, s.wire = before ++ sent (selectAddressBytes s.par s.baseR) ++ [.tx tokEnterRead]
  | .burstRx => ∃ before, s.wire = before ++ fetchTrace s.par s.idxR (s.fb.toList.take s.cnt.toNat)
  | .rmExit =>
    s.ep = causeNone →
      ∃ before, s.wire = before ++ fetchTrace s.par s.idxR s.fb.toList ++ sent (s.par.exitReadSeq.take s.seq.toNat)
  | _ => True

/-- The states in which a write has waited a settling delay and not yet emptied the cache (R118). -/
def writePending (q : Fsm) : Bool := q = .wValue || q = .wDly2 || q = .inval

/-- Every valid entry holds the bytes of one complete burst on the wire that followed the selection of its base and was
left by the exit; no write has gone through since (R119 I1). A write that goes through waits `T_WRITE`. -/
def CacheOnWire (s : State) : Prop :=
  ∀ i : BitVec 10, s.valid i = true →
    ∃ before row since,
      row.length = 64 ∧ (∀ k < 64, Memory.read s.dm (rowBase i + k) = row[k]?) ∧
      s.wire = before ++ fetchTrace s.par i row ++ sent s.par.exitReadSeq ++ since ∧
      (writePending s.fsm = false → Wire.delay .tWrite ∉ since)

/-! ## Answers of the environment -/

/-- The transport accepts every offered byte. -/
abbrev AllAccepted (ps : List TxPins) : Prop := ∀ p ∈ ps, p.outcome = .accepted

/-- The reply stream carries these bytes. -/
abbrev Carries (ps : List RxPins) (bs : List Byte) : Prop := ps.map RxPins.outcome = bs.map .byte

/-- `rst` is 0 at the coming step. -/
abbrev NoReset (s : State) : Prop := s.rstIn.head? ≠ some true

/-- The state with the coming look at `rst` taken. -/
def pastReset (s : State) : State := { s with rstIn := s.rstIn.tail }

end Sys2Proof.Safety
end

