-- ==== Sys2Proof/Certificates/Slice0/Obligations.lean ====
section
/-! DEFINITION. The statements for the provers. Each docstring cites the rules of spec/ it formalises. A statement about
every state also holds in states no run reaches; where it needs `Safety.Inv`, that is a premise, and `InvAtReset` and
`InvStep` state it. The step's granularity, the input lists, `dm` as a partial map and the lists `wire` and `rsp` are the
model's (log 1, 2, 6, 7); a statement that names them is read with those entries. -/

open Sys2Proof Sys2Proof.Machine Sys2Proof.Safety

/-! ## Encodings and operand forms -/

/-- R11: the parts of an address. -/
def Obligations.AddressParts : Prop :=
  ∀ a : Addr,
    (off a).toNat = a.toNat % 64 ∧
    (base a).toNat = a.toNat - a.toNat % 64 ∧
    (idx a).toNat = (base a).toNat / 64 ∧
    rowBase (idx a) + (off a).toNat = a.toNat

/-- R93: the operation and its operands are the fields `h_req[26:24]`, `h_req[23:8]`, `h_req[7:0]`; every word has one. -/
def Obligations.RequestWordFields : Prop :=
  ∀ w : BitVec 27,
    decodeRequest w =
      match w.toNat / 2 ^ 24 with
      | 0 => .read (BitVec.ofNat 16 (w.toNat / 2 ^ 8))
      | 1 => .wrom (BitVec.ofNat 16 (w.toNat / 2 ^ 8)) (BitVec.ofNat 8 w.toNat)
      | 2 => .wram (BitVec.ofNat 16 (w.toNat / 2 ^ 8)) (BitVec.ofNat 8 w.toNat)
      | 3 => .gsav
      | 4 => .lsav
      | 5 => .reserved5
      | 6 => .reserved6
      | _ => .reserved7

/-- R91: one hex digit in the letter case of `HEX_UPPER`; and the four digits of `hex4`, most significant first (R90). -/
def Obligations.HexDigits : Prop :=
  (∀ (u : Bool) (n : BitVec 4),
    (hexc u n).toNat =
      if n.toNat < 10 then 0x30 + n.toNat else if u then 0x41 + (n.toNat - 10) else 0x61 + (n.toNat - 10)) ∧
  ∀ (u : Bool) (a : Addr),
    hex4 u a =
      [hexc u (BitVec.ofNat 4 (a.toNat / 4096)), hexc u (BitVec.ofNat 4 (a.toNat / 256)),
       hexc u (BitVec.ofNat 4 (a.toNat / 16)), hexc u (BitVec.ofNat 4 a.toNat)]

/-- R92: the decimal numeral of the value, one to three digit characters, no leading zero. -/
def Obligations.DecimalNumeral : Prop :=
  ∀ v : Byte,
    (dec v).foldl (fun n c => 10 * n + (c.toNat - 0x30)) 0 = v.toNat ∧
    (∀ c ∈ dec v, 0x30 ≤ c.toNat ∧ c.toNat ≤ 0x39) ∧
    1 ≤ (dec v).length ∧ (dec v).length ≤ 3 ∧
    (v ≠ 0 → (dec v).head? ≠ some 0x30) ∧ (v = 0 → dec v = [0x30])

/-- R81, R93: decoding an encoded instruction at its place of a session gives it back, for every parameter value and
every operand. -/
def Obligations.DecodeEncode : Prop :=
  ∀ (p : Params) (i : Instr), decode p i.phase (encode p i) = .ok i

/-- Words written out bit by bit from R81 and R93, decoded (95_test_vectors 2.4 and 2.6). -/
def Obligations.DecodeSamples : Prop :=
  decodeRequest 0x0004500 = .read 0x0045 ∧
  decodeRequest 0x1200001 = .wrom 0x2000 1 ∧
  decodeRequest 0x5FFFFFF = .reserved5 ∧
  decode Params.default .listening (.wire [0x41, 0x30, 0x30, 0x34, 0x30, 0x00]) = .ok (.selectAddress 0x0040) ∧
  decode Params.default .listening (.wire [0x42, 0x61, 0x31, 0x32, 0x33, 0x00]) = .ok (.writeAddr 0xA123) ∧
  decode Params.default .value (.wire [0x42, 0x32, 0x35, 0x35, 0x00]) = .ok (.writeValue 255) ∧
  decode Params.default .listening (.wire [0x35, 0x00]) = .ok .init5

/-! ## Ports -/

/-- R88: `tx_err` wins over `tx_ready`; `rx_err` over `rx_valid` and `rx_eof`; `rx_valid` over `rx_eof`. -/
def Obligations.PortPriorities : Prop :=
  (∀ p : TxPins,
    (p.outcome = .failed ↔ p.err = true) ∧
    (p.outcome = .accepted ↔ p.err = false ∧ p.ready = true) ∧
    (p.outcome = .blocked ↔ p.err = false ∧ p.ready = false)) ∧
  ∀ p : RxPins,
    (p.outcome = .failed ↔ p.err = true) ∧
    (∀ b, p.outcome = .byte b ↔ p.err = false ∧ p.valid = true ∧ p.data = b) ∧
    (p.outcome = .ended ↔ p.err = false ∧ p.valid = false ∧ p.eof = true) ∧
    (p.outcome = .blocked ↔ p.err = false ∧ p.valid = false ∧ p.eof = false)

/-- R86: the response word; status 3 is never produced, and bits without a meaning are not fixed. -/
def Obligations.ResponseWords : Prop :=
  (∀ (b : Byte) (w : BitVec 13), Response.isWord (.okByte b) w = true ↔ w.toNat = b.toNat) ∧
  (∀ w : BitVec 13, Response.isWord .ok w = true ↔ w.toNat / 256 = 0) ∧
  (∀ (c : BitVec 3) (w : BitVec 13), Response.isWord (.fatal c) w = true ↔ w.toNat / 256 = 8 + c.toNat) ∧
  (∀ w : BitVec 13, Response.isWord .illegal w = true ↔ w.toNat / 256 = 16)

/-- A row that sends puts on the wire the byte the transmit port offers (R88, R140). -/
def Obligations.OfferedByteIsSent : Prop :=
  ∀ (s t : State) (b : Byte),
    transition s = .moved t → t.wire = s.wire ++ [.tx b] → s.txOffer = some b

/-- Reply bytes are taken, and the fill buffer written, only in `S_BURST_RX` (R69, R87, R28); there nothing is sent (R63,
R133). -/
def Obligations.BurstDirection : Prop :=
  ∀ s t : State, transition s = .moved t ∨ transition s = .waits t →
    (s.fsm ≠ .burstRx → t.rxIn = s.rxIn ∧ t.fb = s.fb) ∧
    (s.fsm = .burstRx → t.txIn = s.txIn ∧ ∃ e, t.wire = s.wire ++ e ∧ ∀ x ∈ e, ∃ b, x = .rx b)

/-! ## Reset and the invariants -/

/-- R35: what reset leaves. -/
def Obligations.ResetValues : Prop :=
  ∀ p : Params,
    let s := State.resetWith p
    s.v = 0 ∧ s.fault = false ∧ s.cause = 0 ∧ s.fstate = 0 ∧ s.fcnt = 0 ∧ s.seq = 0 ∧ s.cnt = 0 ∧ s.ep = 0 ∧
    s.dly = 0 ∧ (p.initOnReset = true → s.fsm = .initG) ∧ (p.initOnReset = false → s.fsm = .idle) ∧ s.par = p

/-- R220, R221: with `rst` at 1 the reset state is taken whatever was going on; no response is given and what was sent
stays sent. The inputs still to come stay, and so does the rest of `State.resetWith`: the model's choice (log 5, log 12). -/
def Obligations.ResetStep : Prop :=
  ∀ (s : State) (rs : List Bool), s.rstIn = true :: rs →
    step s = .next { State.resetWith s.par with
      rstIn := rs, hostIn := s.hostIn, payIn := s.payIn, txIn := s.txIn, rxIn := s.rxIn,
      wire := s.wire, rsp := s.rsp }

/-- The invariants hold after reset of a machine with admissible parameters. -/
def Obligations.InvAtReset : Prop :=
  ∀ p : Params, p.wf → Inv (State.resetWith p) ∧ FetchOnWire (State.resetWith p) ∧ CacheOnWire (State.resetWith p)

/-- Every step keeps the invariant: whole rows only (R119 I1, I2, R235), the counters within their commands (R24), the
latches of the operation in progress and no replacement (R114, R171), the status registers (R30-R32, R190, R199). -/
def Obligations.InvStep : Prop :=
  ∀ s t : State, Inv s → step s = .next t → Inv t

/-- In every state of the invariant the step answers a next state: the block never stops, whatever the host and the
device do (R170, R191-R193). -/
def Obligations.StepAnswersNext : Prop :=
  ∀ s : State, Inv s → ∃ t, step s = .next t

/-- R119 I1: every valid entry holds the bytes of one complete burst that followed the selection of its base, with no
write since; and what a fetch in progress has put on the wire (R141). -/
def Obligations.WireHistoryStep : Prop :=
  ∀ s t : State, Inv s → FetchOnWire s → CacheOnWire s → step s = .next t → FetchOnWire t ∧ CacheOnWire t

/-- R170: a step that is no reset is a run of rows of the transition table. The granularity of a step is the model's
choice (log 1). -/
def Obligations.StepIsRunOfRows : Prop :=
  ∀ s t : State, NoReset s → step s = .next t → RowsTo (pastReset s) t

/-- No step changes a parameter (R9); the wire trace and the responses only grow (R13, R86). -/
def Obligations.OutputsGrow : Prop :=
  ∀ s t : State, step s = .next t →
    t.par = s.par ∧ (∃ e, t.wire = s.wire ++ e) ∧ ∃ f, t.rsp = s.rsp ++ f

/-- R13: no rule of the block reads the wire trace, nor the responses given: a step from a state with other ones adds
the same and ends the same. -/
def Obligations.ObservationsUnread : Prop :=
  ∀ (s t : State) (w e : List Wire) (r f : List Response),
    step s = .next t → t.wire = s.wire ++ e → t.rsp = s.rsp ++ f →
      step { s with wire := w, rsp := r } = .next { t with wire := w ++ e, rsp := r ++ f }

/-- R89: a request is taken in `S_IDLE` alone, one at a time, and gets exactly one response, delivered when the machine
is back in `S_IDLE`; the start-up sequence gives none (R198). -/
def Obligations.OneResponse : Prop :=
  ∀ s t : State, NoReset s → step s = .next t →
    (s.fsm ≠ .idle → t.hostIn = s.hostIn) ∧
    (s.fsm.inOperation = true →
      (t.fsm = .idle → ∃ r, t.rsp = s.rsp ++ [r]) ∧ (t.fsm ≠ .idle → t.rsp = s.rsp)) ∧
    (∀ p ps, s.fsm = .idle → s.hostIn = p :: ps → p.valid = true →
      t.hostIn = ps ∧ (t.fsm = .idle → ∃ r, t.rsp = s.rsp ++ [r]) ∧ (t.fsm ≠ .idle → t.rsp = s.rsp)) ∧
    (s.fsm.inOperation = false → s.fsm ≠ .idle → t.rsp = s.rsp)

/-! ## Waiting and stopping -/

/-- R193, R58, R59, R97, R171: without a request, an answer, a reply byte or a payload beat the block waits: the step
leaves everything as it is. A port that is looked at and signals nothing is the same, the sample being gone. -/
def Obligations.WaitingChangesNothing : Prop :=
  ∀ s : State, NoReset s →
    (s.fsm = .idle → s.hostIn = [] → step s = .next (pastReset s)) ∧
    (s.fsm = .idle → ∀ p ps, s.hostIn = p :: ps → p.valid = false →
      step s = .next { pastReset s with hostIn := ps }) ∧
    (∀ b, s.txOffer = some b →
      (s.txIn = [] → step s = .next (pastReset s)) ∧
      ∀ p ps, s.txIn = p :: ps → p.ready = false → p.err = false →
        step s = .next { pastReset s with txIn := ps }) ∧
    (s.fsm = .burstRx → s.cnt.toNat < 64 →
      (s.rxIn = [] → step s = .next (pastReset s)) ∧
      ∀ p ps, s.rxIn = p :: ps → p.valid = false → p.err = false → p.eof = false →
        step s = .next { pastReset s with rxIn := ps }) ∧
    (s.fsm = .lsavDrain →
      (s.payIn = [] → step s = .next (pastReset s)) ∧
      ∀ p ps, s.payIn = p :: ps → p.valid = false → step s = .next { pastReset s with payIn := ps })

/-- Where an instruction is not run: a host operation outside `S_IDLE` (R89, the model's choice log 9), a wire command
outside the state that sends it (R85, R170, log 8). -/
def Obligations.NotInTurn : Prop :=
  ∀ (s : State) (a : Addr) (v : Byte),
    (s.fsm ≠ .idle →
      exec (.read a) s = .refused (.busy "READ") ∧ exec (.wrom a v) s = .refused (.busy "WROM") ∧
      exec (.wram a v) s = .refused (.busy "WRAM") ∧ exec .gsav s = .refused (.busy "GSAV") ∧
      exec .lsav s = .refused (.busy "LSAV") ∧ exec .reserved5 s = .refused (.busy "RESERVED_5") ∧
      exec .reserved6 s = .refused (.busy "RESERVED_6") ∧ exec .reserved7 s = .refused (.busy "RESERVED_7")) ∧
    (s.fsm ≠ .initG → exec .initG s = .refused (.outOfSequence "INIT_G")) ∧
    (s.fsm ≠ .init5 → exec .init5 s = .refused (.outOfSequence "INIT_5")) ∧
    (s.fsm ≠ .rmEnter → exec .enterRead s = .refused (.outOfSequence "ENTER_READ")) ∧
    (s.fsm ≠ .addrSel → exec (.selectAddress a) s = .refused (.outOfSequence "SELECT_ADDRESS")) ∧
    (s.fsm ≠ .burstTrig → exec .triggerBurst s = .refused (.outOfSequence "TRIGGER_BURST")) ∧
    (s.fsm ≠ .wAddr → exec (.writeAddr a) s = .refused (.outOfSequence "WRITE_ADDR")) ∧
    (s.fsm ≠ .wValue → exec (.writeValue v) s = .refused (.outOfSequence "WRITE_VALUE")) ∧
    (s.fsm ≠ .rmExit → exec .exitRead s = .refused (.outOfSequence "EXIT_READ"))

/-- A step runs the decoded instruction: the request word on offer in `S_IDLE` (R89, R93), the command of a sending
state otherwise (R170), which is always one the block may send (R60, R130). Around it a step only looks at `rst`. -/
def Obligations.StepRunsInstruction : Prop :=
  (∀ (s : State) (w : BitVec 27) (ps : List HostPins), NoReset s → s.fsm = .idle → s.hostIn = ⟨true, w⟩ :: ps →
    step s = exec (decodeRequest w) { pastReset s with hostIn := ps }) ∧
  ∀ (s : State) (i : Instr), NoReset s → s.command = some i → i.WellFormed ∧ step s = exec i (pastReset s)

/-! ## The fault -/

/-- R196: `TRAP(c)`, with and without an error noted before. -/
def Obligations.TrapEffect : Prop :=
  ∀ (s : State) (c : BitVec 3),
    (¬ (s.fsm = .rmExit ∧ s.ep ≠ 0) →
      s.trap c = { s with
        fstate := s.fsm.code
        fcnt := if s.fsm = .burstTrig ∨ s.fsm = .burstRx ∨ s.fsm = .rmExit then s.cnt else 0
        cause := c, fault := true, v := 0, dm := [], fsm := .idle
        rsp := if s.fsm.inOperation then s.rsp ++ [.fatal c] else s.rsp }) ∧
    (s.fsm = .rmExit → s.ep ≠ 0 →
      s.trap c = { s with
        cause := c, fault := true, v := 0, dm := [], fsm := .idle, rsp := s.rsp ++ [.fatal c] })

/-- R199: while FAULT is 1 a READ, WROM or WRAM is answered FATAL with CAUSE and nothing else happens; GSAV, LSAV and the
reserved operations behave as they do while FAULT is 0. -/
def Obligations.FaultRefuses : Prop :=
  ∀ (s : State) (a : Addr) (v : Byte), s.fsm = .idle → s.fault = true →
    exec (.read a) s = .next { s with rsp := s.rsp ++ [.fatal s.cause] } ∧
    exec (.wrom a v) s = .next { s with rsp := s.rsp ++ [.fatal s.cause] } ∧
    exec (.wram a v) s = .next { s with rsp := s.rsp ++ [.fatal s.cause] } ∧
    ∀ i ∈ [Instr.gsav, .lsav, .reserved5, .reserved6, .reserved7],
      ∃ t, exec i { s with fault := false } = .next t ∧ exec i s = .next { t with fault := true }

/-- R30, R199: FAULT, once 1, stays 1 until reset, the status registers keep their values, the transport is not touched
and no entry is valid. -/
def Obligations.FaultIsSticky : Prop :=
  ∀ s t : State, Inv s → NoReset s → s.fault = true → step s = .next t →
    t.fault = true ∧ t.cause = s.cause ∧ t.fstate = s.fstate ∧ t.fcnt = s.fcnt ∧
    t.wire = s.wire ∧ t.txIn = s.txIn ∧ t.rxIn = s.rxIn ∧ t.v = 0

/-! ## The cache -/

/-- R113, R114, R116, R67: a valid entry stays valid with its 64 bytes through every step, unless a write or a fault
empties the whole cache. -/
def Obligations.ValidEntryKept : Prop :=
  ∀ (s t : State) (i : BitVec 10), Inv s → NoReset s → step s = .next t → s.valid i = true →
    (t.valid i = true ∧ ∀ k < 64, Memory.read t.dm (rowBase i + k) = Memory.read s.dm (rowBase i + k)) ∨
    (t.v = 0 ∧ (t.fault = true ∨ t.opR = opWrom ∨ t.opR = opWram))

/-- R29: a step leaves the valid bits, or empties them at a write or a fault, or sets the one bit of a missed block that a
READ stored and answered. -/
def Obligations.ValidBitsChange : Prop :=
  ∀ s t : State, Inv s → NoReset s → step s = .next t →
    t.v = s.v ∨
    (t.v = 0 ∧ (t.fault = true ∨ t.opR = opWrom ∨ t.opR = opWram)) ∨
    (s.lookup t.addrR = false ∧ t.v = s.v ||| BitVec.twoPow 1024 (idx t.addrR).toNat ∧ t.fault = false ∧ t.opR = opRead ∧
      ∃ b, t.rsp = s.rsp ++ [.okByte b])

/-- R113: `FILL(i)` makes entry `i` defined with the 64 bytes of the fill buffer; every other entry and byte is
unchanged. -/
def Obligations.FillCommits : Prop :=
  ∀ (s : State) (i : BitVec 10),
    (s.fill i).cache i = some s.fb.toList ∧
    (∀ j, j ≠ i → (s.fill i).valid j = s.valid j ∧ (s.fill i).cache j = s.cache j) ∧
    ∀ a, ¬ (rowBase i ≤ a ∧ a < rowBase i + 64) → Memory.read (s.fill i).dm a = Memory.read s.dm a

/-! ## READ -/

/-- R160, hit: the byte of the cached block, and nothing else happens. -/
def Obligations.ReadHit : Prop :=
  ∀ (s : State) (a : Addr), Inv s → s.fsm = .idle → s.fault = false → s.lookup a = true →
    ∃ b, Memory.read s.dm a.toNat = some b ∧ exec (.read a) s = .next { s with rsp := s.rsp ++ [.okByte b] }

/-- R160, R141, R183, miss: the whole sequence goes well. -/
def Obligations.ReadMiss : Prop :=
  ∀ (s : State) (a : Addr) (bytes : Vector Byte 64) (sel rest : List TxPins) (got rxRest : List RxPins),
    s.par.wf → s.fsm = .idle → s.fault = false → s.lookup a = false →
    s.txIn = sel ++ rest → sel.length = 8 + s.par.exitReadSeq.length → AllAccepted sel →
    s.rxIn = got ++ rxRest → Carries got bytes.toList →
    exec (.read a) s = .next { s with
      v := s.v ||| BitVec.twoPow 1024 (idx a).toNat
      dm := Memory.writeBytes s.dm (rowBase (idx a)) bytes.toList
      fb := bytes
      seq := BitVec.ofNat 3 (s.par.exitReadSeq.length - 1)
      opR := opRead, addrR := a, cnt := 64, ep := 0
      txIn := rest, rxIn := rxRest
      wire := s.wire ++ (sent (selectAddressBytes s.par (base a)) ++ [.tx 0x30, .tx 0x52] ++
        bytes.toList.map .rx ++ sent s.par.exitReadSeq)
      rsp := s.rsp ++ [.okByte (bytes[(off a).toNat]'(off a).isLt)] }

/-- R172, R173, R141, R196: the selection or the enter command is cut; no exit is sent, the trap is taken. -/
def Obligations.ReadCutBeforeBurst : Prop :=
  ∀ (s : State) (a : Addr) (sel rest : List TxPins) (q : TxPins),
    s.fsm = .idle → s.fault = false → s.lookup a = false →
    s.txIn = sel ++ q :: rest → sel.length < 7 → AllAccepted sel → q.outcome = .failed →
    exec (.read a) s = .next { s with
      v := 0, dm := [], fault := true, cause := 1
      fstate := if sel.length < 6 then 5 else 6
      fcnt := 0
      seq := if sel.length < 6 then BitVec.ofNat 3 sel.length else 0
      opR := opRead, addrR := a, txIn := rest
      wire := s.wire ++ sent ((selectAddressBytes s.par (base a)).take sel.length)
      rsp := s.rsp ++ [.fatal 1] }

/-- R174, R176, R194: the trigger fails; the exit is sent all the same (or fails as well, and the first error is the one
reported). -/
def Obligations.ReadTriggerFails : Prop :=
  ∀ (s : State) (a : Addr) (sel exit tail : List TxPins) (q : TxPins),
    s.par.wf → s.fsm = .idle → s.fault = false → s.lookup a = false →
    s.txIn = sel ++ q :: (exit ++ tail) → sel.length = 7 → AllAccepted sel → q.outcome = .failed → AllAccepted exit →
    exit.length = s.par.exitReadSeq.length ∨
      (exit.length < s.par.exitReadSeq.length ∧ ∃ x, tail.head? = some x ∧ x.outcome = .failed) →
    ∃ t, exec (.read a) s = .next t ∧
      t.fault = true ∧ t.cause = 1 ∧ t.fstate = 7 ∧ t.fcnt = 0 ∧ t.v = 0 ∧ t.dm = [] ∧ t.fsm = .idle ∧
      t.fb = s.fb ∧ t.rxIn = s.rxIn ∧ t.rsp = s.rsp ++ [.fatal 1] ∧
      t.wire = s.wire ++ (sent (selectAddressBytes s.par (base a)) ++ [.tx 0x30] ++
        sent (s.par.exitReadSeq.take exit.length))

/-- R175, R176, R190, R194: the burst is cut by a read error or by the end of the stream after fewer than 64 bytes; the
exit is sent all the same (or fails as well); nothing is stored. -/
def Obligations.ReadBurstCut : Prop :=
  ∀ (s : State) (a : Addr) (sel exit tail : List TxPins) (bs : List Byte) (got rxRest : List RxPins) (q : RxPins)
    (c : BitVec 3),
    s.par.wf → s.fsm = .idle → s.fault = false → s.lookup a = false →
    s.txIn = sel ++ exit ++ tail → sel.length = 8 → AllAccepted sel → AllAccepted exit →
    exit.length = s.par.exitReadSeq.length ∨
      (exit.length < s.par.exitReadSeq.length ∧ ∃ x, tail.head? = some x ∧ x.outcome = .failed) →
    s.rxIn = got ++ q :: rxRest → Carries got bs → bs.length < 64 →
    (q.outcome = .failed ∧ c = 2) ∨ (q.outcome = .ended ∧ c = 3) →
    ∃ t, exec (.read a) s = .next t ∧
      t.fault = true ∧ t.cause = c ∧ t.fstate = 8 ∧ t.fcnt.toNat = bs.length ∧ t.v = 0 ∧ t.dm = [] ∧ t.fsm = .idle ∧
      t.rxIn = rxRest ∧ t.rsp = s.rsp ++ [.fatal c] ∧
      t.wire = s.wire ++ (sent (selectAddressBytes s.par (base a)) ++ [.tx 0x30, .tx 0x52] ++ bs.map .rx ++
        sent (s.par.exitReadSeq.take exit.length))

/-- R176: the exit fails after a whole burst; the block is not stored. -/
def Obligations.ReadExitFails : Prop :=
  ∀ (s : State) (a : Addr) (bytes : Vector Byte 64) (sel exit rest : List TxPins) (x : TxPins)
    (got rxRest : List RxPins),
    s.par.wf → s.fsm = .idle → s.fault = false → s.lookup a = false →
    s.txIn = sel ++ exit ++ x :: rest → sel.length = 8 → AllAccepted sel → AllAccepted exit →
    exit.length < s.par.exitReadSeq.length → x.outcome = .failed →
    s.rxIn = got ++ rxRest → Carries got bytes.toList →
    ∃ t, exec (.read a) s = .next t ∧
      t.fault = true ∧ t.cause = 1 ∧ t.fstate = 9 ∧ t.fcnt = 64 ∧ t.v = 0 ∧ t.dm = [] ∧ t.fsm = .idle ∧
      t.txIn = rest ∧ t.rxIn = rxRest ∧ t.rsp = s.rsp ++ [.fatal 1] ∧
      t.wire = s.wire ++ (sent (selectAddressBytes s.par (base a)) ++ [.tx 0x30, .tx 0x52] ++
        bytes.toList.map .rx ++ sent (s.par.exitReadSeq.take exit.length))

/-- R232: after a READ that responded OK, and any steps since of which none is a reset or accepts a write, a READ of any
address of the same block is answered at once and touches nothing but the responses: with the byte the block had then, or,
when one of those steps faulted, with FATAL (R199). -/
def Obligations.HitSuppression : Prop :=
  ∀ (s t u : State) (a b : Addr), Inv s → exec (.read a) s = .next t → t.fsm = .idle → t.fault = false →
    UndisturbedTo t u → u.fsm = .idle → idx b = idx a →
    ∃ x, Memory.read t.dm b.toNat = some x ∧
      exec (.read b) u = .next { u with rsp := u.rsp ++ [if u.fault then .fatal u.cause else .okByte x] } ∧
      (u.fault = false → Memory.read u.dm b.toNat = some x)

/-- The frame of READ (R160, R196): the latch of another operation, the delay counter and the other inputs stay; a byte
of `Dm` outside the block read stays, unless the trap empties the cache. -/
def Obligations.ReadFrame : Prop :=
  ∀ (s t : State) (a : Addr), exec (.read a) s = .next t →
    t.par = s.par ∧ t.wdataR = s.wdataR ∧ t.dly = s.dly ∧ t.rstIn = s.rstIn ∧ t.hostIn = s.hostIn ∧
    t.payIn = s.payIn ∧
    ((t.fault = s.fault ∧ t.cause = s.cause ∧
        (∀ j, j ≠ idx a → t.valid j = s.valid j) ∧
        ∀ b : Nat, ¬ (rowBase (idx a) ≤ b ∧ b < rowBase (idx a) + 64) → Memory.read t.dm b = Memory.read s.dm b) ∨
      (t.fault = true ∧ t.v = 0 ∧ t.dm = []))

/-! ## WROM and WRAM -/

/-- R161, R139, R183: a WROM whose bytes are all accepted. -/
def Obligations.WromCompletes : Prop :=
  ∀ (s : State) (a : Addr) (v : Byte) (sel rest : List TxPins),
    s.fsm = .idle → s.fault = false →
    s.txIn = sel ++ rest → sel.length = 8 + (dec v).length → AllAccepted sel →
    exec (.wrom a v) s = .next { s with
      v := 0, dm := [], opR := 1, addrR := a, wdataR := v
      seq := BitVec.ofNat 3 ((dec v).length + 1)
      dly := 0, txIn := rest
      wire := s.wire ++ ([.tx 0x42] ++ sent (hex4 s.par.hexUpper a) ++ [.tx 0x00, .delay .tWrite, .tx 0x42] ++
        sent (dec v) ++ [.tx 0x00, .delay .tWrite])
      rsp := s.rsp ++ [.ok] }

/-- R162, R139, R183: a WRAM whose bytes are all accepted. -/
def Obligations.WramCompletes : Prop :=
  ∀ (s : State) (a : Addr) (v : Byte) (sel rest : List TxPins),
    s.fsm = .idle → s.fault = false →
    s.txIn = sel ++ rest → sel.length = 8 + (dec v).length → AllAccepted sel →
    exec (.wram a v) s = .next { s with
      v := 0, dm := [], opR := 2, addrR := a, wdataR := v
      seq := BitVec.ofNat 3 ((dec v).length + 1)
      dly := 0, txIn := rest
      wire := s.wire ++ ([.tx 0x42] ++ sent (hex4 s.par.hexUpper a) ++ [.tx 0x00, .delay .tWrite, .tx 0x42] ++
        sent (dec v) ++ [.tx 0x00, .delay .tWrite])
      rsp := s.rsp ++ [.ok] }

/-- R161, R162, R177, R179, R196: a write is cut in its address phase or in its value phase. -/
def Obligations.WriteCut : Prop :=
  ∀ (s : State) (a : Addr) (v : Byte) (i : Instr) (sel rest : List TxPins) (q : TxPins),
    i = .wrom a v ∨ i = .wram a v →
    s.fsm = .idle → s.fault = false →
    s.txIn = sel ++ q :: rest → sel.length < 8 + (dec v).length → AllAccepted sel → q.outcome = .failed →
    ∃ t, exec i s = .next t ∧
      t.fault = true ∧ t.cause = 1 ∧ t.fcnt = 0 ∧ t.v = 0 ∧ t.dm = [] ∧ t.fsm = .idle ∧ t.txIn = rest ∧
      t.rsp = s.rsp ++ [.fatal 1] ∧
      (sel.length < 6 → t.fstate = 10 ∧ t.wire = s.wire ++ sent ((writeAddrBytes s.par a).take sel.length)) ∧
      (6 ≤ sel.length → t.fstate = 12 ∧
        t.wire = s.wire ++ (sent (writeAddrBytes s.par a) ++ [.delay .tWrite] ++
          sent ((writeValueBytes v).take (sel.length - 6))))

/-- R162: a WRAM does exactly what a WROM with the same operands does, but for the latched code. -/
def Obligations.WramLikeWrom : Prop :=
  ∀ (s t : State) (a : Addr) (v : Byte), exec (.wrom a v) s = .next t →
    ∃ u, exec (.wram a v) s = .next u ∧ { u with opR := t.opR } = t

/-- R234, R117: after any write that has responded, every address misses. -/
def Obligations.WriteThenMiss : Prop :=
  ∀ (s t : State) (a b : Addr) (v : Byte), Inv s →
    exec (.wrom a v) s = .next t ∨ exec (.wram a v) s = .next t → t.fsm = .idle →
    t.lookup b = false ∧ t.readByte b = none

/-- The frame of WROM and WRAM (R161, R162): no reply byte is taken, the fill buffer, `cnt` and `ep` stay; every byte of
`Dm` stays until the whole cache is emptied. -/
def Obligations.WriteFrame : Prop :=
  ∀ (s t : State) (a : Addr) (v : Byte), exec (.wrom a v) s = .next t ∨ exec (.wram a v) s = .next t →
    t.par = s.par ∧ t.fb = s.fb ∧ t.cnt = s.cnt ∧ t.ep = s.ep ∧ t.rstIn = s.rstIn ∧ t.hostIn = s.hostIn ∧
    t.payIn = s.payIn ∧ t.rxIn = s.rxIn ∧
    ((t.v = s.v ∧ ∀ b : Nat, Memory.read t.dm b = Memory.read s.dm b) ∨ (t.v = 0 ∧ t.dm = [])) ∧
    ((t.fault = s.fault ∧ t.cause = s.cause ∧ t.fstate = s.fstate ∧ t.fcnt = s.fcnt) ∨
      (t.fault = true ∧ t.cause = causeTxFail ∧ t.v = 0))

/-! ## GSAV, LSAV, reserved operations -/

/-- R163, R236: GSAV, whatever its other fields, answers OK with nothing else, FAULT or not. -/
def Obligations.GsavCompletes : Prop :=
  (∀ w : BitVec 27, reqOp w = 3 → decodeRequest w = .gsav) ∧
  ∀ s : State, s.fsm = .idle → exec .gsav s = .next { s with rsp := s.rsp ++ [.ok] }

/-- R164, R181, R97, R236: LSAV drops every beat up to and including the end beat and answers OK, FAULT or not; a drain
that waited does the same when it is resumed, and waits again when the end beat is still to come. -/
def Obligations.LsavCompletes : Prop :=
  (∀ (s : State) (beats rest : List PayPins) (e : PayPins), s.fsm = .idle →
    s.payIn = beats ++ e :: rest → (∀ p ∈ beats, p.valid = true ∧ p.last = false) → e.valid = true → e.last = true →
    exec .lsav s = .next { s with opR := 4, payIn := rest, rsp := s.rsp ++ [.ok] }) ∧
  ∀ (s : State) (beats tail : List PayPins), NoReset s → s.fsm = .lsavDrain → s.payIn = beats ++ tail →
    (∀ p ∈ beats, p.valid = true ∧ p.last = false) →
    (∀ e rest, tail = e :: rest → e.valid = true → e.last = true →
      step s = .next { pastReset s with payIn := rest, fsm := .idle, rsp := s.rsp ++ [.ok] }) ∧
    (tail = [] ∨ (∃ p rest, tail = p :: rest ∧ p.valid = false) →
      step s = .next { pastReset s with payIn := tail.tail })

/-- R165, R192: a reserved operation is answered ILLEGAL, and nothing else happens. -/
def Obligations.ReservedCompletes : Prop :=
  (∀ w : BitVec 27,
    (reqOp w = 5 → decodeRequest w = .reserved5) ∧ (reqOp w = 6 → decodeRequest w = .reserved6) ∧
    (reqOp w = 7 → decodeRequest w = .reserved7)) ∧
  ∀ s : State, s.fsm = .idle →
    exec .reserved5 s = .next { s with rsp := s.rsp ++ [.illegal] } ∧
    exec .reserved6 s = .next { s with rsp := s.rsp ++ [.illegal] } ∧
    exec .reserved7 s = .next { s with rsp := s.rsp ++ [.illegal] }

/-! ## Wire commands -/

/-- R130, R172, R140: the rest of SELECT_ADDRESS is sent. -/
def Obligations.SelectAddressCompletes : Prop :=
  ∀ (s : State) (a : Addr) (sel rest : List TxPins), s.fsm = .addrSel → s.seq.toNat + sel.length = 6 → sel ≠ [] →
    s.txIn = sel ++ rest → AllAccepted sel →
    exec (.selectAddress a) s = .next { s with
      seq := 0, fsm := .rmEnter, txIn := rest
      wire := s.wire ++ sent (([0x41] ++ hex4 s.par.hexUpper a ++ [0x00]).drop s.seq.toNat) }

/-- R131, R173: ENTER_READ is sent. -/
def Obligations.EnterReadCompletes : Prop :=
  ∀ (s : State) (p : TxPins) (rest : List TxPins), s.fsm = .rmEnter → s.txIn = p :: rest → p.outcome = .accepted →
    exec .enterRead s = .next { s with ep := 0, fsm := .burstTrig, txIn := rest, wire := s.wire ++ [.tx 0x30] }

/-- R132, R174: TRIGGER_BURST is sent; or it fails, and the error is held for the exit. -/
def Obligations.TriggerBurstCompletes : Prop :=
  ∀ (s : State) (p : TxPins) (rest : List TxPins), s.fsm = .burstTrig → s.txIn = p :: rest →
    (p.outcome = .accepted →
      exec .triggerBurst s = .next { s with
        cnt := 0, fsm := .burstRx, txIn := rest, wire := s.wire ++ [.tx 0x52] }) ∧
    (p.outcome = .failed →
      exec .triggerBurst s = .next { s with
        cnt := 0, ep := 1, fstate := 7, fcnt := 0, seq := 0, fsm := .rmExit, txIn := rest })

/-- R134, R176, R113: the rest of EXIT_READ is sent without an error pending; the block is stored and the byte
answered. -/
def Obligations.ExitReadCompletes : Prop :=
  ∀ (s : State) (sel rest : List TxPins), s.par.wf → s.fsm = .rmExit → s.ep = 0 →
    s.seq.toNat + sel.length = s.par.exitReadSeq.length → (s.par.exitReadSeq ≠ [] → sel ≠ []) →
    s.txIn = sel ++ rest → AllAccepted sel →
    exec .exitRead s = .next { s with
      v := s.v ||| BitVec.twoPow 1024 (idx s.addrR).toNat
      dm := Memory.writeBytes s.dm (rowBase (idx s.addrR)) s.fb.toList
      seq := BitVec.ofNat 3 (s.par.exitReadSeq.length - 1)
      fsm := .idle, txIn := rest
      wire := s.wire ++ sent (s.par.exitReadSeq.drop s.seq.toNat)
      rsp := s.rsp ++ [.okByte (s.fb[(off s.addrR).toNat]'(off s.addrR).isLt)] }

/-- R176, R194: the exit ends with an error pending, or fails: the trap is taken with the first error, and nothing is
stored. -/
def Obligations.ExitReadTraps : Prop :=
  ∀ (s : State) (sel tail : List TxPins), s.par.wf → s.fsm = .rmExit →
    s.txIn = sel ++ tail → AllAccepted sel →
    (s.ep ≠ 0 ∧ ((s.par.exitReadSeq = [] ∧ sel = []) ∨
        (sel ≠ [] ∧ s.seq.toNat + sel.length = s.par.exitReadSeq.length))) ∨
      (s.seq.toNat + sel.length < s.par.exitReadSeq.length ∧ ∃ x, tail.head? = some x ∧ x.outcome = .failed) →
    ∃ t, exec .exitRead s = .next t ∧
      t.fault = true ∧ t.v = 0 ∧ t.dm = [] ∧ t.fsm = .idle ∧
      t.wire = s.wire ++ sent ((s.par.exitReadSeq.drop s.seq.toNat).take sel.length) ∧
      (s.ep ≠ 0 → t.cause = s.ep ∧ t.fstate = s.fstate ∧ t.fcnt = s.fcnt ∧ t.rsp = s.rsp ++ [.fatal s.ep]) ∧
      (s.ep = 0 → t.cause = 1 ∧ t.fstate = 9 ∧ t.fcnt = s.cnt ∧ t.rsp = s.rsp ++ [.fatal 1])

/-- R137, R177, R140, R203: the rest of WRITE_ADDR is sent and the delay begins. -/
def Obligations.WriteAddrCompletes : Prop :=
  ∀ (s : State) (a : Addr) (sel rest : List TxPins), s.fsm = .wAddr → s.seq.toNat + sel.length = 6 → sel ≠ [] →
    s.txIn = sel ++ rest → AllAccepted sel →
    exec (.writeAddr a) s = .next { s with
      seq := 5, dly := s.par.tWrite, fsm := .wDly1, txIn := rest
      wire := s.wire ++ sent (([0x42] ++ hex4 s.par.hexUpper a ++ [0x00]).drop s.seq.toNat) }

/-- R138, R179, R140, R203: the rest of WRITE_VALUE is sent and the delay begins. -/
def Obligations.WriteValueCompletes : Prop :=
  ∀ (s : State) (v : Byte) (sel rest : List TxPins), s.fsm = .wValue →
    s.seq.toNat + sel.length = (dec v).length + 2 → sel ≠ [] →
    s.txIn = sel ++ rest → AllAccepted sel →
    exec (.writeValue v) s = .next { s with
      seq := BitVec.ofNat 3 ((dec v).length + 1), dly := s.par.tWrite, fsm := .wDly2, txIn := rest
      wire := s.wire ++ sent (([0x42] ++ dec v ++ [0x00]).drop s.seq.toNat) }

/-- R142, R144, R182: the start-up commands are sent and their delays begin. -/
def Obligations.InitCompletes : Prop :=
  (∀ (s : State) (p : TxPins) (rest : List TxPins), s.fsm = .initG → s.txIn = p :: rest → p.outcome = .accepted →
    exec .initG s = .next { s with
      dly := s.par.tInit, fsm := .initDly1, txIn := rest, wire := s.wire ++ [.tx 0x47] }) ∧
  ∀ (s : State) (sel rest : List TxPins), s.fsm = .init5 → s.seq.toNat + sel.length = 2 → sel ≠ [] →
    s.txIn = sel ++ rest → AllAccepted sel →
    exec .init5 s = .next { s with
      seq := 1, dly := s.par.tInit, fsm := .initDly2, txIn := rest
      wire := s.wire ++ sent (([0x35, 0x00] : List Byte).drop s.seq.toNat) }

/-- R140, R170, R196, R198: a command outside the bracketed burst is cut: the bytes before the failing one stay sent,
the rest is not sent, the trap is taken (without a response in the start-up sequence). -/
def Obligations.CommandCut : Prop :=
  ∀ (s : State) (i : Instr) (cmd : List Byte) (sel rest : List TxPins) (q : TxPins),
    s.command = some i → i ≠ .triggerBurst → i ≠ .exitRead → encode s.par i = .wire cmd →
    (i = .initG ∨ i = .enterRead → s.seq = 0) →
    s.txIn = sel ++ q :: rest → s.seq.toNat + sel.length < cmd.length → AllAccepted sel → q.outcome = .failed →
    ∃ t, exec i s = .next t ∧
      t.fault = true ∧ t.cause = 1 ∧ t.fstate = s.fsm.code ∧ t.fcnt = 0 ∧ t.v = 0 ∧ t.dm = [] ∧ t.fsm = .idle ∧
      t.txIn = rest ∧ t.wire = s.wire ++ sent ((cmd.drop s.seq.toNat).take sel.length) ∧
      t.rsp = if i = .initG ∨ i = .init5 then s.rsp else s.rsp ++ [.fatal 1]

/-- R140, R58, R193: a command whose byte is not taken waits at that byte: the bytes before it stay sent, `seq` is the
byte's position, and nothing else changes. -/
def Obligations.CommandWaits : Prop :=
  ∀ (s : State) (i : Instr) (cmd : List Byte) (sel tail : List TxPins), s.par.wf →
    s.command = some i → encode s.par i = .wire cmd →
    (i = .initG ∨ i = .enterRead ∨ i = .triggerBurst → s.seq = 0) →
    s.txIn = sel ++ tail → s.seq.toNat + sel.length < cmd.length → AllAccepted sel →
    tail = [] ∨ (∃ p rest, tail = p :: rest ∧ p.outcome = .blocked) →
    exec i s = .next { s with
      seq := BitVec.ofNat 3 (s.seq.toNat + sel.length), txIn := tail.tail
      wire := s.wire ++ sent ((cmd.drop s.seq.toNat).take sel.length) }

/-- The frame of the wire commands (R130-R144): parameters, latches, the fill buffer and the other inputs stay; the cache
and the fault stay, unless the trap is taken, or EXIT_READ stores the block of `addr_r`. -/
def Obligations.CommandFrame : Prop :=
  ∀ (s t : State) (i : Instr), s.command = some i → exec i s = .next t →
    t.par = s.par ∧ t.opR = s.opR ∧ t.addrR = s.addrR ∧ t.wdataR = s.wdataR ∧ t.fb = s.fb ∧ t.rstIn = s.rstIn ∧
    t.hostIn = s.hostIn ∧ t.payIn = s.payIn ∧ t.rxIn = s.rxIn ∧
    ((t.v = s.v ∧ (∀ b : Nat, Memory.read t.dm b = Memory.read s.dm b) ∧ t.fault = s.fault ∧ t.cause = s.cause ∧
        t.rsp = s.rsp) ∨
      (t.fault = true ∧ t.v = 0 ∧ t.dm = []) ∨
      (i = .exitRead ∧ t.fault = s.fault ∧ t.cause = s.cause ∧
        (∀ j, j ≠ idx s.addrR → t.valid j = s.valid j) ∧
        ∀ b : Nat, ¬ (rowBase (idx s.addrR) ≤ b ∧ b < rowBase (idx s.addrR) + 64) →
          Memory.read t.dm b = Memory.read s.dm b))

/-! ## The states that send nothing, and the start-up sequence -/

/-- R133, R175, R193: what a visit of `S_BURST_RX` does with the bytes that come. Byte `k` of the burst is `FB[k]`. The
64th goes to the exit; a read error or the end of the stream before it is held in `ep`, noted, and goes to the exit at
once; when nothing more is signalled the block waits with what it has. -/
def Obligations.BurstReceived : Prop :=
  ∀ (s : State) (bs : List Byte) (got tail : List RxPins), NoReset s → s.fsm = .burstRx →
    s.rxIn = got ++ tail → Carries got bs →
    ∃ fb : Vector Byte 64,
      (∀ k (h : k < 64),
        fb[k] = if s.cnt.toNat ≤ k ∧ k < s.cnt.toNat + bs.length then bs[k - s.cnt.toNat]! else s.fb[k]) ∧
      (s.cnt.toNat + bs.length = 64 → bs ≠ [] →
        step s = .next { pastReset s with
          fb := fb, cnt := 64, seq := 0, fsm := .rmExit, rxIn := tail, wire := s.wire ++ bs.map .rx }) ∧
      (∀ q rest c, tail = q :: rest → s.cnt.toNat + bs.length < 64 →
        (q.outcome = .failed ∧ c = 2) ∨ (q.outcome = .ended ∧ c = 3) →
        step s = .next { pastReset s with
          fb := fb, cnt := BitVec.ofNat 7 (s.cnt.toNat + bs.length), ep := c, fstate := 8
          fcnt := BitVec.ofNat 7 (s.cnt.toNat + bs.length), seq := 0, fsm := .rmExit, rxIn := rest
          wire := s.wire ++ bs.map .rx }) ∧
      (tail = [] ∨ (∃ p rest, tail = p :: rest ∧ p.outcome = .blocked) → s.cnt.toNat + bs.length < 64 →
        step s = .next { pastReset s with
          fb := fb, cnt := BitVec.ofNat 7 (s.cnt.toNat + bs.length), rxIn := tail.tail
          wire := s.wire ++ bs.map .rx })

/-- R136, R178, R180, R182, R203: a delay state is left when its delay has elapsed, with one marker on the wire;
`S_INVAL` empties the cache and answers. -/
def Obligations.DelaysAndInvalidation : Prop :=
  ∀ s : State, NoReset s →
    (s.fsm = .wDly1 → step s = .next { pastReset s with
      dly := 0, seq := 0, fsm := .wValue, wire := s.wire ++ [.delay .tWrite] }) ∧
    (s.fsm = .wDly2 → step s = .next { pastReset s with
      dly := 0, fsm := .inval, wire := s.wire ++ [.delay .tWrite] }) ∧
    (s.fsm = .initDly1 → step s = .next { pastReset s with
      dly := 0, seq := 0, fsm := .init5, wire := s.wire ++ [.delay .tInit] }) ∧
    (s.fsm = .initDly2 → step s = .next { pastReset s with
      dly := 0, fsm := .idle, wire := s.wire ++ [.delay .tInit] }) ∧
    (s.fsm = .inval → step s = .next { pastReset s with
      v := 0, dm := [], fsm := .idle, rsp := s.rsp ++ [.ok] })

/-- R143, R182, R223: the start-up sequence, four visits. -/
def Obligations.StartUpSequence : Prop :=
  ∀ (s : State) (sel rest : List TxPins), s.rstIn = [] → s.fsm = .initG → s.txIn = sel ++ rest → sel.length = 3 →
    AllAccepted sel →
    ∃ t1 t2 t3, step s = .next t1 ∧ step t1 = .next t2 ∧ step t2 = .next t3 ∧ step t3 = .next { s with
      seq := 1, dly := 0, fsm := .idle, txIn := rest
      wire := s.wire ++ [.tx 0x47, .delay .tInit, .tx 0x35, .tx 0x00, .delay .tInit] }
end

