-- ==== Sys2Proof/Laws/Memory.lean ====
section
/-! SUPPORT. What the byte memory's operations do: read after write, and the canonical form. -/

namespace Sys2Proof.Machine

open Sys2Proof

@[simp] theorem Memory.read_nil (a : Nat) : Memory.read [] a = none := rfl

theorem Memory.read_cons (c : Host.Cell) (m : Memory) (a : Nat) :
    Memory.read (c :: m) a = if c.1 = a then some c.2 else Memory.read m a := rfl

theorem Memory.read_write (m : Memory) (a b : Nat) (x : Byte) :
    Memory.read (Memory.write m a x) b = if a = b then some x else Memory.read m b := by
  induction m with
  | nil => simp [Memory.write, Memory.read_cons]
  | cons c m ih =>
    simp only [Memory.write]
    by_cases h1 : a < c.1
    · simp only [if_pos h1, Memory.read_cons]
    · by_cases h2 : a = c.1
      · subst h2
        simp only [lt_irrefl, if_false, if_true, Memory.read_cons]
        split_ifs <;> rfl
      · simp only [if_neg h1, if_neg h2, Memory.read_cons, ih]
        split_ifs <;> first | rfl | omega

theorem Memory.read_writeBytes (m : Memory) (a b : Nat) (xs : List Byte) :
    Memory.read (Memory.writeBytes m a xs) b =
      if a ≤ b ∧ b < a + xs.length then xs[b - a]? else Memory.read m b := by
  induction xs generalizing m a with
  | nil =>
    have : ¬ (a ≤ b ∧ b < a + ([] : List Byte).length) := by simp only [List.length_nil]; omega
    rw [if_neg this]; rfl
  | cons x xs ih =>
    simp only [Memory.writeBytes, ih, Memory.read_write, List.length_cons]
    by_cases h : a = b
    · subst h
      have h1 : ¬ (a + 1 ≤ a ∧ a < a + 1 + xs.length) := by omega
      have h2 : a ≤ a ∧ a < a + (xs.length + 1) := by omega
      simp
    · by_cases h1 : a + 1 ≤ b ∧ b < a + 1 + xs.length
      · have h2 : a ≤ b ∧ b < a + (xs.length + 1) := by omega
        obtain ⟨k, rfl⟩ : ∃ k, b = a + 1 + k := ⟨b - a - 1, by omega⟩
        rw [if_pos h1, if_pos h2]
        have e1 : a + 1 + k - (a + 1) = k := by omega
        have e2 : a + 1 + k - a = k + 1 := by omega
        rw [e1, e2, List.getElem?_cons_succ]
      · have h2 : ¬ (a ≤ b ∧ b < a + (xs.length + 1)) := by omega
        rw [if_neg h1, if_neg h2, if_neg h]

/-- An address listed after a write is the written one or was listed before. -/
theorem Memory.mem_write {m : Memory} {a : Nat} {x : Byte} {d : Host.Cell} (h : d ∈ Memory.write m a x) :
    d.1 = a ∨ d ∈ m := by
  induction m with
  | nil => simp only [Memory.write, List.mem_singleton] at h; simp [h]
  | cons c m ih =>
    unfold Memory.write at h
    split_ifs at h with h1 h2 <;> simp only [List.mem_cons] at h ⊢
    · rcases h with rfl | h
      · exact .inl rfl
      · exact .inr h
    · rcases h with rfl | h
      · exact .inl rfl
      · exact .inr (.inr h)
    · rcases h with rfl | h
      · exact .inr (.inl rfl)
      · exact (ih h).imp id .inr

theorem Memory.wf_write {m : Memory} (a : Nat) (x : Byte) (h : Memory.wf m) : Memory.wf (Memory.write m a x) := by
  induction m with
  | nil => simp [Memory.write, Memory.wf]
  | cons c m ih =>
    rw [Memory.wf, List.pairwise_cons] at h
    unfold Memory.write
    split_ifs with h1 h2 <;> rw [Memory.wf, List.pairwise_cons]
    · refine ⟨?_, List.pairwise_cons.2 h⟩
      intro d hd
      rcases List.mem_cons.1 hd with rfl | hd
      · exact h1
      · exact lt_trans h1 (h.1 d hd)
    · subst h2; exact h
    · refine ⟨?_, ih h.2⟩
      intro d hd
      rcases Memory.mem_write hd with e | hd
      · omega
      · exact h.1 d hd

theorem Memory.wf_writeBytes {m : Memory} (a : Nat) (xs : List Byte) (h : Memory.wf m) :
    Memory.wf (Memory.writeBytes m a xs) := by
  induction xs generalizing m a with
  | nil => exact h
  | cons x xs ih => exact ih (a + 1) (Memory.wf_write a x h)

@[simp] theorem Memory.wf_nil : Memory.wf [] := List.Pairwise.nil

end Sys2Proof.Machine
end

