-- ==== Sys2Proof/Laws/State.lean ====
section
/-! SUPPORT. One lemma for each field and each update of the state, true by definition; the trap as one record update. -/

namespace Sys2Proof.Machine

open Sys2Proof

/-! ## respond -/

@[simp] theorem State.respond_par (r : Response) (s : State) : (s.respond r).par = s.par := rfl
@[simp] theorem State.respond_v (r : Response) (s : State) : (s.respond r).v = s.v := rfl
@[simp] theorem State.respond_dm (r : Response) (s : State) : (s.respond r).dm = s.dm := rfl
@[simp] theorem State.respond_fb (r : Response) (s : State) : (s.respond r).fb = s.fb := rfl
@[simp] theorem State.respond_fault (r : Response) (s : State) : (s.respond r).fault = s.fault := rfl
@[simp] theorem State.respond_cause (r : Response) (s : State) : (s.respond r).cause = s.cause := rfl
@[simp] theorem State.respond_fstate (r : Response) (s : State) : (s.respond r).fstate = s.fstate := rfl
@[simp] theorem State.respond_fcnt (r : Response) (s : State) : (s.respond r).fcnt = s.fcnt := rfl
@[simp] theorem State.respond_fsm (r : Response) (s : State) : (s.respond r).fsm = s.fsm := rfl
@[simp] theorem State.respond_seq (r : Response) (s : State) : (s.respond r).seq = s.seq := rfl
@[simp] theorem State.respond_opR (r : Response) (s : State) : (s.respond r).opR = s.opR := rfl
@[simp] theorem State.respond_addrR (r : Response) (s : State) : (s.respond r).addrR = s.addrR := rfl
@[simp] theorem State.respond_wdataR (r : Response) (s : State) : (s.respond r).wdataR = s.wdataR := rfl
@[simp] theorem State.respond_cnt (r : Response) (s : State) : (s.respond r).cnt = s.cnt := rfl
@[simp] theorem State.respond_ep (r : Response) (s : State) : (s.respond r).ep = s.ep := rfl
@[simp] theorem State.respond_dly (r : Response) (s : State) : (s.respond r).dly = s.dly := rfl
@[simp] theorem State.respond_rstIn (r : Response) (s : State) : (s.respond r).rstIn = s.rstIn := rfl
@[simp] theorem State.respond_hostIn (r : Response) (s : State) : (s.respond r).hostIn = s.hostIn := rfl
@[simp] theorem State.respond_payIn (r : Response) (s : State) : (s.respond r).payIn = s.payIn := rfl
@[simp] theorem State.respond_txIn (r : Response) (s : State) : (s.respond r).txIn = s.txIn := rfl
@[simp] theorem State.respond_rxIn (r : Response) (s : State) : (s.respond r).rxIn = s.rxIn := rfl
@[simp] theorem State.respond_wire (r : Response) (s : State) : (s.respond r).wire = s.wire := rfl
@[simp] theorem State.respond_rsp (r : Response) (s : State) : (s.respond r).rsp = s.rsp ++ [r] := rfl

/-! ## note -/

@[simp] theorem State.note_par (s : State) : (s.note).par = s.par := rfl
@[simp] theorem State.note_v (s : State) : (s.note).v = s.v := rfl
@[simp] theorem State.note_dm (s : State) : (s.note).dm = s.dm := rfl
@[simp] theorem State.note_fb (s : State) : (s.note).fb = s.fb := rfl
@[simp] theorem State.note_fault (s : State) : (s.note).fault = s.fault := rfl
@[simp] theorem State.note_cause (s : State) : (s.note).cause = s.cause := rfl
@[simp] theorem State.note_fstate (s : State) : (s.note).fstate = s.fsm.code := rfl
@[simp] theorem State.note_fcnt (s : State) : (s.note).fcnt = if s.fsm.countsBurst then s.cnt else 0 := rfl
@[simp] theorem State.note_fsm (s : State) : (s.note).fsm = s.fsm := rfl
@[simp] theorem State.note_seq (s : State) : (s.note).seq = s.seq := rfl
@[simp] theorem State.note_opR (s : State) : (s.note).opR = s.opR := rfl
@[simp] theorem State.note_addrR (s : State) : (s.note).addrR = s.addrR := rfl
@[simp] theorem State.note_wdataR (s : State) : (s.note).wdataR = s.wdataR := rfl
@[simp] theorem State.note_cnt (s : State) : (s.note).cnt = s.cnt := rfl
@[simp] theorem State.note_ep (s : State) : (s.note).ep = s.ep := rfl
@[simp] theorem State.note_dly (s : State) : (s.note).dly = s.dly := rfl
@[simp] theorem State.note_rstIn (s : State) : (s.note).rstIn = s.rstIn := rfl
@[simp] theorem State.note_hostIn (s : State) : (s.note).hostIn = s.hostIn := rfl
@[simp] theorem State.note_payIn (s : State) : (s.note).payIn = s.payIn := rfl
@[simp] theorem State.note_txIn (s : State) : (s.note).txIn = s.txIn := rfl
@[simp] theorem State.note_rxIn (s : State) : (s.note).rxIn = s.rxIn := rfl
@[simp] theorem State.note_wire (s : State) : (s.note).wire = s.wire := rfl
@[simp] theorem State.note_rsp (s : State) : (s.note).rsp = s.rsp := rfl

/-! ## setFault -/

@[simp] theorem State.setFault_par (c : BitVec 3) (s : State) : (s.setFault c).par = s.par := rfl
@[simp] theorem State.setFault_v (c : BitVec 3) (s : State) : (s.setFault c).v = s.v := rfl
@[simp] theorem State.setFault_dm (c : BitVec 3) (s : State) : (s.setFault c).dm = s.dm := rfl
@[simp] theorem State.setFault_fb (c : BitVec 3) (s : State) : (s.setFault c).fb = s.fb := rfl
@[simp] theorem State.setFault_fault (c : BitVec 3) (s : State) : (s.setFault c).fault = true := rfl
@[simp] theorem State.setFault_cause (c : BitVec 3) (s : State) : (s.setFault c).cause = c := rfl
@[simp] theorem State.setFault_fstate (c : BitVec 3) (s : State) : (s.setFault c).fstate = s.fstate := rfl
@[simp] theorem State.setFault_fcnt (c : BitVec 3) (s : State) : (s.setFault c).fcnt = s.fcnt := rfl
@[simp] theorem State.setFault_fsm (c : BitVec 3) (s : State) : (s.setFault c).fsm = s.fsm := rfl
@[simp] theorem State.setFault_seq (c : BitVec 3) (s : State) : (s.setFault c).seq = s.seq := rfl
@[simp] theorem State.setFault_opR (c : BitVec 3) (s : State) : (s.setFault c).opR = s.opR := rfl
@[simp] theorem State.setFault_addrR (c : BitVec 3) (s : State) : (s.setFault c).addrR = s.addrR := rfl
@[simp] theorem State.setFault_wdataR (c : BitVec 3) (s : State) : (s.setFault c).wdataR = s.wdataR := rfl
@[simp] theorem State.setFault_cnt (c : BitVec 3) (s : State) : (s.setFault c).cnt = s.cnt := rfl
@[simp] theorem State.setFault_ep (c : BitVec 3) (s : State) : (s.setFault c).ep = s.ep := rfl
@[simp] theorem State.setFault_dly (c : BitVec 3) (s : State) : (s.setFault c).dly = s.dly := rfl
@[simp] theorem State.setFault_rstIn (c : BitVec 3) (s : State) : (s.setFault c).rstIn = s.rstIn := rfl
@[simp] theorem State.setFault_hostIn (c : BitVec 3) (s : State) : (s.setFault c).hostIn = s.hostIn := rfl
@[simp] theorem State.setFault_payIn (c : BitVec 3) (s : State) : (s.setFault c).payIn = s.payIn := rfl
@[simp] theorem State.setFault_txIn (c : BitVec 3) (s : State) : (s.setFault c).txIn = s.txIn := rfl
@[simp] theorem State.setFault_rxIn (c : BitVec 3) (s : State) : (s.setFault c).rxIn = s.rxIn := rfl
@[simp] theorem State.setFault_wire (c : BitVec 3) (s : State) : (s.setFault c).wire = s.wire := rfl
@[simp] theorem State.setFault_rsp (c : BitVec 3) (s : State) : (s.setFault c).rsp = s.rsp := rfl

/-! ## invalidateAll -/

@[simp] theorem State.invalidateAll_par (s : State) : (s.invalidateAll).par = s.par := rfl
@[simp] theorem State.invalidateAll_v (s : State) : (s.invalidateAll).v = 0 := rfl
@[simp] theorem State.invalidateAll_dm (s : State) : (s.invalidateAll).dm = [] := rfl
@[simp] theorem State.invalidateAll_fb (s : State) : (s.invalidateAll).fb = s.fb := rfl
@[simp] theorem State.invalidateAll_fault (s : State) : (s.invalidateAll).fault = s.fault := rfl
@[simp] theorem State.invalidateAll_cause (s : State) : (s.invalidateAll).cause = s.cause := rfl
@[simp] theorem State.invalidateAll_fstate (s : State) : (s.invalidateAll).fstate = s.fstate := rfl
@[simp] theorem State.invalidateAll_fcnt (s : State) : (s.invalidateAll).fcnt = s.fcnt := rfl
@[simp] theorem State.invalidateAll_fsm (s : State) : (s.invalidateAll).fsm = s.fsm := rfl
@[simp] theorem State.invalidateAll_seq (s : State) : (s.invalidateAll).seq = s.seq := rfl
@[simp] theorem State.invalidateAll_opR (s : State) : (s.invalidateAll).opR = s.opR := rfl
@[simp] theorem State.invalidateAll_addrR (s : State) : (s.invalidateAll).addrR = s.addrR := rfl
@[simp] theorem State.invalidateAll_wdataR (s : State) : (s.invalidateAll).wdataR = s.wdataR := rfl
@[simp] theorem State.invalidateAll_cnt (s : State) : (s.invalidateAll).cnt = s.cnt := rfl
@[simp] theorem State.invalidateAll_ep (s : State) : (s.invalidateAll).ep = s.ep := rfl
@[simp] theorem State.invalidateAll_dly (s : State) : (s.invalidateAll).dly = s.dly := rfl
@[simp] theorem State.invalidateAll_rstIn (s : State) : (s.invalidateAll).rstIn = s.rstIn := rfl
@[simp] theorem State.invalidateAll_hostIn (s : State) : (s.invalidateAll).hostIn = s.hostIn := rfl
@[simp] theorem State.invalidateAll_payIn (s : State) : (s.invalidateAll).payIn = s.payIn := rfl
@[simp] theorem State.invalidateAll_txIn (s : State) : (s.invalidateAll).txIn = s.txIn := rfl
@[simp] theorem State.invalidateAll_rxIn (s : State) : (s.invalidateAll).rxIn = s.rxIn := rfl
@[simp] theorem State.invalidateAll_wire (s : State) : (s.invalidateAll).wire = s.wire := rfl
@[simp] theorem State.invalidateAll_rsp (s : State) : (s.invalidateAll).rsp = s.rsp := rfl

/-! ## fbWrite -/

@[simp] theorem State.fbWrite_par (k : Nat) (b : Byte) (s : State) : (s.fbWrite k b).par = s.par := rfl
@[simp] theorem State.fbWrite_v (k : Nat) (b : Byte) (s : State) : (s.fbWrite k b).v = s.v := rfl
@[simp] theorem State.fbWrite_dm (k : Nat) (b : Byte) (s : State) : (s.fbWrite k b).dm = s.dm := rfl
@[simp] theorem State.fbWrite_fb (k : Nat) (b : Byte) (s : State) : (s.fbWrite k b).fb = s.fb.setIfInBounds k b := rfl
@[simp] theorem State.fbWrite_fault (k : Nat) (b : Byte) (s : State) : (s.fbWrite k b).fault = s.fault := rfl
@[simp] theorem State.fbWrite_cause (k : Nat) (b : Byte) (s : State) : (s.fbWrite k b).cause = s.cause := rfl
@[simp] theorem State.fbWrite_fstate (k : Nat) (b : Byte) (s : State) : (s.fbWrite k b).fstate = s.fstate := rfl
@[simp] theorem State.fbWrite_fcnt (k : Nat) (b : Byte) (s : State) : (s.fbWrite k b).fcnt = s.fcnt := rfl
@[simp] theorem State.fbWrite_fsm (k : Nat) (b : Byte) (s : State) : (s.fbWrite k b).fsm = s.fsm := rfl
@[simp] theorem State.fbWrite_seq (k : Nat) (b : Byte) (s : State) : (s.fbWrite k b).seq = s.seq := rfl
@[simp] theorem State.fbWrite_opR (k : Nat) (b : Byte) (s : State) : (s.fbWrite k b).opR = s.opR := rfl
@[simp] theorem State.fbWrite_addrR (k : Nat) (b : Byte) (s : State) : (s.fbWrite k b).addrR = s.addrR := rfl
@[simp] theorem State.fbWrite_wdataR (k : Nat) (b : Byte) (s : State) : (s.fbWrite k b).wdataR = s.wdataR := rfl
@[simp] theorem State.fbWrite_cnt (k : Nat) (b : Byte) (s : State) : (s.fbWrite k b).cnt = s.cnt := rfl
@[simp] theorem State.fbWrite_ep (k : Nat) (b : Byte) (s : State) : (s.fbWrite k b).ep = s.ep := rfl
@[simp] theorem State.fbWrite_dly (k : Nat) (b : Byte) (s : State) : (s.fbWrite k b).dly = s.dly := rfl
@[simp] theorem State.fbWrite_rstIn (k : Nat) (b : Byte) (s : State) : (s.fbWrite k b).rstIn = s.rstIn := rfl
@[simp] theorem State.fbWrite_hostIn (k : Nat) (b : Byte) (s : State) : (s.fbWrite k b).hostIn = s.hostIn := rfl
@[simp] theorem State.fbWrite_payIn (k : Nat) (b : Byte) (s : State) : (s.fbWrite k b).payIn = s.payIn := rfl
@[simp] theorem State.fbWrite_txIn (k : Nat) (b : Byte) (s : State) : (s.fbWrite k b).txIn = s.txIn := rfl
@[simp] theorem State.fbWrite_rxIn (k : Nat) (b : Byte) (s : State) : (s.fbWrite k b).rxIn = s.rxIn := rfl
@[simp] theorem State.fbWrite_wire (k : Nat) (b : Byte) (s : State) : (s.fbWrite k b).wire = s.wire := rfl
@[simp] theorem State.fbWrite_rsp (k : Nat) (b : Byte) (s : State) : (s.fbWrite k b).rsp = s.rsp := rfl

/-! ## fill -/

@[simp] theorem State.fill_par (i : BitVec 10) (s : State) : (s.fill i).par = s.par := rfl
@[simp] theorem State.fill_v (i : BitVec 10) (s : State) : (s.fill i).v = s.v ||| BitVec.twoPow 1024 i.toNat := rfl
@[simp] theorem State.fill_dm (i : BitVec 10) (s : State) : (s.fill i).dm = Memory.writeBytes s.dm (rowBase i) s.fb.toList := rfl
@[simp] theorem State.fill_fb (i : BitVec 10) (s : State) : (s.fill i).fb = s.fb := rfl
@[simp] theorem State.fill_fault (i : BitVec 10) (s : State) : (s.fill i).fault = s.fault := rfl
@[simp] theorem State.fill_cause (i : BitVec 10) (s : State) : (s.fill i).cause = s.cause := rfl
@[simp] theorem State.fill_fstate (i : BitVec 10) (s : State) : (s.fill i).fstate = s.fstate := rfl
@[simp] theorem State.fill_fcnt (i : BitVec 10) (s : State) : (s.fill i).fcnt = s.fcnt := rfl
@[simp] theorem State.fill_fsm (i : BitVec 10) (s : State) : (s.fill i).fsm = s.fsm := rfl
@[simp] theorem State.fill_seq (i : BitVec 10) (s : State) : (s.fill i).seq = s.seq := rfl
@[simp] theorem State.fill_opR (i : BitVec 10) (s : State) : (s.fill i).opR = s.opR := rfl
@[simp] theorem State.fill_addrR (i : BitVec 10) (s : State) : (s.fill i).addrR = s.addrR := rfl
@[simp] theorem State.fill_wdataR (i : BitVec 10) (s : State) : (s.fill i).wdataR = s.wdataR := rfl
@[simp] theorem State.fill_cnt (i : BitVec 10) (s : State) : (s.fill i).cnt = s.cnt := rfl
@[simp] theorem State.fill_ep (i : BitVec 10) (s : State) : (s.fill i).ep = s.ep := rfl
@[simp] theorem State.fill_dly (i : BitVec 10) (s : State) : (s.fill i).dly = s.dly := rfl
@[simp] theorem State.fill_rstIn (i : BitVec 10) (s : State) : (s.fill i).rstIn = s.rstIn := rfl
@[simp] theorem State.fill_hostIn (i : BitVec 10) (s : State) : (s.fill i).hostIn = s.hostIn := rfl
@[simp] theorem State.fill_payIn (i : BitVec 10) (s : State) : (s.fill i).payIn = s.payIn := rfl
@[simp] theorem State.fill_txIn (i : BitVec 10) (s : State) : (s.fill i).txIn = s.txIn := rfl
@[simp] theorem State.fill_rxIn (i : BitVec 10) (s : State) : (s.fill i).rxIn = s.rxIn := rfl
@[simp] theorem State.fill_wire (i : BitVec 10) (s : State) : (s.fill i).wire = s.wire := rfl
@[simp] theorem State.fill_rsp (i : BitVec 10) (s : State) : (s.fill i).rsp = s.rsp := rfl

/-! ## resetBlock -/

@[simp] theorem State.resetBlock_par (s : State) : (s.resetBlock).par = s.par := rfl
@[simp] theorem State.resetBlock_v (s : State) : (s.resetBlock).v = 0 := rfl
@[simp] theorem State.resetBlock_dm (s : State) : (s.resetBlock).dm = [] := rfl
@[simp] theorem State.resetBlock_fb (s : State) : (s.resetBlock).fb = Vector.replicate 64 0 := rfl
@[simp] theorem State.resetBlock_fault (s : State) : (s.resetBlock).fault = false := rfl
@[simp] theorem State.resetBlock_cause (s : State) : (s.resetBlock).cause = 0 := rfl
@[simp] theorem State.resetBlock_fstate (s : State) : (s.resetBlock).fstate = 0 := rfl
@[simp] theorem State.resetBlock_fcnt (s : State) : (s.resetBlock).fcnt = 0 := rfl
@[simp] theorem State.resetBlock_fsm (s : State) : (s.resetBlock).fsm = if s.par.initOnReset then .initG else .idle := rfl
@[simp] theorem State.resetBlock_seq (s : State) : (s.resetBlock).seq = 0 := rfl
@[simp] theorem State.resetBlock_opR (s : State) : (s.resetBlock).opR = 0 := rfl
@[simp] theorem State.resetBlock_addrR (s : State) : (s.resetBlock).addrR = 0 := rfl
@[simp] theorem State.resetBlock_wdataR (s : State) : (s.resetBlock).wdataR = 0 := rfl
@[simp] theorem State.resetBlock_cnt (s : State) : (s.resetBlock).cnt = 0 := rfl
@[simp] theorem State.resetBlock_ep (s : State) : (s.resetBlock).ep = 0 := rfl
@[simp] theorem State.resetBlock_dly (s : State) : (s.resetBlock).dly = 0 := rfl
@[simp] theorem State.resetBlock_rstIn (s : State) : (s.resetBlock).rstIn = s.rstIn := rfl
@[simp] theorem State.resetBlock_hostIn (s : State) : (s.resetBlock).hostIn = s.hostIn := rfl
@[simp] theorem State.resetBlock_payIn (s : State) : (s.resetBlock).payIn = s.payIn := rfl
@[simp] theorem State.resetBlock_txIn (s : State) : (s.resetBlock).txIn = s.txIn := rfl
@[simp] theorem State.resetBlock_rxIn (s : State) : (s.resetBlock).rxIn = s.rxIn := rfl
@[simp] theorem State.resetBlock_wire (s : State) : (s.resetBlock).wire = s.wire := rfl
@[simp] theorem State.resetBlock_rsp (s : State) : (s.resetBlock).rsp = s.rsp := rfl

/-! ## trap -/

/-- The trap as one record update (R196). -/
theorem State.trap_eq (c : BitVec 3) (s : State) :
    s.trap c = { s with
      fstate := if s.errorNoted then s.fstate else s.fsm.code
      fcnt := if s.errorNoted then s.fcnt else if s.fsm.countsBurst then s.cnt else 0
      cause := c, fault := true, v := 0, dm := []
      rsp := if s.fsm.inOperation then s.rsp ++ [.fatal c] else s.rsp
      fsm := .idle } := by
  unfold State.trap State.respond State.invalidateAll State.setFault State.note
  cases s.errorNoted <;> cases s.fsm.inOperation <;> rfl

@[simp] theorem State.trap_par (c : BitVec 3) (s : State) : (s.trap c).par = s.par := by
  rw [State.trap_eq]
@[simp] theorem State.trap_v (c : BitVec 3) (s : State) : (s.trap c).v = 0 := by
  rw [State.trap_eq]
@[simp] theorem State.trap_dm (c : BitVec 3) (s : State) : (s.trap c).dm = [] := by
  rw [State.trap_eq]
@[simp] theorem State.trap_fb (c : BitVec 3) (s : State) : (s.trap c).fb = s.fb := by
  rw [State.trap_eq]
@[simp] theorem State.trap_fault (c : BitVec 3) (s : State) : (s.trap c).fault = true := by
  rw [State.trap_eq]
@[simp] theorem State.trap_cause (c : BitVec 3) (s : State) : (s.trap c).cause = c := by
  rw [State.trap_eq]
@[simp] theorem State.trap_fstate (c : BitVec 3) (s : State) : (s.trap c).fstate = if s.errorNoted then s.fstate else s.fsm.code := by
  rw [State.trap_eq]
@[simp] theorem State.trap_fcnt (c : BitVec 3) (s : State) : (s.trap c).fcnt = if s.errorNoted then s.fcnt else if s.fsm.countsBurst then s.cnt else 0 := by
  rw [State.trap_eq]
@[simp] theorem State.trap_fsm (c : BitVec 3) (s : State) : (s.trap c).fsm = .idle := by
  rw [State.trap_eq]
@[simp] theorem State.trap_seq (c : BitVec 3) (s : State) : (s.trap c).seq = s.seq := by
  rw [State.trap_eq]
@[simp] theorem State.trap_opR (c : BitVec 3) (s : State) : (s.trap c).opR = s.opR := by
  rw [State.trap_eq]
@[simp] theorem State.trap_addrR (c : BitVec 3) (s : State) : (s.trap c).addrR = s.addrR := by
  rw [State.trap_eq]
@[simp] theorem State.trap_wdataR (c : BitVec 3) (s : State) : (s.trap c).wdataR = s.wdataR := by
  rw [State.trap_eq]
@[simp] theorem State.trap_cnt (c : BitVec 3) (s : State) : (s.trap c).cnt = s.cnt := by
  rw [State.trap_eq]
@[simp] theorem State.trap_ep (c : BitVec 3) (s : State) : (s.trap c).ep = s.ep := by
  rw [State.trap_eq]
@[simp] theorem State.trap_dly (c : BitVec 3) (s : State) : (s.trap c).dly = s.dly := by
  rw [State.trap_eq]
@[simp] theorem State.trap_rstIn (c : BitVec 3) (s : State) : (s.trap c).rstIn = s.rstIn := by
  rw [State.trap_eq]
@[simp] theorem State.trap_hostIn (c : BitVec 3) (s : State) : (s.trap c).hostIn = s.hostIn := by
  rw [State.trap_eq]
@[simp] theorem State.trap_payIn (c : BitVec 3) (s : State) : (s.trap c).payIn = s.payIn := by
  rw [State.trap_eq]
@[simp] theorem State.trap_txIn (c : BitVec 3) (s : State) : (s.trap c).txIn = s.txIn := by
  rw [State.trap_eq]
@[simp] theorem State.trap_rxIn (c : BitVec 3) (s : State) : (s.trap c).rxIn = s.rxIn := by
  rw [State.trap_eq]
@[simp] theorem State.trap_wire (c : BitVec 3) (s : State) : (s.trap c).wire = s.wire := by
  rw [State.trap_eq]
@[simp] theorem State.trap_rsp (c : BitVec 3) (s : State) : (s.trap c).rsp = if s.fsm.inOperation then s.rsp ++ [.fatal c] else s.rsp := by
  rw [State.trap_eq]

end Sys2Proof.Machine
end

