-- ==== Sys2Proof/Laws/Cache.lean ====
section
/-! SUPPORT. What the cache primitives do to the valid bits, to the row bytes and to the array's invariant: one lemma for
each. -/

namespace Sys2Proof.Machine

open Sys2Proof Sys2Proof.Safety

/-- An address is its row's beginning and its offset (R11). -/
theorem rowBase_add_off (a : Addr) : rowBase (idx a) + (off a).toNat = a.toNat := by
  have h1 : (idx a).toNat = a.toNat / 64 := by
    have := a.isLt
    simp only [idx, BitVec.extractLsb'_toNat, Nat.shiftRight_eq_div_pow]
    omega
  have h2 : (off a).toNat = a.toNat % 64 := by
    simp only [off, BitVec.extractLsb'_toNat, Nat.shiftRight_eq_div_pow]
    omega
  have h3 : rowBase (idx a) = 64 * (idx a).toNat := rfl
  omega

theorem fill_valid (s : State) (i j : BitVec 10) : (s.fill i).valid j = (s.valid j || decide (i = j)) := by
  have h : i.toNat < 1024 := i.isLt
  simp only [State.valid, State.fill_v, BitVec.getLsbD_or, BitVec.getLsbD_twoPow]
  congr 1
  simp [BitVec.toNat_inj, h]

/-- `FILL` leaves every byte outside its row alone (R113). -/
theorem fill_read_other (s : State) (i : BitVec 10) {a : Nat} (h : ¬ (rowBase i ≤ a ∧ a < rowBase i + 64)) :
    Memory.read (s.fill i).dm a = Memory.read s.dm a := by
  have hl : s.fb.toList.length = 64 := by simp
  rw [State.fill_dm, Memory.read_writeBytes, hl, if_neg h]

/-- Byte `k` of the filled row is byte `k` of the fill buffer (R113). -/
theorem fill_read_row (s : State) (i : BitVec 10) (k : Nat) (h : k < 64) :
    Memory.read (s.fill i).dm (rowBase i + k) = some s.fb[k] := by
  have hl : s.fb.toList.length = 64 := by simp
  have e : rowBase i + k - rowBase i = k := by omega
  rw [State.fill_dm, Memory.read_writeBytes, hl, if_pos (by omega), e, List.getElem?_eq_getElem (by omega)]
  simp

theorem fill_cacheInv {s : State} (i : BitVec 10) (h : CacheInv s) : CacheInv (s.fill i) := by
  refine ⟨Memory.wf_writeBytes _ _ h.1, fun a => ?_⟩
  have hi : i.toNat < 1024 := i.isLt
  have hrb : rowBase i = 64 * i.toNat := rfl
  have hv : (s.fill i).v.getLsbD (a / 64) = (s.v.getLsbD (a / 64) || (decide (i.toNat < 1024) && decide (i.toNat = a / 64))) := by
    rw [State.fill_v, BitVec.getLsbD_or, BitVec.getLsbD_twoPow]
  by_cases c : rowBase i ≤ a ∧ a < rowBase i + 64
  · obtain ⟨k, rfl⟩ : ∃ k, a = rowBase i + k := ⟨a - rowBase i, by omega⟩
    rw [fill_read_row s i k (by omega), hv, show (rowBase i + k) / 64 = i.toNat by omega]
    simp [hi]
  · rw [fill_read_other s i c, h.2 a, hv]
    have : ¬ i.toNat = a / 64 := by omega
    simp [this]

theorem invalidateAll_cacheInv (s : State) : CacheInv s.invalidateAll :=
  ⟨Memory.wf_nil, fun a => by simp [State.invalidateAll]⟩

/-- The byte a commit reads back is the one the fill buffer holds (R113, R176). -/
theorem fill_readByte (s : State) (a : Addr) :
    (s.fill (idx a)).readByte a = some (s.fb[(off a).toNat]'(off a).isLt) := by
  have hv : (s.fill (idx a)).lookup a = true := by rw [State.lookup, fill_valid]; simp
  rw [State.readByte, if_pos hv, fill_read_row s (idx a) _ (off a).isLt]

/-- A hit finds its byte, the one at the address itself (R25, R112). -/
theorem readByte_some {s : State} (h : CacheInv s) (a : Addr) (l : s.lookup a = true) :
    ∃ b, s.readByte a = some b ∧ Memory.read s.dm a.toNat = some b := by
  have e := rowBase_add_off a
  have h1 : (Memory.read s.dm a.toNat).isSome = true := by
    rw [h.2]
    have ho : (off a).toNat < 64 := (off a).isLt
    have : a.toNat / 64 = (idx a).toNat := by
      have : rowBase (idx a) = 64 * (idx a).toNat := rfl
      omega
    rw [this]; exact l
  obtain ⟨b, hb⟩ := Option.isSome_iff_exists.1 h1
  exact ⟨b, by rw [State.readByte, if_pos l, e, hb], hb⟩

end Sys2Proof.Machine
end

