-- ==== Sys2Proof/Laws/Rows.lean ====
section
/-! SUPPORT. What offering a byte, receiving one, sending a command and waiting a delay do: one lemma per shared
operation. -/

namespace Sys2Proof.Machine

open Sys2Proof

/-! ## One byte -/

theorem offer_nil {s : State} (h : s.txIn = []) (b : Byte) (f g : State → Tick) : offer b f g s = .waits s := by
  simp [offer, State.tx, h]

/-- Everything an offered byte can do (R58). -/
theorem offer_cons {s : State} {p : TxPins} {ps : List TxPins} (h : s.txIn = p :: ps) (b : Byte) (f g : State → Tick) :
    offer b f g s =
      match p.outcome with
      | .accepted => f { s with txIn := ps, wire := s.wire ++ [.tx b] }
      | .failed => g { s with txIn := ps }
      | .blocked => .waits { s with txIn := ps } := by
  cases hp : p.outcome <;> simp [offer, State.tx, h, hp]

theorem offer_accepted {s : State} {p : TxPins} {ps : List TxPins} (h : s.txIn = p :: ps) (hp : p.outcome = .accepted)
    (b : Byte) (f g : State → Tick) :
    offer b f g s = f { s with txIn := ps, wire := s.wire ++ [.tx b] } := by
  rw [offer_cons h, hp]

theorem offer_failed {s : State} {p : TxPins} {ps : List TxPins} (h : s.txIn = p :: ps) (hp : p.outcome = .failed)
    (b : Byte) (f g : State → Tick) : offer b f g s = g { s with txIn := ps } := by
  rw [offer_cons h, hp]

/-- No answer, or one that blocks: the block waits, the answer being gone (R58). -/
theorem offer_blocked {s : State} (h : s.txIn = [] ∨ ∃ p ps, s.txIn = p :: ps ∧ p.outcome = .blocked) (b : Byte)
    (f g : State → Tick) : offer b f g s = .waits { s with txIn := s.txIn.tail } := by
  rcases h with h | ⟨p, ps, h, hp⟩
  · rw [offer_nil h]; cases s; simp_all
  · rw [offer_cons h, hp, h]; rfl

/-- The three ends of an offered byte, for case analysis. -/
theorem offer_cases (b : Byte) (f g : State → Tick) (s : State) :
    offer b f g s = .waits s ∨
      ∃ p ps, s.txIn = p :: ps ∧
        ((p.outcome = .accepted ∧ offer b f g s = f { s with txIn := ps, wire := s.wire ++ [.tx b] }) ∨
          (p.outcome = .failed ∧ offer b f g s = g { s with txIn := ps }) ∨
          (p.outcome = .blocked ∧ offer b f g s = .waits { s with txIn := ps })) := by
  cases h : s.txIn with
  | nil => exact .inl (offer_nil h b f g)
  | cons p ps =>
    refine .inr ⟨p, ps, rfl, ?_⟩
    rw [offer_cons h]
    cases hp : p.outcome <;> simp

/-- The four ends of a look at the reply stream (R59). -/
theorem rx_cases (s : State) :
    s.rx = (.blocked, s) ∨
      ∃ p ps, s.rxIn = p :: ps ∧
        ((∃ b, p.outcome = .byte b ∧ s.rx = (.byte b, { s with rxIn := ps, wire := s.wire ++ [.rx b] })) ∨
          (p.outcome = .failed ∧ s.rx = (.failed, { s with rxIn := ps })) ∨
          (p.outcome = .ended ∧ s.rx = (.ended, { s with rxIn := ps })) ∨
          (p.outcome = .blocked ∧ s.rx = (.blocked, { s with rxIn := ps }))) := by
  cases h : s.rxIn with
  | nil => exact .inl (by simp [State.rx, h])
  | cons p ps =>
    refine .inr ⟨p, ps, rfl, ?_⟩
    cases hp : p.outcome <;> simp [State.rx, h, hp]

theorem rx_byte {s : State} {p : RxPins} {ps : List RxPins} {b : Byte} (h : s.rxIn = p :: ps)
    (hp : p.outcome = .byte b) : s.rx = (.byte b, { s with rxIn := ps, wire := s.wire ++ [.rx b] }) := by
  simp [State.rx, h, hp]

theorem rx_failed {s : State} {p : RxPins} {ps : List RxPins} (h : s.rxIn = p :: ps) (hp : p.outcome = .failed) :
    s.rx = (.failed, { s with rxIn := ps }) := by
  simp [State.rx, h, hp]

theorem rx_ended {s : State} {p : RxPins} {ps : List RxPins} (h : s.rxIn = p :: ps) (hp : p.outcome = .ended) :
    s.rx = (.ended, { s with rxIn := ps }) := by
  simp [State.rx, h, hp]

/-- No sample of the reply stream, or one that signals nothing (R59). -/
theorem rx_blocked {s : State} (h : s.rxIn = [] ∨ ∃ p ps, s.rxIn = p :: ps ∧ p.outcome = .blocked) :
    s.rx = (.blocked, { s with rxIn := s.rxIn.tail }) := by
  rcases h with h | ⟨p, ps, h, hp⟩
  · cases s; simp_all [State.rx]
  · simp [State.rx, h, hp]

/-! ## Repeated rows -/

theorem repeatRow_moved_stay {row : State → Tick} {s t : State} (h : row s = .moved t) (e : t.fsm = s.fsm) (n : Nat) :
    repeatRow row (n + 1) s = repeatRow row n t := by
  simp [repeatRow, h, e]

theorem repeatRow_moved_leave {row : State → Tick} {s t : State} (h : row s = .moved t) (e : t.fsm ≠ s.fsm) (n : Nat) :
    repeatRow row (n + 1) s = .moved t := by
  simp [repeatRow, h, e]

/-- A tick that leaves the state `q`. -/
def Tick.Leaves (q : Fsm) : Tick → Prop
  | .moved t => t.fsm ≠ q
  | .waits _ => True
  | .noRow => True

/-- A row whose tick leaves the state is taken once. -/
theorem repeatRow_leaves {row : State → Tick} {s : State} (h : (row s).Leaves s.fsm) (n : Nat) :
    repeatRow row (n + 1) s = row s := by
  unfold repeatRow
  cases hr : row s with
  | moved t => rw [hr] at h; exact if_neg h
  | waits t => rfl
  | noRow => rfl

theorem sendRow_at {cmd : List Byte} {s : State} {b : Byte} (h : cmd[s.seq.toNat]? = some b) (f g : State → Tick) :
    sendRow cmd f g s =
      offer b (fun t => if s.seq.toNat + 1 = cmd.length then f t else .moved { t with seq := t.seq + 1 }) g s := by
  unfold sendRow; rw [h]

/-- Before the end of the command a row of it offers a byte. -/
theorem sendRow_offers {cmd : List Byte} {s : State} {f g : State → Tick} (h : s.seq.toNat < cmd.length) :
    ∃ b f', sendRow cmd f g s = offer b f' g s := ⟨_, _, sendRow_at (List.getElem?_eq_getElem h) f g⟩

/-- The rest of a command is accepted byte by byte; then `done`. The row may depend on the state as long as it is the
command's row while the state is being visited. -/
theorem repeatRow_send (row : State → Tick) (cmd : List Byte) (f g : State → Tick)
    (hlen : cmd.length ≤ 7) (ps rest : List TxPins) :
    ∀ (s : State) (n : Nat), ps.length ≤ n → ps ≠ [] → s.txIn = ps ++ rest → (∀ p ∈ ps, p.outcome = .accepted) →
      s.seq.toNat + ps.length = cmd.length →
      (∀ t : State, t.fsm = s.fsm → t.par = s.par → t.addrR = s.addrR → t.wdataR = s.wdataR → row t = sendRow cmd f g t) →
      (∀ t : State, t.fsm = s.fsm → (f t).Leaves s.fsm) →
      repeatRow row n s =
        f { s with
          txIn := rest
          wire := s.wire ++ (cmd.drop s.seq.toNat).map .tx
          seq := BitVec.ofNat 3 (cmd.length - 1) } := by
  induction ps with
  | nil => intro s n _ h; exact absurd rfl h
  | cons p ps ih =>
    intro s n hn _ htx hacc hseq hrow hf
    obtain ⟨n, rfl⟩ : ∃ k, n = k + 1 := ⟨n - 1, by simp only [List.length_cons] at hn; omega⟩
    simp only [List.length_cons] at hn hseq
    have hlt : s.seq.toNat < cmd.length := by omega
    have hb : cmd[s.seq.toNat]? = some cmd[s.seq.toNat] := List.getElem?_eq_getElem hlt
    have hdrop : cmd.drop s.seq.toNat = cmd[s.seq.toNat] :: cmd.drop (s.seq.toNat + 1) :=
      List.drop_eq_getElem_cons hlt
    have hp : p.outcome = .accepted := hacc p List.mem_cons_self
    have htx' : s.txIn = p :: (ps ++ rest) := by rw [htx]; rfl
    have hr : row s =
        if s.seq.toNat + 1 = cmd.length then
          f { s with txIn := ps ++ rest, wire := s.wire ++ [.tx cmd[s.seq.toNat]] }
        else .moved { s with txIn := ps ++ rest, wire := s.wire ++ [.tx cmd[s.seq.toNat]], seq := s.seq + 1 } := by
      rw [hrow s rfl rfl rfl rfl, sendRow_at hb, offer_accepted htx' hp]
    cases ps with
    | nil =>
      simp only [List.length_nil] at hseq
      rw [if_pos (by omega)] at hr
      have hseq' : s.seq = BitVec.ofNat 3 (cmd.length - 1) := by
        apply BitVec.eq_of_toNat_eq
        rw [BitVec.toNat_ofNat, Nat.mod_eq_of_lt (by omega)]; omega
      rw [repeatRow_leaves (by rw [hr]; exact hf _ rfl), hr, hdrop]
      have : cmd.drop (s.seq.toNat + 1) = [] := List.drop_eq_nil_of_le (by omega)
      rw [this, ← hseq']
      rfl
    | cons q qs =>
      simp only [List.length_cons] at hseq hn
      rw [if_neg (by omega)] at hr
      have hs1 : (s.seq + 1).toNat = s.seq.toNat + 1 := by
        rw [BitVec.toNat_add]; simp; omega
      have key := ih
        { s with txIn := q :: qs ++ rest, wire := s.wire ++ [.tx cmd[s.seq.toNat]], seq := s.seq + 1 } n
        (by simp only [List.length_cons]; omega) (by simp) rfl
        (fun x hx => hacc x (List.mem_cons_of_mem _ hx))
        (by simp only [hs1, List.length_cons]; omega) hrow hf
      rw [repeatRow_moved_stay hr rfl, key]
      simp only [hs1, hdrop, List.map_cons, List.append_assoc, List.singleton_append]

/-- Some bytes of a command are accepted and more of it is to come: the state is at the byte after them (R140). -/
theorem repeatRow_send_prefix (row : State → Tick) (cmd : List Byte) (f g : State → Tick) (hlen : cmd.length ≤ 7)
    (ps rest : List TxPins) :
    ∀ (s : State) (n : Nat), s.txIn = ps ++ rest → (∀ p ∈ ps, p.outcome = .accepted) →
      s.seq.toNat + ps.length < cmd.length →
      (∀ t : State, t.fsm = s.fsm → t.par = s.par → t.addrR = s.addrR → t.wdataR = s.wdataR → row t = sendRow cmd f g t) →
      repeatRow row (ps.length + n) s =
        repeatRow row n { s with
          txIn := rest
          wire := s.wire ++ ((cmd.drop s.seq.toNat).take ps.length).map .tx
          seq := s.seq + BitVec.ofNat 3 ps.length } := by
  induction ps with
  | nil =>
    intro s n htx _ _ _
    have e : s = { s with
        txIn := rest
        wire := s.wire ++ ((cmd.drop s.seq.toNat).take 0).map .tx
        seq := s.seq + BitVec.ofNat 3 0 } := by
      simp only [List.nil_append] at htx
      simp [← htx]
    rw [List.length_nil, Nat.zero_add, ← e]
  | cons p ps ih =>
    intro s n htx hacc hseq hrow
    simp only [List.length_cons] at hseq
    have hlt : s.seq.toNat < cmd.length := by omega
    have hb : cmd[s.seq.toNat]? = some cmd[s.seq.toNat] := List.getElem?_eq_getElem hlt
    have hdrop : cmd.drop s.seq.toNat = cmd[s.seq.toNat] :: cmd.drop (s.seq.toNat + 1) :=
      List.drop_eq_getElem_cons hlt
    have htx' : s.txIn = p :: (ps ++ rest) := by rw [htx]; rfl
    have hr : row s =
        .moved { s with txIn := ps ++ rest, wire := s.wire ++ [.tx cmd[s.seq.toNat]], seq := s.seq + 1 } := by
      rw [hrow s rfl rfl rfl rfl, sendRow_at hb, offer_accepted htx' (hacc p List.mem_cons_self), if_neg (by omega)]
    have hs1 : (s.seq + 1).toNat = s.seq.toNat + 1 := by
      rw [BitVec.toNat_add]; simp; omega
    have key := ih
      { s with txIn := ps ++ rest, wire := s.wire ++ [.tx cmd[s.seq.toNat]], seq := s.seq + 1 } n
      rfl (fun x hx => hacc x (List.mem_cons_of_mem _ hx)) (by simp only [hs1]; omega) hrow
    rw [show (p :: ps).length + n = (ps.length + n) + 1 by simp only [List.length_cons]; omega,
      repeatRow_moved_stay hr rfl, key]
    have hadd : s.seq + 1 + BitVec.ofNat 3 ps.length = s.seq + BitVec.ofNat 3 (ps.length + 1) := by
      rw [BitVec.add_assoc]; congr 1; apply BitVec.eq_of_toNat_eq; simp [BitVec.toNat_add, Nat.add_comm]
    simp only [hs1, hdrop, List.map_cons, List.append_assoc, List.singleton_append, List.length_cons,
      List.take_succ_cons, hadd]

/-- After some accepted bytes the next byte of a command is offered, and what it comes to is no further row of the
command: it is cut, or it waits (R140, R58). -/
theorem repeatRow_send_stop (row : State → Tick) (cmd : List Byte) (f g : State → Tick) (hlen : cmd.length ≤ 7)
    (ps rest : List TxPins) (s : State) (n : Nat) (k : Tick) (hn : ps.length < n) (htx : s.txIn = ps ++ rest)
    (hacc : ∀ p ∈ ps, p.outcome = .accepted) (hseq : s.seq.toNat + ps.length < cmd.length)
    (hrow : ∀ t : State, t.fsm = s.fsm → t.par = s.par → t.addrR = s.addrR → t.wdataR = s.wdataR →
      row t = sendRow cmd f g t)
    (hk : ∀ b f', offer b f' g { s with
        txIn := rest
        wire := s.wire ++ ((cmd.drop s.seq.toNat).take ps.length).map .tx
        seq := s.seq + BitVec.ofNat 3 ps.length } = k)
    (hl : k.Leaves s.fsm) : repeatRow row n s = k := by
  obtain ⟨m, rfl⟩ : ∃ m, n = ps.length + (m + 1) := ⟨n - ps.length - 1, by omega⟩
  have hq : (s.seq + BitVec.ofNat 3 ps.length).toNat = s.seq.toNat + ps.length := by
    rw [BitVec.toNat_add, BitVec.toNat_ofNat]; omega
  rw [repeatRow_send_prefix row cmd f g hlen ps rest s _ htx hacc hseq hrow]
  obtain ⟨b, f', hb⟩ := sendRow_offers (cmd := cmd) (f := f) (g := g)
    (s := { s with
      txIn := rest
      wire := s.wire ++ ((cmd.drop s.seq.toNat).take ps.length).map .tx
      seq := s.seq + BitVec.ofNat 3 ps.length }) (by simp only [hq]; exact hseq)
  have hr := (hrow { s with
    txIn := rest
    wire := s.wire ++ ((cmd.drop s.seq.toNat).take ps.length).map .tx
    seq := s.seq + BitVec.ofNat 3 ps.length } rfl rfl rfl rfl).trans (hb.trans (hk b f'))
  rw [repeatRow_leaves (by rw [hr]; exact hl), hr]

/-- A command is cut: some bytes are accepted, then one fails; then `failed` (R140). -/
theorem repeatRow_send_cut (row : State → Tick) (cmd : List Byte) (f g : State → Tick)
    (hlen : cmd.length ≤ 7) (ps rest : List TxPins) (q : TxPins) (hq : q.outcome = .failed) (s : State) (n : Nat)
    (hn : ps.length < n) (htx : s.txIn = ps ++ q :: rest) (hacc : ∀ p ∈ ps, p.outcome = .accepted)
    (hseq : s.seq.toNat + ps.length < cmd.length)
    (hrow : ∀ t : State, t.fsm = s.fsm → t.par = s.par → t.addrR = s.addrR → t.wdataR = s.wdataR →
      row t = sendRow cmd f g t)
    (hg : ∀ t : State, t.fsm = s.fsm → (g t).Leaves s.fsm) :
    repeatRow row n s =
      g { s with
        txIn := rest
        wire := s.wire ++ ((cmd.drop s.seq.toNat).take ps.length).map .tx
        seq := s.seq + BitVec.ofNat 3 ps.length } :=
  repeatRow_send_stop row cmd f g hlen ps (q :: rest) s n _ hn htx hacc hseq hrow (fun _ _ => offer_failed rfl hq _ _ _)
    (hg _ rfl)

/-- A command waits: some bytes are accepted, then the port gives nothing, or says that it blocks (R58, R193). -/
theorem repeatRow_send_wait (row : State → Tick) (cmd : List Byte) (f g : State → Tick)
    (hlen : cmd.length ≤ 7) (ps rest : List TxPins) (hw : rest = [] ∨ ∃ p qs, rest = p :: qs ∧ p.outcome = .blocked)
    (s : State) (n : Nat) (hn : ps.length < n) (htx : s.txIn = ps ++ rest) (hacc : ∀ p ∈ ps, p.outcome = .accepted)
    (hseq : s.seq.toNat + ps.length < cmd.length)
    (hrow : ∀ t : State, t.fsm = s.fsm → t.par = s.par → t.addrR = s.addrR → t.wdataR = s.wdataR →
      row t = sendRow cmd f g t) :
    repeatRow row n s =
      .waits { s with
        txIn := rest.tail
        wire := s.wire ++ ((cmd.drop s.seq.toNat).take ps.length).map .tx
        seq := s.seq + BitVec.ofNat 3 ps.length } :=
  repeatRow_send_stop row cmd f g hlen ps rest s n _ hn htx hacc hseq hrow (fun _ _ => offer_blocked hw _ _ _) trivial

/-! ## A delay -/

/-- A delay state counts its periods down and leaves (R203). -/
theorem repeatRow_delay (row : State → Tick) (p : DelayParam) (next : State → State) :
    ∀ (d : Nat) (s : State), s.dly = d →
      (∀ t : State, t.fsm = s.fsm → row t = rowDelay p next t) →
      (∀ t : State, t.fsm = s.fsm → (next t).fsm ≠ s.fsm) →
      repeatRow row (d + 1) s = .moved (next { s with dly := 0, wire := s.wire ++ [.delay p] }) := by
  intro d
  induction d with
  | zero =>
    intro s hd hrow hn
    have hr : row s = .moved (next { s with wire := s.wire ++ [.delay p] }) := by
      rw [hrow s rfl]; simp [rowDelay, hd]
    rw [repeatRow_moved_leave hr (hn _ rfl), ← hd]
  | succ d ih =>
    intro s hd hrow hn
    have hr : row s = .moved { s with dly := s.dly - 1 } := by
      rw [hrow s rfl]; simp [rowDelay, hd]
    have key := ih { s with dly := s.dly - 1 } (by simp [hd]) hrow hn
    rw [repeatRow_moved_stay hr rfl, key]

/-! ## The burst -/

/-- The fill buffer with bytes written from position `k` on. -/
def fillFrom (fb : Vector Byte 64) : Nat → List Byte → Vector Byte 64
  | _, [] => fb
  | k, b :: bs => fillFrom (fb.setIfInBounds k b) (k + 1) bs

theorem fillFrom_getElem (bs : List Byte) : ∀ (fb : Vector Byte 64) (k j : Nat) (hj : j < 64),
    (fillFrom fb k bs)[j] = if k ≤ j then (bs[j - k]?).getD fb[j] else fb[j] := by
  induction bs with
  | nil => intro fb k j hj; simp [fillFrom]
  | cons b bs ih =>
    intro fb k j hj
    rw [fillFrom, ih, Vector.getElem_setIfInBounds]
    by_cases h1 : k = j
    · subst h1
      have : ¬ (k + 1 ≤ k) := by omega
      simp [this]
    · by_cases h2 : k + 1 ≤ j
      · have h3 : k ≤ j := by omega
        obtain ⟨m, rfl⟩ : ∃ m, j = k + 1 + m := ⟨j - k - 1, by omega⟩
        have e1 : k + 1 + m - (k + 1) = m := by omega
        have e2 : k + 1 + m - k = m + 1 := by omega
        simp [h1, h3, e1, e2]
      · have h3 : ¬ k ≤ j := by omega
        simp [h1, h2, h3]

/-- A whole burst written from position 0 is the burst. -/
theorem fillFrom_whole (fb bytes : Vector Byte 64) : fillFrom fb 0 bytes.toList = bytes := by
  ext j hj
  rw [fillFrom_getElem]
  simp [hj]

theorem rowBurstRx_byte {s : State} {p : RxPins} {ps : List RxPins} {b : Byte} (h : s.rxIn = p :: ps)
    (hp : p.outcome = .byte b) (hc : s.cnt.toNat < 64) :
    rowBurstRx s =
      if s.cnt.toNat < 63 then
        .moved { s with
          rxIn := ps, wire := s.wire ++ [.rx b], fb := s.fb.setIfInBounds s.cnt.toNat b, cnt := s.cnt + 1 }
      else
        .moved { s with
          rxIn := ps, wire := s.wire ++ [.rx b], fb := s.fb.setIfInBounds s.cnt.toNat b, cnt := s.cnt + 1,
          seq := 0, fsm := .rmExit } := by
  have hc' : ¬ 64 ≤ s.cnt.toNat := by omega
  simp only [rowBurstRx, if_neg hc', rx_byte h hp, takeByte, State.fbWrite]

/-- An error or the end of the stream before the 64th byte: held, noted, and the exit is next (R175). -/
theorem rowBurstRx_cut {s : State} {q : RxPins} {ps : List RxPins} {c : BitVec 3} (h : s.rxIn = q :: ps)
    (hqc : (q.outcome = .failed ∧ c = causeRxFail) ∨ (q.outcome = .ended ∧ c = causeShortRead)) (hc : s.cnt.toNat < 64)
    (hq : s.fsm = .burstRx) :
    rowBurstRx s =
      .moved { s with rxIn := ps, fcnt := s.cnt, fstate := 8, ep := c, seq := 0, fsm := .rmExit } := by
  have hc' : ¬ 64 ≤ s.cnt.toNat := by omega
  rcases hqc with ⟨h1, rfl⟩ | ⟨h1, rfl⟩
  · simp [rowBurstRx, hc', rx_failed h h1, holdError, State.note, hq, Fsm.code, Fsm.countsBurst]
  · simp [rowBurstRx, hc', rx_ended h h1, holdError, State.note, hq, Fsm.code, Fsm.countsBurst]

theorem rowBurstRx_wait {s : State} (h : s.rxIn = [] ∨ ∃ p ps, s.rxIn = p :: ps ∧ p.outcome = .blocked)
    (hc : s.cnt.toNat < 64) : rowBurstRx s = .waits { s with rxIn := s.rxIn.tail } := by
  have hc' : ¬ 64 ≤ s.cnt.toNat := by omega
  simp only [rowBurstRx, if_neg hc', rx_blocked h]

/-- The remaining bytes of a burst arrive; the exit is next (R133, R175). -/
theorem repeatRow_rx (row : State → Tick) (bs : List Byte) (rest : List RxPins) :
    ∀ (ps : List RxPins) (s : State) (n : Nat), bs.length ≤ n → bs ≠ [] → s.rxIn = ps ++ rest →
      ps.map RxPins.outcome = bs.map .byte → s.cnt.toNat + bs.length = 64 → s.fsm = .burstRx →
      (∀ t : State, t.fsm = s.fsm → row t = rowBurstRx t) →
      repeatRow row n s =
        .moved { s with
          rxIn := rest, wire := s.wire ++ bs.map .rx, fb := fillFrom s.fb s.cnt.toNat bs, cnt := 64,
          seq := 0, fsm := .rmExit } := by
  induction bs with
  | nil => intro ps s n _ h; exact absurd rfl h
  | cons b bs ih =>
    intro ps s n hn _ hrx hmap hc hq hrow
    obtain ⟨n, rfl⟩ : ∃ k, n = k + 1 := ⟨n - 1, by simp only [List.length_cons] at hn; omega⟩
    obtain ⟨p, ps, rfl⟩ : ∃ p qs, ps = p :: qs := by
      cases ps with
      | nil => simp at hmap
      | cons p qs => exact ⟨p, qs, rfl⟩
    simp only [List.map_cons, List.cons.injEq] at hmap
    simp only [List.length_cons] at hc hn
    have hrx' : s.rxIn = p :: (ps ++ rest) := by rw [hrx]; rfl
    have hr := rowBurstRx_byte hrx' hmap.1 (by omega)
    rw [← hrow s rfl] at hr
    cases bs with
    | nil =>
      simp only [List.length_nil] at hc
      have hps : ps = [] := by simpa using hmap.2
      subst hps
      rw [if_neg (by omega)] at hr
      have hcnt : s.cnt + 1 = 64 := by
        apply BitVec.eq_of_toNat_eq; rw [BitVec.toNat_add]; simp; omega
      rw [repeatRow_moved_leave hr (by simp [hq]), hcnt]
      rfl
    | cons c cs =>
      simp only [List.length_cons] at hc hn
      rw [if_pos (by omega)] at hr
      have hc1 : (s.cnt + 1).toNat = s.cnt.toNat + 1 := by
        rw [BitVec.toNat_add]; simp; omega
      have key := ih ps
        { s with
          rxIn := ps ++ rest, wire := s.wire ++ [.rx b], fb := s.fb.setIfInBounds s.cnt.toNat b, cnt := s.cnt + 1 } n
        (by simp only [List.length_cons]; omega) (by simp) rfl hmap.2
        (by simp only [hc1, List.length_cons]; omega) hq hrow
      rw [repeatRow_moved_stay hr rfl, key]
      simp only [hc1, fillFrom, List.map_cons, List.append_assoc, List.singleton_append]

/-- Some bytes of a burst arrive and more of it is to come (R133, R175). -/
theorem repeatRow_rx_prefix (row : State → Tick) (bs : List Byte) (rest : List RxPins) :
    ∀ (ps : List RxPins) (s : State) (n : Nat), s.rxIn = ps ++ rest → ps.map RxPins.outcome = bs.map .byte →
      s.cnt.toNat + bs.length < 64 → (∀ t : State, t.fsm = s.fsm → row t = rowBurstRx t) →
      repeatRow row (bs.length + n) s =
        repeatRow row n { s with
          rxIn := rest, wire := s.wire ++ bs.map .rx, fb := fillFrom s.fb s.cnt.toNat bs,
          cnt := s.cnt + BitVec.ofNat 7 bs.length } := by
  induction bs with
  | nil =>
    intro ps s n hrx hmap _ _
    obtain rfl : ps = [] := by simpa using hmap
    simp only [List.nil_append] at hrx
    simp [fillFrom, ← hrx]
  | cons b bs ih =>
    intro ps s n hrx hmap hc hrow
    obtain ⟨p, ps, rfl⟩ : ∃ p qs, ps = p :: qs := by
      cases ps with
      | nil => simp at hmap
      | cons p qs => exact ⟨p, qs, rfl⟩
    simp only [List.map_cons, List.cons.injEq] at hmap
    simp only [List.length_cons] at hc
    have hrx' : s.rxIn = p :: (ps ++ rest) := by rw [hrx]; rfl
    have hr := rowBurstRx_byte hrx' hmap.1 (by omega)
    rw [← hrow s rfl, if_pos (by omega)] at hr
    have hc1 : (s.cnt + 1).toNat = s.cnt.toNat + 1 := by
      rw [BitVec.toNat_add]; simp; omega
    have key := ih ps
      { s with
        rxIn := ps ++ rest, wire := s.wire ++ [.rx b], fb := s.fb.setIfInBounds s.cnt.toNat b, cnt := s.cnt + 1 } n
      rfl hmap.2 (by simp only [hc1]; omega) hrow
    rw [show (b :: bs).length + n = (bs.length + n) + 1 by simp only [List.length_cons]; omega,
      repeatRow_moved_stay hr rfl, key]
    have hadd : s.cnt + 1 + BitVec.ofNat 7 bs.length = s.cnt + BitVec.ofNat 7 (bs.length + 1) := by
      rw [BitVec.add_assoc]; congr 1; apply BitVec.eq_of_toNat_eq; simp [BitVec.toNat_add, Nat.add_comm]
    simp only [hc1, fillFrom, List.map_cons, List.append_assoc, List.singleton_append, List.length_cons, hadd]

/-- After some bytes of a burst the stream is looked at, and what it gives is no further byte: the burst is cut, or it
waits (R175, R59). -/
theorem repeatRow_rx_stop (row : State → Tick) (bs : List Byte) (ps rest : List RxPins) (s : State) (n : Nat) (k : Tick)
    (hn : bs.length < n) (hrx : s.rxIn = ps ++ rest) (hmap : ps.map RxPins.outcome = bs.map .byte)
    (hc : s.cnt.toNat + bs.length < 64) (hrow : ∀ t : State, t.fsm = s.fsm → row t = rowBurstRx t)
    (hk : rowBurstRx { s with
        rxIn := rest, wire := s.wire ++ bs.map .rx, fb := fillFrom s.fb s.cnt.toNat bs,
        cnt := s.cnt + BitVec.ofNat 7 bs.length } = k)
    (hl : k.Leaves s.fsm) : repeatRow row n s = k := by
  obtain ⟨m, rfl⟩ : ∃ m, n = bs.length + (m + 1) := ⟨n - bs.length - 1, by omega⟩
  rw [repeatRow_rx_prefix row bs rest ps s _ hrx hmap hc hrow]
  rw [← hrow { s with
        rxIn := rest, wire := s.wire ++ bs.map .rx, fb := fillFrom s.fb s.cnt.toNat bs,
        cnt := s.cnt + BitVec.ofNat 7 bs.length } rfl] at hk
  rw [repeatRow_leaves (by rw [hk]; exact hl), hk]

/-- The count after the bytes of a burst that is not complete. -/
theorem cnt_add {c : BitVec 7} {n : Nat} (h : c.toNat + n < 64) : (c + BitVec.ofNat 7 n).toNat = c.toNat + n := by
  rw [BitVec.toNat_add, BitVec.toNat_ofNat]; omega

/-- A burst is cut: some bytes arrive, then the stream fails or ends; the error is held and the exit is next (R141,
R175). -/
theorem repeatRow_rx_cut (row : State → Tick) (c : BitVec 3) (q : RxPins)
    (hqc : (q.outcome = .failed ∧ c = causeRxFail) ∨ (q.outcome = .ended ∧ c = causeShortRead)) (bs : List Byte)
    (rest : List RxPins) (ps : List RxPins) (s : State) (n : Nat) (hn : bs.length < n) (hrx : s.rxIn = ps ++ q :: rest)
    (hmap : ps.map RxPins.outcome = bs.map .byte) (hc : s.cnt.toNat + bs.length < 64) (hq : s.fsm = .burstRx)
    (hrow : ∀ t : State, t.fsm = s.fsm → row t = rowBurstRx t) :
    repeatRow row n s =
      .moved { s with
        rxIn := rest, wire := s.wire ++ bs.map .rx, fb := fillFrom s.fb s.cnt.toNat bs,
        cnt := s.cnt + BitVec.ofNat 7 bs.length, fcnt := s.cnt + BitVec.ofNat 7 bs.length, fstate := 8,
        ep := c, seq := 0, fsm := .rmExit } := by
  refine repeatRow_rx_stop row bs ps (q :: rest) s n _ hn hrx hmap hc hrow ?_ (by simp [Tick.Leaves, hq])
  exact rowBurstRx_cut rfl hqc (by rw [cnt_add hc]; exact hc) hq

/-- A burst waits: some bytes arrive, then the stream gives nothing (R59, R193). -/
theorem repeatRow_rx_wait (row : State → Tick) (bs : List Byte) (ps rest : List RxPins)
    (hw : rest = [] ∨ ∃ p qs, rest = p :: qs ∧ p.outcome = .blocked) (s : State) (n : Nat) (hn : bs.length < n)
    (hrx : s.rxIn = ps ++ rest) (hmap : ps.map RxPins.outcome = bs.map .byte) (hc : s.cnt.toNat + bs.length < 64)
    (hrow : ∀ t : State, t.fsm = s.fsm → row t = rowBurstRx t) :
    repeatRow row n s =
      .waits { s with
        rxIn := rest.tail, wire := s.wire ++ bs.map .rx, fb := fillFrom s.fb s.cnt.toNat bs,
        cnt := s.cnt + BitVec.ofNat 7 bs.length } := by
  refine repeatRow_rx_stop row bs ps rest s n _ hn hrx hmap hc hrow ?_ trivial
  exact rowBurstRx_wait hw (by rw [cnt_add hc]; exact hc)

/-! ## The payload -/

/-- The beats before the end beat are dropped (R97, R181). -/
theorem repeatRow_drain_prefix (row : State → Tick) (beats rest : List PayPins) :
    ∀ (s : State) (n : Nat), s.payIn = beats ++ rest → (∀ p ∈ beats, p.valid = true ∧ p.last = false) →
      (∀ t : State, t.fsm = s.fsm → row t = rowDrain t) →
      repeatRow row (beats.length + n) s = repeatRow row n { s with payIn := rest } := by
  induction beats with
  | nil =>
    intro s n hp _ _
    simp only [List.nil_append] at hp
    simp [← hp]
  | cons p beats ih =>
    intro s n hp hb hrow
    have h1 := hb p List.mem_cons_self
    have hr : row s = .moved { s with payIn := beats ++ rest } := by
      rw [hrow s rfl, rowDrain, hp]
      simp [h1.1, h1.2]
    rw [show (p :: beats).length + n = (beats.length + n) + 1 by simp only [List.length_cons]; omega,
      repeatRow_moved_stay hr rfl,
      ih { s with payIn := beats ++ rest } n rfl (fun x hx => hb x (List.mem_cons_of_mem _ hx)) hrow]

/-- The payload is drained to its end beat (R97, R181). -/
theorem repeatRow_drain (row : State → Tick) (beats rest : List PayPins) (e : PayPins) (he : e.valid = true ∧ e.last = true)
    (s : State) (n : Nat) (hn : beats.length < n) (hp : s.payIn = beats ++ e :: rest)
    (hb : ∀ p ∈ beats, p.valid = true ∧ p.last = false) (hq : s.fsm = .lsavDrain)
    (hrow : ∀ t : State, t.fsm = s.fsm → row t = rowDrain t) :
    repeatRow row n s = .moved { s with payIn := rest, rsp := s.rsp ++ [.ok], fsm := .idle } := by
  obtain ⟨m, rfl⟩ : ∃ m, n = beats.length + (m + 1) := ⟨n - beats.length - 1, by omega⟩
  have hr : row { s with payIn := e :: rest } = .moved { s with payIn := rest, rsp := s.rsp ++ [.ok], fsm := .idle } :=
    (hrow { s with payIn := e :: rest } rfl).trans (by simp [rowDrain, he.1, he.2, State.respond])
  rw [repeatRow_drain_prefix row beats _ s _ hp hb hrow, repeatRow_moved_leave hr (by simp [hq])]

/-- The payload is drained as far as it has come (R97, R193). -/
theorem repeatRow_drain_wait (row : State → Tick) (beats rest : List PayPins)
    (hw : rest = [] ∨ ∃ p qs, rest = p :: qs ∧ p.valid = false) (s : State) (n : Nat) (hn : beats.length < n)
    (hp : s.payIn = beats ++ rest) (hb : ∀ p ∈ beats, p.valid = true ∧ p.last = false)
    (hrow : ∀ t : State, t.fsm = s.fsm → row t = rowDrain t) :
    repeatRow row n s = .waits { s with payIn := rest.tail } := by
  obtain ⟨m, rfl⟩ : ∃ m, n = beats.length + (m + 1) := ⟨n - beats.length - 1, by omega⟩
  have hr : row { s with payIn := rest } = .waits { s with payIn := rest.tail } := by
    refine (hrow { s with payIn := rest } rfl).trans ?_
    rcases hw with rfl | ⟨p, qs, rfl, h⟩ <;> simp [rowDrain, *]
  rw [repeatRow_drain_prefix row beats _ s _ hp hb hrow, repeatRow_leaves (by rw [hr]; trivial), hr]

end Sys2Proof.Machine
end

