-- ==== Sys2Proof/Laws/Run.lean ====
section
/-! SUPPORT. What every row of the table can do, and how a property of rows is carried to visits, operations and steps: the
induction over rows is packaged once here. -/

namespace Sys2Proof.Machine

open Sys2Proof

/-! ## A property of every state a tick can give -/

/-- `P` of the state a tick gives, whether a row was taken or the block waits. -/
def Tick.All (P : State → Prop) : Tick → Prop
  | .moved t => P t
  | .waits t => P t
  | .noRow => True

@[simp] theorem Tick.all_moved (P : State → Prop) (t : State) : (Tick.moved t).All P ↔ P t := Iff.rfl
@[simp] theorem Tick.all_waits (P : State → Prop) (t : State) : (Tick.waits t).All P ↔ P t := Iff.rfl
@[simp] theorem Tick.all_noRow (P : State → Prop) : Tick.noRow.All P ↔ True := Iff.rfl

theorem Tick.All.imp {P Q : State → Prop} {k : Tick} (h : k.All P) (i : ∀ t, P t → Q t) : k.All Q := by
  cases k with
  | moved t => exact i t h
  | waits t => exact i t h
  | noRow => trivial

theorem offer_all {P : State → Prop} {b : Byte} {f g : State → Tick} {s : State} (h0 : P s)
    (hw : ∀ ps, P { s with txIn := ps })
    (hf : ∀ ps, (f { s with txIn := ps, wire := s.wire ++ [.tx b] }).All P)
    (hg : ∀ ps, (g { s with txIn := ps }).All P) : (offer b f g s).All P := by
  rcases offer_cases b f g s with h | ⟨p, ps, _, ⟨_, h⟩ | ⟨_, h⟩ | ⟨_, h⟩⟩ <;> rw [h]
  · exact h0
  · exact hf ps
  · exact hg ps
  · exact hw ps

theorem sendRow_all {P : State → Prop} {cmd : List Byte} {f g : State → Tick} {s : State} (h0 : P s)
    (hw : ∀ ps, P { s with txIn := ps })
    (hm : ∀ ps b, cmd[s.seq.toNat]? = some b → s.seq.toNat + 1 ≠ cmd.length →
      P { s with txIn := ps, wire := s.wire ++ [.tx b], seq := s.seq + 1 })
    (hf : ∀ ps b, cmd[s.seq.toNat]? = some b → s.seq.toNat + 1 = cmd.length →
      (f { s with txIn := ps, wire := s.wire ++ [.tx b] }).All P)
    (hg : ∀ ps, s.seq.toNat < cmd.length → (g { s with txIn := ps }).All P) : (sendRow cmd f g s).All P := by
  cases h : cmd[s.seq.toNat]? with
  | none => unfold sendRow; rw [h]; trivial
  | some b =>
    have hlt : s.seq.toNat < cmd.length := (List.getElem?_eq_some_iff.1 h).1
    rw [sendRow_at h]
    refine offer_all h0 hw (fun ps => ?_) (fun ps => hg ps hlt)
    by_cases e : s.seq.toNat + 1 = cmd.length
    · rw [if_pos e]; exact hf ps b h e
    · rw [if_neg e]; exact hm ps b h e

theorem rowBurstRx_all {P : State → Prop} {s : State} (h0 : P s) (hw : ∀ ps, P { s with rxIn := ps })
    (hm : ∀ ps b, s.cnt.toNat < 63 →
      P { s with
        rxIn := ps, wire := s.wire ++ [.rx b], fb := s.fb.setIfInBounds s.cnt.toNat b, cnt := s.cnt + 1 })
    (hl : ∀ ps b, s.cnt.toNat = 63 →
      P { s with
        rxIn := ps, wire := s.wire ++ [.rx b], fb := s.fb.setIfInBounds s.cnt.toNat b, cnt := s.cnt + 1,
        seq := 0, fsm := .rmExit })
    (he : ∀ ps c, c = causeRxFail ∨ c = causeShortRead → s.cnt.toNat < 64 →
      (holdError c { s with rxIn := ps }).All P) : (rowBurstRx s).All P := by
  unfold rowBurstRx
  by_cases hc : 64 ≤ s.cnt.toNat
  · rw [if_pos hc]; trivial
  · rw [if_neg hc]
    rcases rx_cases s with h | ⟨p, ps, _, ⟨b, _, h⟩ | ⟨_, h⟩ | ⟨_, h⟩ | ⟨_, h⟩⟩ <;> rw [h]
    · exact h0
    · simp only [takeByte]
      by_cases h63 : s.cnt.toNat < 63
      · rw [if_pos h63]; exact hm ps b h63
      · rw [if_neg h63]; exact hl ps b (by omega)
    · exact he ps _ (.inl rfl) (by omega)
    · exact he ps _ (.inr rfl) (by omega)
    · exact hw ps

theorem rowDelay_all {P : State → Prop} {p : DelayParam} {next : State → State} {s : State}
    (hm : P { s with dly := s.dly - 1 }) (hn : s.dly = 0 → P (next { s with wire := s.wire ++ [.delay p] })) :
    (rowDelay p next s).All P := by
  unfold rowDelay
  by_cases h : s.dly = 0
  · rw [if_pos h]; exact hn h
  · rw [if_neg h]; exact hm

theorem rowDrain_all {P : State → Prop} {s : State} (h0 : P s) (hw : ∀ ps, P { s with payIn := ps })
    (he : ∀ ps, P { s with payIn := ps, rsp := s.rsp ++ [.ok], fsm := .idle }) : (rowDrain s).All P := by
  unfold rowDrain
  cases h : s.payIn with
  | nil => exact h0
  | cons p ps =>
    dsimp only
    cases p.valid <;> cases p.last <;> simp only [Bool.not_true, Bool.not_false, if_true, if_false, Bool.false_eq_true]
    · exact hw ps
    · exact hw ps
    · exact hw ps
    · exact he ps

/-- The commit or the pending trap at the end of the exit (R176). -/
theorem finishExit_all {P : State → Prop} {s : State}
    (hc : s.ep = causeNone → ∀ b, (s.fill s.idxR).readByte s.addrR = some b →
      P { (s.fill s.idxR).respond (.okByte b) with fsm := .idle })
    (ht : s.ep ≠ causeNone → P (s.trap s.ep)) : (finishExit s).All P := by
  unfold finishExit
  by_cases h : s.ep = causeNone
  · rw [if_pos h]
    dsimp only
    cases hb : (s.fill s.idxR).readByte (s.fill s.idxR).addrR with
    | none => trivial
    | some b => exact hc h b hb
  · rw [if_neg h]; exact ht h

/-! ## The frame of every row -/

/-- No row outside `S_IDLE` changes a parameter or a latch, takes a request, or looks at `rst` (R9, R21, R89). -/
theorem rowOf_frame (s : State) :
    (rowOf s).All fun t =>
      t.par = s.par ∧ t.opR = s.opR ∧ t.addrR = s.addrR ∧ t.wdataR = s.wdataR ∧ t.hostIn = s.hostIn ∧
        t.rstIn = s.rstIn := by
  unfold rowOf
  split <;> try trivial
  · exact offer_all (by simp) (by simp) (by simp) (by simp [trapTxFail])
  · exact rowDelay_all (by simp) (by simp)
  · exact sendRow_all (by simp) (by simp) (by simp) (by simp) (by simp [trapTxFail])
  · exact rowDelay_all (by simp) (by simp)
  · exact sendRow_all (by simp) (by simp) (by simp) (by simp) (by simp [trapTxFail])
  · exact offer_all (by simp) (by simp) (by simp) (by simp [trapTxFail])
  · exact offer_all (by simp) (by simp) (by simp) (by simp [holdError])
  · exact rowBurstRx_all (by simp) (by simp) (by simp) (by simp) (by simp [holdError])
  · unfold rowExitRead
    by_cases h : s.par.exitReadSeq = []
    · rw [if_pos h]; exact finishExit_all (by simp) (by simp)
    · rw [if_neg h]
      refine sendRow_all (by simp) (by simp) (by simp) (fun ps b _ _ => ?_) (by simp [failExit])
      exact finishExit_all (by simp) (by simp)
  · exact sendRow_all (by simp) (by simp) (by simp) (by simp) (by simp [trapTxFail])
  · exact rowDelay_all (by simp) (by simp)
  · exact sendRow_all (by simp) (by simp) (by simp) (by simp) (by simp [trapTxFail])
  · exact rowDelay_all (by simp) (by simp)
  · exact rowDrain_all (by simp) (by simp) (by simp)

/-! ## Carrying a property over a visit and an operation -/

theorem repeatRow_all {P : State → Prop} {row : State → Tick} (hrow : ∀ s, P s → (row s).All P) :
    ∀ n s, P s → (repeatRow row n s).All P := by
  intro n
  induction n with
  | zero => intro s h; exact h
  | succ n ih =>
    intro s h
    have h1 := hrow s h
    unfold repeatRow
    cases hr : row s with
    | moved t =>
      rw [hr] at h1
      dsimp only
      by_cases e : t.fsm = s.fsm
      · rw [if_pos e]; exact ih t h1
      · rw [if_neg e]; exact h1
    | waits t => rw [hr] at h1; exact h1
    | noRow => trivial

/-- The same for a property that rows keep only outside `S_IDLE`. -/
theorem visit_all {P : State → Prop} (hrow : ∀ s, s.fsm ≠ .idle → P s → (rowOf s).All P) (s : State) (h : P s) :
    (visit s).All P := by
  refine repeatRow_all (fun t ht => ?_) _ s h
  by_cases e : t.fsm = .idle
  · unfold rowOf; rw [e]; trivial
  · exact hrow t e ht

theorem runOp_all {P : State → Prop} (hrow : ∀ s, s.fsm ≠ .idle → P s → (rowOf s).All P) :
    ∀ n s, P s → (runOp n s).All P := by
  intro n
  induction n with
  | zero => intro s h; exact h
  | succ n ih =>
    intro s h
    have h1 := visit_all hrow s h
    unfold runOp
    by_cases e : s.fsm = .idle
    · rw [if_pos e]; exact h
    · rw [if_neg e]
      cases hv : visit s with
      | moved t => rw [hv] at h1; exact ih t h1
      | waits t => rw [hv] at h1; exact h1
      | noRow => trivial

/-! ## Steps as runs of rows -/

theorem repeatRow_congr {r1 r2 : State → Tick} {Q : State → Prop} (heq : ∀ s, Q s → r1 s = r2 s)
    (hkeep : ∀ s t, Q s → r2 s = .moved t → t.fsm = s.fsm → Q t) :
    ∀ n s, Q s → repeatRow r1 n s = repeatRow r2 n s := by
  intro n
  induction n with
  | zero => intro s _; rfl
  | succ n ih =>
    intro s h
    unfold repeatRow
    rw [heq s h]
    cases hr : r2 s with
    | moved t =>
      dsimp only
      by_cases e : t.fsm = s.fsm
      · rw [if_pos e, if_pos e, ih t (hkeep s t h hr e)]
      · rw [if_neg e, if_neg e]
    | waits t => rfl
    | noRow => rfl

/-- A command's row is the state's row while the state is visited. -/
theorem repeatRow_command {row : State → Tick} {s : State}
    (h : ∀ t : State, t.fsm = s.fsm → t.addrR = s.addrR → t.wdataR = s.wdataR → row t = rowOf t) (n : Nat) :
    repeatRow row n s = repeatRow rowOf n s := by
  refine repeatRow_congr (Q := fun t => t.fsm = s.fsm ∧ t.addrR = s.addrR ∧ t.wdataR = s.wdataR) ?_ ?_ n s
    ⟨rfl, rfl, rfl⟩
  · rintro t ⟨h1, h2, h3⟩; exact h t h1 h2 h3
  · rintro t u ⟨h1, h2, h3⟩ hr e
    have hf := rowOf_frame t
    rw [hr] at hf
    exact ⟨e.trans h1, hf.2.2.1.trans h2, hf.2.2.2.1.trans h3⟩

/-- In a sending state the command's meaning is the visit of the state (R23). -/
theorem exec_command {s : State} {i : Instr} (h : s.command = some i) : exec i s = (visit s).toOutcome := by
  unfold State.command at h
  unfold visit
  split at h <;> try contradiction
  all_goals
    rename_i hq
    cases h
    simp only [exec, execInitG, execInit5, execSelectAddress, execEnterRead, execTriggerBurst, execExitRead,
      execWriteAddr, execWriteValue, wireCommand, if_pos hq]
    rw [repeatRow_command]
    intro t h1 h2 h3
    simp [rowOf, h1, hq, State.baseR, h2, h3]

/-- A host operation in `S_IDLE`: its acceptance, then its rows (R171). -/
theorem exec_request {s : State} (w : BitVec 27) (h : s.fsm = .idle) :
    exec (decodeRequest w) s = (accept (decodeRequest w) s).finish := by
  unfold decodeRequest
  split_ifs <;>
    simp [exec, execRead, execWrom, execWram, execGsav, execLsav, execReserved5, execReserved6, execReserved7, hostOp,
      h, accept]

/-- Outside `S_IDLE` the visit of the state is run. -/
theorem fetchRun_visit {s : State} (h : s.fsm ≠ .idle) : s.fetchRun.run = (visit s).toOutcome := by
  unfold State.fetchRun
  rw [if_neg h]
  cases hc : s.command with
  | none => rfl
  | some i => exact exec_command hc

/-- In `S_IDLE` the table's row is taken, then the operation's rows. -/
theorem fetchRun_idle {s : State} (h : s.fsm = .idle) : s.fetchRun.run = (transition s).finish := by
  unfold State.fetchRun transition
  rw [if_pos h, if_pos h]
  cases s.hostIn with
  | nil => rfl
  | cons p ps =>
    dsimp only
    by_cases hv : p.valid = true
    · rw [if_pos hv, if_pos hv]; exact exec_request _ h
    · rw [if_neg hv, if_neg hv]; rfl

theorem step_no_rst {s : State} (h : s.rstIn = []) : step s = s.fetchRun.run := by
  unfold step State.fetch
  rw [h]

/-- A look at `rst` that finds 0 changes nothing else. -/
theorem step_rst_low {s : State} {rs : List Bool} (h : s.rstIn = false :: rs) :
    step s = ({ s with rstIn := rs } : State).fetchRun.run := by
  unfold step State.fetch
  rw [h]
  rfl

theorem step_rst_high {s : State} {rs : List Bool} (h : s.rstIn = true :: rs) :
    step s = .next ({ s with rstIn := rs } : State).resetBlock := by
  unfold step State.fetch
  rw [h]
  rfl

theorem Tick.toOutcome_next {k : Tick} {t : State} (h : k.toOutcome = .next t) : k = .moved t ∨ k = .waits t := by
  cases k with
  | moved u => left; simpa [Tick.toOutcome] using h
  | waits u => right; simpa [Tick.toOutcome] using h
  | noRow => simp [Tick.toOutcome] at h

theorem Tick.All.of_toOutcome {P : State → Prop} {k : Tick} {t : State} (h : k.All P) (e : k.toOutcome = .next t) :
    P t := by
  rcases Tick.toOutcome_next e with e | e <;> rw [e] at h <;> exact h

/-- What the rows of an accepted operation keep, the operation keeps. -/
theorem finish_all {P : State → Prop} (hrow : ∀ s, s.fsm ≠ .idle → P s → (rowOf s).All P) {k : Tick} {t : State}
    (h : k.All P) (e : k.finish = .next t) : P t := by
  cases k with
  | moved u => exact (runOp_all hrow maxVisits u h).of_toOutcome e
  | waits u => simp only [Tick.finish, Host.Outcome.next.injEq] at e; exact e ▸ h
  | noRow => simp [Tick.finish] at e

/-- A property that every row keeps is kept by every step that is no reset. -/
theorem fetchRun_all {P : State → Prop} (hrow : ∀ s, P s → (transition s).All P) {s t : State} (h : P s)
    (hs : s.fetchRun.run = .next t) : P t := by
  have hrow' : ∀ s, s.fsm ≠ .idle → P s → (rowOf s).All P := by
    intro s hq hP
    have := hrow s hP
    rwa [transition, if_neg hq] at this
  by_cases hq : s.fsm = .idle
  · rw [fetchRun_idle hq] at hs
    exact finish_all hrow' (hrow s h) hs
  · rw [fetchRun_visit hq] at hs
    exact (visit_all hrow' s h).of_toOutcome hs

/-- The induction over rows, packaged once: what reset establishes, every row keeps and no look at `rst` disturbs, every
step keeps. -/
theorem step_all {P : State → Prop} (hrow : ∀ s, P s → (transition s).All P)
    (hrst : ∀ (s : State) rs, P s → P { s with rstIn := rs }) (hreset : ∀ s : State, P s → P s.resetBlock) {s t : State}
    (h : P s) (hs : step s = .next t) : P t := by
  unfold step State.fetch at hs
  cases hr : s.rstIn with
  | nil =>
    rw [hr] at hs
    exact fetchRun_all hrow h hs
  | cons r rs =>
    rw [hr] at hs
    cases r with
    | true =>
      simp only [if_true, Fetched.run, Host.Outcome.next.injEq] at hs
      exact hs ▸ hreset _ (hrst _ _ h)
    | false =>
      simp only [Bool.false_eq_true, if_false] at hs
      exact fetchRun_all hrow (hrst _ _ h) hs

end Sys2Proof.Machine
end

