-- ==== Sys2Proof/Laws/Visit.lean ====
section
/-! SUPPORT. What a visit of each sequencer state does when its bytes are accepted, when one fails, and when its delay has
elapsed: one lemma for each state, for chaining into whole operations. -/

namespace Sys2Proof.Machine

open Sys2Proof Sys2Proof.Safety

/-! ## Lengths of the commands (R81) -/

theorem selectAddressBytes_length (p : Params) (a : Addr) : (selectAddressBytes p a).length = 6 := rfl
theorem writeAddrBytes_length (p : Params) (a : Addr) : (writeAddrBytes p a).length = 6 := rfl
theorem init5Bytes_length : init5Bytes.length = 2 := rfl
theorem writeValueBytes_length (v : Byte) : (writeValueBytes v).length = (dec v).length + 2 := by simp [writeValueBytes]

theorem dec_length (v : Byte) : 1 ≤ (dec v).length ∧ (dec v).length ≤ 3 := by
  unfold dec
  dsimp only
  split_ifs <;> simp

/-! ## Steps, visits and operations -/

theorem step_pastReset {s : State} (h : NoReset s) : step s = (pastReset s).fetchRun.run := by
  unfold pastReset
  cases hr : s.rstIn with
  | nil =>
    have e : ({ s with rstIn := [] } : State) = s := by rw [← hr]
    rw [step_no_rst hr, List.tail_nil, e]
  | cons r rs =>
    cases r with
    | true => simp [NoReset, hr] at h
    | false => rw [step_rst_low hr]; rfl

theorem runOp_step {n : Nat} {s t : State} (h : s.fsm ≠ .idle) (hv : visit s = .moved t) :
    runOp (n + 1) s = runOp n t := by
  simp [runOp, h, hv]

theorem runOp_idle {n : Nat} {s : State} (h : s.fsm = .idle) : runOp n s = .moved s := by
  cases n <;> simp [runOp, h]

/-- A visit repeats the row of the state it began in, its operands fixed. -/
theorem visit_of {s : State} {row : State → Tick}
    (h : ∀ t : State, t.fsm = s.fsm → t.addrR = s.addrR → t.wdataR = s.wdataR → row t = rowOf t) :
    visit s = repeatRow row s.visitBound s := (repeatRow_command h _).symm

theorem visit_addrSel {s : State} (h : s.fsm = .addrSel) :
    visit s = repeatRow (rowSelectAddress (base s.addrR)) 6 s := by
  rw [visit_of (row := rowSelectAddress (base s.addrR))]
  · simp [State.visitBound, h]
  · intro t h1 h2 _; simp [rowOf, h1, h, State.baseR, h2]

theorem visit_wAddr {s : State} (h : s.fsm = .wAddr) : visit s = repeatRow (rowWriteAddr s.addrR) 6 s := by
  rw [visit_of (row := rowWriteAddr s.addrR)]
  · simp [State.visitBound, h]
  · intro t h1 h2 _; simp [rowOf, h1, h, h2]

theorem visit_wValue {s : State} (h : s.fsm = .wValue) : visit s = repeatRow (rowWriteValue s.wdataR) 5 s := by
  rw [visit_of (row := rowWriteValue s.wdataR)]
  · simp [State.visitBound, h]
  · intro t h1 _ h2; simp [rowOf, h1, h, h2]

theorem visit_rmEnter {s : State} (h : s.fsm = .rmEnter) : visit s = repeatRow rowEnterRead 1 s := by
  rw [visit_of (row := rowEnterRead)]
  · simp [State.visitBound, h]
  · intro t h1 _ _; simp [rowOf, h1, h]

theorem visit_burstTrig {s : State} (h : s.fsm = .burstTrig) : visit s = repeatRow rowTriggerBurst 1 s := by
  rw [visit_of (row := rowTriggerBurst)]
  · simp [State.visitBound, h]
  · intro t h1 _ _; simp [rowOf, h1, h]

theorem visit_burstRx {s : State} (h : s.fsm = .burstRx) : visit s = repeatRow rowBurstRx 64 s := by
  rw [visit_of (row := rowBurstRx)]
  · simp [State.visitBound, h]
  · intro t h1 _ _; simp [rowOf, h1, h]

theorem visit_rmExit {s : State} (h : s.fsm = .rmExit) :
    visit s = repeatRow rowExitRead (s.par.exitReadSeq.length + 1) s := by
  rw [visit_of (row := rowExitRead)]
  · simp [State.visitBound, h]
  · intro t h1 _ _; simp [rowOf, h1, h]

theorem visit_initG {s : State} (h : s.fsm = .initG) : visit s = repeatRow rowInitG 1 s := by
  rw [visit_of (row := rowInitG)]
  · simp [State.visitBound, h]
  · intro t h1 _ _; simp [rowOf, h1, h]

theorem visit_init5 {s : State} (h : s.fsm = .init5) : visit s = repeatRow rowInit5 2 s := by
  rw [visit_of (row := rowInit5)]
  · simp [State.visitBound, h]
  · intro t h1 _ _; simp [rowOf, h1, h]

/-! ## The commands sent whole, as repeated rows -/

theorem selectAddress_sent {s : State} (a : Addr) {sel rest : List TxPins} (h : s.fsm = .addrSel)
    (hl : s.seq.toNat + sel.length = 6) (hne : sel ≠ []) (htx : s.txIn = sel ++ rest) (hacc : AllAccepted sel) :
    repeatRow (rowSelectAddress a) 6 s = .moved { s with
      seq := 0, fsm := .rmEnter, txIn := rest
      wire := s.wire ++ sent ((selectAddressBytes s.par a).drop s.seq.toNat) } := by
  rw [repeatRow_send (rowSelectAddress a) (selectAddressBytes s.par a)
    (fun t => .moved { t with seq := 0, fsm := .rmEnter }) trapTxFail
    (by rw [selectAddressBytes_length]; omega) sel rest s 6 (by omega) hne htx hacc
    (by rw [selectAddressBytes_length]; exact hl)
    (fun t _ hp _ _ => by simp only [rowSelectAddress, hp]) (fun t ht => by simp [Tick.Leaves, h])]
  rfl

theorem writeAddr_sent {s : State} (a : Addr) {sel rest : List TxPins} (h : s.fsm = .wAddr)
    (hl : s.seq.toNat + sel.length = 6) (hne : sel ≠ []) (htx : s.txIn = sel ++ rest) (hacc : AllAccepted sel) :
    repeatRow (rowWriteAddr a) 6 s = .moved { s with
      seq := 5, dly := s.par.tWrite, fsm := .wDly1, txIn := rest
      wire := s.wire ++ sent ((writeAddrBytes s.par a).drop s.seq.toNat) } := by
  rw [repeatRow_send (rowWriteAddr a) (writeAddrBytes s.par a)
    (fun t => .moved { t with dly := t.par.periods .tWrite, fsm := .wDly1 }) trapTxFail
    (by rw [writeAddrBytes_length]; omega) sel rest s 6 (by omega) hne htx hacc
    (by rw [writeAddrBytes_length]; exact hl)
    (fun t _ hp _ _ => by simp only [rowWriteAddr, hp]) (fun t ht => by simp [Tick.Leaves, h])]
  rfl

theorem writeValue_sent {s : State} (v : Byte) {sel rest : List TxPins} (h : s.fsm = .wValue)
    (hl : s.seq.toNat + sel.length = (dec v).length + 2) (hne : sel ≠ []) (htx : s.txIn = sel ++ rest)
    (hacc : AllAccepted sel) :
    repeatRow (rowWriteValue v) 5 s = .moved { s with
      seq := BitVec.ofNat 3 ((dec v).length + 1), dly := s.par.tWrite, fsm := .wDly2, txIn := rest
      wire := s.wire ++ sent ((writeValueBytes v).drop s.seq.toNat) } := by
  have hd := dec_length v
  have hw := writeValueBytes_length v
  rw [repeatRow_send (rowWriteValue v) (writeValueBytes v)
    (fun t => .moved { t with dly := t.par.periods .tWrite, fsm := .wDly2 }) trapTxFail
    (by omega) sel rest s 5 (by omega) hne htx hacc (by omega)
    (fun t _ hp _ _ => by simp only [rowWriteValue]) (fun t ht => by simp [Tick.Leaves, h])]
  rw [hw]
  rfl

theorem init5_sent {s : State} {sel rest : List TxPins} (h : s.fsm = .init5) (hl : s.seq.toNat + sel.length = 2)
    (hne : sel ≠ []) (htx : s.txIn = sel ++ rest) (hacc : AllAccepted sel) :
    repeatRow rowInit5 2 s = .moved { s with
      seq := 1, dly := s.par.tInit, fsm := .initDly2, txIn := rest
      wire := s.wire ++ sent (init5Bytes.drop s.seq.toNat) } := by
  rw [repeatRow_send rowInit5 init5Bytes (fun t => .moved { t with dly := t.par.periods .tInit, fsm := .initDly2 })
    trapTxFail (by decide) sel rest s 2 (by omega) hne htx hacc (by rw [init5Bytes_length]; exact hl)
    (fun t _ _ _ _ => by simp only [rowInit5]) (fun t ht => by simp [Tick.Leaves, h])]
  rfl

/-! ## The end of the exit (R176) -/

theorem finishExit_commit {s : State} (h : s.ep = 0) :
    finishExit s = .moved { s with
      v := s.v ||| BitVec.twoPow 1024 (idx s.addrR).toNat
      dm := Memory.writeBytes s.dm (rowBase (idx s.addrR)) s.fb.toList
      fsm := .idle
      rsp := s.rsp ++ [.okByte (s.fb[(off s.addrR).toNat]'(off s.addrR).isLt)] } := by
  have h' : s.ep = causeNone := h
  have hb : (s.fill s.idxR).readByte (s.fill s.idxR).addrR = some (s.fb[(off s.addrR).toNat]'(off s.addrR).isLt) :=
    fill_readByte s s.addrR
  unfold finishExit
  rw [if_pos h']
  dsimp only
  rw [hb]
  rfl

theorem finishExit_trap {s : State} (h : s.ep ≠ 0) : finishExit s = .moved (s.trap s.ep) := by
  have h' : s.ep ≠ causeNone := h
  rw [finishExit, if_neg h']

theorem finishExit_leaves {s : State} : (finishExit s).Leaves .rmExit := by
  unfold finishExit
  split
  · dsimp only
    split <;> simp [Tick.Leaves]
  · simp [Tick.Leaves]

/-- The exit is sent whole, or is empty. -/
theorem exit_sent {s : State} {sel rest : List TxPins} (hp : s.par.wf) (h : s.fsm = .rmExit)
    (hl : s.seq.toNat + sel.length = s.par.exitReadSeq.length) (hne : s.par.exitReadSeq ≠ [] → sel ≠ [])
    (htx : s.txIn = sel ++ rest) (hacc : AllAccepted sel) (n : Nat) (hn : sel.length < n) :
    repeatRow rowExitRead n s = finishExit { s with
      txIn := rest, seq := BitVec.ofNat 3 (s.par.exitReadSeq.length - 1)
      wire := s.wire ++ sent (s.par.exitReadSeq.drop s.seq.toNat) } := by
  by_cases c : s.par.exitReadSeq = []
  · obtain ⟨n, rfl⟩ : ∃ k, n = k + 1 := ⟨n - 1, by omega⟩
    rw [c] at hl
    simp only [List.length_nil, Nat.add_eq_zero_iff] at hl
    obtain rfl := List.eq_nil_of_length_eq_zero hl.2
    have hq : s.seq = 0 := BitVec.eq_of_toNat_eq hl.1
    have hr : rowExitRead s = finishExit s := by simp [rowExitRead, c]
    have e : BitVec.ofNat 3 (s.par.exitReadSeq.length - 1) = s.seq := by rw [c, hq]; rfl
    have htx' : s.txIn = rest := by simpa using htx
    rw [repeatRow_leaves (by rw [hr, h]; exact finishExit_leaves), hr, e, ← htx']
    simp [c, sent]
  · rw [repeatRow_send rowExitRead s.par.exitReadSeq finishExit failExit hp sel rest s n (by omega) (hne c) htx hacc hl
      (fun t _ hp _ _ => by simp only [rowExitRead, hp, if_neg c]) (fun t ht => by rw [h]; exact finishExit_leaves)]
    rfl

/-- The exit is cut (R176). -/
theorem exit_cut {s : State} {sel rest : List TxPins} {q : TxPins} (hp : s.par.wf) (h : s.fsm = .rmExit)
    (hl : s.seq.toNat + sel.length < s.par.exitReadSeq.length) (htx : s.txIn = sel ++ q :: rest)
    (hacc : AllAccepted sel) (hq : q.outcome = .failed) (n : Nat) (hn : sel.length < n) :
    repeatRow rowExitRead n s = failExit { s with
      txIn := rest, wire := s.wire ++ sent ((s.par.exitReadSeq.drop s.seq.toNat).take sel.length)
      seq := s.seq + BitVec.ofNat 3 sel.length } := by
  have c : s.par.exitReadSeq ≠ [] := by intro c; simp [c] at hl
  rw [repeatRow_send_cut rowExitRead s.par.exitReadSeq finishExit failExit hp sel rest q hq s n hn htx hacc hl
    (fun t _ hp _ _ => by simp only [rowExitRead, hp, if_neg c]) (fun t ht => by simp [failExit, Tick.Leaves, h])]
  rfl

/-! ## A command cut, as a visit -/

/-- A sending state whose command is cut: the bytes before the failing one stay sent (R140). -/
theorem visit_cut {s : State} {row : State → Tick} {cmd : List Byte} {f g : State → Tick} {sel rest : List TxPins}
    {q : TxPins}
    (hrow : ∀ t : State, t.fsm = s.fsm → t.par = s.par → t.addrR = s.addrR → t.wdataR = s.wdataR →
      row t = sendRow cmd f g t)
    (h : ∀ t : State, t.fsm = s.fsm → t.addrR = s.addrR → t.wdataR = s.wdataR → row t = rowOf t)
    (hg : ∀ t : State, t.fsm = s.fsm → (g t).Leaves s.fsm) (hlen : cmd.length ≤ 7) (hn : sel.length < s.visitBound)
    (hl : s.seq.toNat + sel.length < cmd.length) (htx : s.txIn = sel ++ q :: rest) (hacc : AllAccepted sel)
    (hq : q.outcome = .failed) :
    visit s = g { s with
      txIn := rest
      wire := s.wire ++ ((cmd.drop s.seq.toNat).take sel.length).map .tx
      seq := s.seq + BitVec.ofNat 3 sel.length } := by
  rw [visit_of h]
  exact repeatRow_send_cut row cmd f g hlen sel rest q hq s _ hn htx hacc hl hrow hg

/-! ## Waiting, as a visit -/

/-- Every state but `S_IDLE` has a row to take. -/
theorem visitBound_pos {s : State} (h : s.fsm ≠ .idle) : ∃ n, s.visitBound = n + 1 := by
  unfold State.visitBound
  split <;> first | exact ⟨_, rfl⟩ | exact absurd ‹_› h

/-- A row that waits is the whole visit (R193). -/
theorem visit_waits {s t : State} (h : s.fsm ≠ .idle) (hr : rowOf s = .waits t) : visit s = .waits t := by
  obtain ⟨n, hn⟩ := visitBound_pos h
  rw [visit, hn, repeatRow_leaves (by rw [hr]; trivial), hr]

/-- A sending state whose byte is not taken waits at it: the bytes before it stay sent (R58, R140). -/
theorem visit_send_wait {s : State} {row : State → Tick} {cmd : List Byte} {f g : State → Tick} {sel rest : List TxPins}
    (hrow : ∀ t : State, t.fsm = s.fsm → t.par = s.par → t.addrR = s.addrR → t.wdataR = s.wdataR →
      row t = sendRow cmd f g t)
    (h : ∀ t : State, t.fsm = s.fsm → t.addrR = s.addrR → t.wdataR = s.wdataR → row t = rowOf t)
    (hlen : cmd.length ≤ 7) (hn : sel.length < s.visitBound) (hl : s.seq.toNat + sel.length < cmd.length)
    (htx : s.txIn = sel ++ rest) (hacc : AllAccepted sel)
    (hw : rest = [] ∨ ∃ p qs, rest = p :: qs ∧ p.outcome = .blocked) :
    visit s = .waits { s with
      txIn := rest.tail
      wire := s.wire ++ ((cmd.drop s.seq.toNat).take sel.length).map .tx
      seq := s.seq + BitVec.ofNat 3 sel.length } := by
  rw [visit_of h]
  exact repeatRow_send_wait row cmd f g hlen sel rest hw s _ hn htx hacc hl hrow

/-! ## The payload, as visits -/

/-- The payload is drained to its end beat (R97, R181). -/
theorem visit_drain {s : State} {beats rest : List PayPins} {e : PayPins} (h : s.fsm = .lsavDrain)
    (hp : s.payIn = beats ++ e :: rest) (hb : ∀ p ∈ beats, p.valid = true ∧ p.last = false)
    (he : e.valid = true ∧ e.last = true) :
    visit s = .moved { s with payIn := rest, rsp := s.rsp ++ [.ok], fsm := .idle } := by
  have hv : s.visitBound = s.payIn.length + 1 := by simp [State.visitBound, h]
  rw [visit, hv]
  exact repeatRow_drain rowOf beats rest e he s _ (by rw [hp]; simp) hp hb h (fun t ht => by simp only [rowOf, ht, h])

/-- The payload is drained as far as it has come (R97, R193). -/
theorem visit_drain_wait {s : State} {beats rest : List PayPins} (h : s.fsm = .lsavDrain)
    (hp : s.payIn = beats ++ rest) (hb : ∀ p ∈ beats, p.valid = true ∧ p.last = false)
    (hw : rest = [] ∨ ∃ p qs, rest = p :: qs ∧ p.valid = false) :
    visit s = .waits { s with payIn := rest.tail } := by
  have hv : s.visitBound = s.payIn.length + 1 := by simp [State.visitBound, h]
  rw [visit, hv]
  exact repeatRow_drain_wait rowOf beats rest hw s _ (by rw [hp]; simp) hp hb
    (fun t ht => by simp only [rowOf, ht, h])

/-! ## One-byte commands, delays, and the invalidation, as visits -/

theorem visit_enterRead {s : State} {p : TxPins} {rest : List TxPins} (h : s.fsm = .rmEnter) (htx : s.txIn = p :: rest)
    (hp : p.outcome = .accepted) :
    visit s = .moved { s with ep := 0, fsm := .burstTrig, txIn := rest, wire := s.wire ++ [.tx 0x30] } := by
  rw [visit_rmEnter h, repeatRow_leaves] <;>
    simp [rowEnterRead, offer_accepted htx hp, causeNone, tokEnterRead, Tick.Leaves, h]

theorem visit_triggerBurst {s : State} {p : TxPins} {rest : List TxPins} (h : s.fsm = .burstTrig)
    (htx : s.txIn = p :: rest) (hp : p.outcome = .accepted) :
    visit s = .moved { s with cnt := 0, fsm := .burstRx, txIn := rest, wire := s.wire ++ [.tx 0x52] } := by
  rw [visit_burstTrig h, repeatRow_leaves] <;>
    simp [rowTriggerBurst, offer_accepted htx hp, tokTrigger, Tick.Leaves, h]

theorem visit_triggerBurst_failed {s : State} {p : TxPins} {rest : List TxPins} (h : s.fsm = .burstTrig)
    (htx : s.txIn = p :: rest) (hp : p.outcome = .failed) :
    visit s = .moved { s with
      cnt := 0, ep := 1, fstate := 7, fcnt := 0, seq := 0, fsm := .rmExit, txIn := rest } := by
  rw [visit_burstTrig h, repeatRow_leaves] <;>
    simp [rowTriggerBurst, offer_failed htx hp, Tick.Leaves, h, holdError, State.note, causeTxFail, Fsm.code]

theorem visit_initG_sent {s : State} {p : TxPins} {rest : List TxPins} (h : s.fsm = .initG) (htx : s.txIn = p :: rest)
    (hp : p.outcome = .accepted) :
    visit s = .moved { s with
      dly := s.par.tInit, fsm := .initDly1, txIn := rest, wire := s.wire ++ [.tx 0x47] } := by
  rw [visit_initG h, repeatRow_leaves] <;>
    simp [rowInitG, offer_accepted htx hp, tokInitG, Tick.Leaves, h, Params.periods]

/-- A delay state is left in one visit, whatever its counter held. -/
theorem visit_delay {s : State} {p : DelayParam} {next : State → State} (hb : s.visitBound = s.dly + 1)
    (hrow : ∀ t : State, t.fsm = s.fsm → rowOf t = rowDelay p next t)
    (hn : ∀ t : State, t.fsm = s.fsm → (next t).fsm ≠ s.fsm) :
    visit s = .moved (next { s with dly := 0, wire := s.wire ++ [.delay p] }) := by
  unfold visit
  rw [hb, repeatRow_delay rowOf p next s.dly s rfl hrow hn]

theorem visit_inval {s : State} (h : s.fsm = .inval) :
    visit s = .moved { s with v := 0, dm := [], rsp := s.rsp ++ [.ok], fsm := .idle } := by
  have hb : s.visitBound = 1 := by simp [State.visitBound, h]
  have hr : rowOf s = .moved { s with v := 0, dm := [], rsp := s.rsp ++ [.ok], fsm := .idle } := by
    simp only [rowOf, h]; rfl
  unfold visit
  rw [hb, repeatRow_moved_leave hr (by simp [h])]

end Sys2Proof.Machine
end

