-- ==== Sys2Proof/Laws/PerInstr.lean ====
section
/-! SUPPORT. One statement about every instruction as syntax: its encoding has the interface, the code and the length the
opcode table gives its row (spec/30_encoding.md R80, R81, R93). -/

namespace Sys2Proof.Laws.EncodingShape

open Sys2Proof Sys2Proof.Machine

/-- A row of spec/opcode_table.json: its interface, its fixed code, its length. -/
inductive Row where
  /-- A host request word with this operation code (R93). -/
  | host (op : BitVec 3)
  /-- A byte string with this first byte, where the table fixes one, and this least and greatest length (R81). -/
  | wire (token : Option Byte) (least greatest : Nat)

/-- The row of each instruction. EXIT_READ's bytes are a parameter (R84). -/
def row : Instr → Row
  | .read _ => .host 0
  | .wrom _ _ => .host 1
  | .wram _ _ => .host 2
  | .gsav => .host 3
  | .lsav => .host 4
  | .reserved5 => .host 5
  | .reserved6 => .host 6
  | .reserved7 => .host 7
  | .enterRead => .wire (some 0x30) 1 1
  | .selectAddress _ => .wire (some 0x41) 6 6
  | .triggerBurst => .wire (some 0x52) 1 1
  | .writeAddr _ => .wire (some 0x42) 6 6
  | .writeValue _ => .wire (some 0x42) 3 5
  | .initG => .wire (some 0x47) 1 1
  | .init5 => .wire (some 0x35) 2 2
  | .exitRead => .wire none 0 7

/-- The encoding is what its row says. -/
def Statement (i : Instr) : Prop :=
  ∀ p : Params, p.wf →
    match row i, encode p i with
    | .host op, .request w => reqOp w = op
    | .wire tok least greatest, .wire bs =>
      (tok.isSome → bs.head? = tok) ∧ least ≤ bs.length ∧ bs.length ≤ greatest
    | .host _, .wire _ => False
    | .wire _ _ _, .request _ => False

theorem reqOp_requestWord (op : BitVec 3) (a : Addr) (v : Byte) : reqOp (requestWord op a v) = op := by
  apply BitVec.eq_of_toNat_eq
  have := op.isLt
  have := a.isLt
  have := v.isLt
  simp only [reqOp, requestWord, BitVec.extractLsb'_toNat, BitVec.toNat_append, Nat.shiftRight_eq_div_pow,
    Nat.shiftLeft_eq]
  rw [← Nat.shiftLeft_eq, ← Nat.shiftLeft_eq, ← Nat.shiftLeft_add_eq_or_of_lt (by omega),
    ← Nat.shiftLeft_add_eq_or_of_lt (by omega), Nat.shiftLeft_eq, Nat.shiftLeft_eq]
  omega

theorem read (a : Addr) : Statement (.read a) := fun _ _ => reqOp_requestWord 0 a 0
theorem wrom (a : Addr) (v : Byte) : Statement (.wrom a v) := fun _ _ => reqOp_requestWord 1 a v
theorem wram (a : Addr) (v : Byte) : Statement (.wram a v) := fun _ _ => reqOp_requestWord 2 a v
theorem gsav : Statement .gsav := fun _ _ => reqOp_requestWord 3 0 0
theorem lsav : Statement .lsav := fun _ _ => reqOp_requestWord 4 0 0
theorem reserved5 : Statement .reserved5 := fun _ _ => reqOp_requestWord 5 0 0
theorem reserved6 : Statement .reserved6 := fun _ _ => reqOp_requestWord 6 0 0
theorem reserved7 : Statement .reserved7 := fun _ _ => reqOp_requestWord 7 0 0
theorem enterRead : Statement .enterRead := fun _ _ => ⟨fun _ => rfl, le_refl _, le_refl _⟩
theorem selectAddress (a : Addr) : Statement (.selectAddress a) := fun _ _ => ⟨fun _ => rfl, le_refl _, le_refl _⟩
theorem triggerBurst : Statement .triggerBurst := fun _ _ => ⟨fun _ => rfl, le_refl _, le_refl _⟩
theorem writeAddr (a : Addr) : Statement (.writeAddr a) := fun _ _ => ⟨fun _ => rfl, le_refl _, le_refl _⟩

theorem writeValue (v : Byte) : Statement (.writeValue v) := by
  intro _ _
  have h := dec_length v
  have hw := writeValueBytes_length v
  exact ⟨fun _ => rfl, by omega, by omega⟩

theorem initG : Statement .initG := fun _ _ => ⟨fun _ => rfl, le_refl _, le_refl _⟩
theorem init5 : Statement .init5 := fun _ _ => ⟨fun _ => rfl, le_refl _, le_refl _⟩
theorem exitRead : Statement .exitRead := fun _ h => ⟨fun c => by simp at c, Nat.zero_le _, h⟩

end Sys2Proof.Laws.EncodingShape
end

