-- ==== Sys2Proof/Tests/Slice0.lean ====
section
/-! SUPPORT. Tests on fixed values, their expected results taken from spec/95_test_vectors.md and the encoding rules, and for
each statement with hypotheses a witness that meets them. -/

namespace Sys2Proof.Tests

open Sys2Proof Sys2Proof.Machine Sys2Proof.Safety

/-! ## Helpers -/

/-- A machine that sends no start-up sequence and has short delays. -/
def quick : Params where
  hexUpper := false
  exitReadSeq := [0x30]
  initOnReset := false
  tWrite := 2
  tInit := 2

/-- An answer that accepts the byte. -/
def yes : TxPins := ⟨true, false⟩
/-- An answer that fails the byte. -/
def no : TxPins := ⟨false, true⟩
/-- A reply byte. -/
def gives (b : Byte) : RxPins := ⟨true, b, false, false⟩
/-- A read error. -/
def broken : RxPins := ⟨false, 0, true, false⟩
/-- The end of the reply stream. -/
def ended : RxPins := ⟨false, 0, false, true⟩
/-- A payload beat with a byte. -/
def beat (b : Byte) : PayPins := ⟨true, b, false⟩
/-- The end beat. -/
def lastBeat : PayPins := ⟨true, 0, true⟩

/-- An answer that blocks the byte. -/
def busy : TxPins := ⟨false, false⟩
/-- Reply pins that signal nothing. -/
def quiet : RxPins := ⟨false, 0x5A, false, false⟩
/-- Payload pins without a beat. -/
def noBeat : PayPins := ⟨false, 0x5A, true⟩

/-- The bytes `00 01 .. n-1`. -/
def count (n : Nat) : List Byte := (List.range n).map (BitVec.ofNat 8)

/-- The block `00 01 .. 3F`. -/
def block : Vector Byte 64 := Vector.ofFn fun k => BitVec.ofNat 8 k.val

/-- Right after reset. -/
def start : State := State.resetWith quick

/-- After reset, with answers and reply bytes to come. -/
def fed (tx : List TxPins) (rx : List RxPins) : State := { start with txIn := tx, rxIn := rx }

/-- In a given sequencer state. -/
def at_ (q : Fsm) (tx : List TxPins) : State := { start with fsm := q, txIn := tx }

/-- Block 1 is cached with `00 .. 3F`, as a READ of it leaves the block. -/
def cached : State :=
  { ({ start with fb := block, cnt := 64, addrR := 0x0045 } : State).fill 1 with
    wire := fetchTrace quick 1 block.toList ++ sent [0x30], rsp := [.okByte 5] }

/-- The fault of a short read, as it stands in `S_IDLE`. -/
def faulted : State := { start with fault := true, cause := 3, fstate := 8, fcnt := 10 }

/-- The state of an outcome. -/
def after : Host.Outcome State Fault Refusal → Option State
  | .next s => some s
  | .fault _ => none
  | .refused _ => none

/-- The wire and the responses an outcome leaves. -/
def shown (o : Host.Outcome State Fault Refusal) : Option (List Wire × List Response) :=
  (after o).map fun s => (s.wire, s.rsp)

/-- The status registers an outcome leaves. -/
def status (o : Host.Outcome State Fault Refusal) : Option (Bool × Nat × Nat × Nat) :=
  (after o).map fun s => (s.fault, s.cause.toNat, s.fstate.toNat, s.fcnt.toNat)

/-! ## Well-formedness -/

/-- R60, R130: a selected address is 64-aligned. -/
theorem test_wellFormed_selectAddress :
    ¬ (Instr.selectAddress 0x0045).WellFormed ∧ ¬ (Instr.selectAddress 0xFFFF).WellFormed ∧
      (Instr.selectAddress 0x0040).WellFormed ∧ (Instr.selectAddress 0xFFC0).WellFormed := by decide

/-! ## Decoding, words written out from R93 and from 95_test_vectors 2.4 and 2.6 -/

theorem test_decode_read : decodeRequest 0b000_0000000001000101_00000000 = .read 0x0045 := by decide
theorem test_decode_read_ignores_data : decodeRequest 0b000_1111111111111111_11111111 = .read 0xFFFF := by decide
theorem test_decode_wrom : decodeRequest 0b001_0010000000000000_00000001 = .wrom 0x2000 1 := by decide
theorem test_decode_wram : decodeRequest 0b010_1010000100100011_11111111 = .wram 0xA123 0xFF := by decide
theorem test_decode_gsav : decodeRequest 0b011_0000000000000000_00000000 = .gsav := by decide
theorem test_decode_gsav_ignores_fields : decodeRequest 0b011_1111111111111111_11111111 = .gsav := by decide
theorem test_decode_lsav : decodeRequest 0b100_0000000000000000_00000000 = .lsav := by decide
theorem test_decode_reserved5 : decodeRequest 0b101_1111111111111111_11111111 = .reserved5 := by decide
theorem test_decode_reserved6 : decodeRequest 0b110_0000000000000000_00000000 = .reserved6 := by decide
theorem test_decode_reserved7 : decodeRequest 0b111_0000000000000000_00000000 = .reserved7 := by decide

theorem test_decode_enterRead : decode quick .listening (.wire [0b00110000]) = .ok .enterRead := by decide
theorem test_decode_selectAddress :
    decode quick .listening (.wire [0x41, 0x66, 0x66, 0x63, 0x30, 0x00]) = .ok (.selectAddress 0xFFC0) := by decide
theorem test_decode_triggerBurst : decode quick .readMode (.wire [0x52]) = .ok .triggerBurst := by decide
theorem test_decode_writeAddr :
    decode quick .listening (.wire [0x42, 0x61, 0x31, 0x32, 0x33, 0x00]) = .ok (.writeAddr 0xA123) := by decide
theorem test_decode_writeValue_one_digit : decode quick .value (.wire [0x42, 0x30, 0x00]) = .ok (.writeValue 0) := by
  decide
theorem test_decode_writeValue_three_digits :
    decode quick .value (.wire [0x42, 0x32, 0x35, 0x35, 0x00]) = .ok (.writeValue 255) := by decide
theorem test_decode_initG : decode quick .listening (.wire [0x47]) = .ok .initG := by decide
theorem test_decode_init5 : decode quick .listening (.wire [0x35, 0x00]) = .ok .init5 := by decide
theorem test_decode_exitRead : decode quick .streaming (.wire [0x30]) = .ok .exitRead := by decide

/-- R91: with `HEX_UPPER` the digits are `A` to `F` and no others. -/
theorem test_decode_letter_case :
    decode { quick with hexUpper := true } .listening (.wire [0x42, 0x41, 0x31, 0x32, 0x33, 0x00]) =
        .ok (.writeAddr 0xA123) ∧
      decode quick .listening (.wire [0x42, 0x41, 0x31, 0x32, 0x33, 0x00]) = .error .badDigit := by decide

/-- R92, R96: numerals the value phase never carries. -/
theorem test_decode_bad_numerals :
    decode quick .value (.wire [0x42, 0x30, 0x31, 0x00]) = .error .badNumeral ∧
      decode quick .value (.wire [0x42, 0x32, 0x35, 0x36, 0x00]) = .error .badNumeral ∧
      decode quick .value (.wire [0x42, 0x00]) = .error .badLength ∧
      decode quick .value (.wire [0x42, 0x31, 0x30, 0x30, 0x30, 0x00]) = .error .badLength := by decide

/-- R80, R81, R95: no token, no terminator, an address of three digits, bytes too many. -/
theorem test_decode_no_command :
    decode quick .listening (.wire []) = .error .empty ∧
      decode quick .listening (.wire [0x51]) = .error .unknownToken ∧
      decode quick .listening (.wire [0x41, 0x30, 0x30, 0x34, 0x30]) = .error .noTerminator ∧
      decode quick .listening (.wire [0x41, 0x30, 0x34, 0x30, 0x00]) = .error .badLength ∧
      decode quick .listening (.wire [0x47, 0x47]) = .error .trailing := by decide

/-- The formatters (95_test_vectors 2.2, 2.3). -/
theorem test_formatters :
    hex4 false 0x0ABC = [0x30, 0x61, 0x62, 0x63] ∧ hex4 true 0x0ABC = [0x30, 0x41, 0x42, 0x43] ∧
      hex4 false 0x0040 = [0x30, 0x30, 0x34, 0x30] ∧ dec 0 = [0x30] ∧ dec 9 = [0x39] ∧ dec 10 = [0x31, 0x30] ∧
      dec 99 = [0x39, 0x39] ∧ dec 101 = [0x31, 0x30, 0x31] ∧ dec 200 = [0x32, 0x30, 0x30] := by decide

/-- The address parts (95_test_vectors 2.1). -/
theorem test_address_parts :
    base 0x4ABC = 0x4A80 ∧ idx 0x4ABC = 298 ∧ off 0x4ABC = 60 ∧ base 0xFFFF = 0xFFC0 ∧ idx 0xFFFF = 1023 ∧
      off 0xFFFF = 63 := by decide

/-- Response words (95_test_vectors 2.6). -/
theorem test_response_words :
    Response.isWord (.okByte 5) 0x0005 ∧ Response.isWord (.fatal 3) 0x0B00 ∧ Response.isWord (.fatal 3) 0x0BFF ∧
      Response.isWord .illegal 0x1000 ∧ ¬ Response.isWord (.okByte 5) 0x0006 := by decide

/-! ## Operations (95_test_vectors 2.6) -/

theorem test_read_miss :
    shown (exec (.read 0x0045) (fed (List.replicate 9 yes) (block.toList.map gives))) =
      some (sent [0x41, 0x30, 0x30, 0x34, 0x30, 0x00, 0x30, 0x52] ++ block.toList.map .rx ++ sent [0x30],
        [.okByte 5]) := by decide +kernel

theorem test_read_hit : (shown (exec (.read 0x007F) cached)).map Prod.snd = some [.okByte 5, .okByte 0x3F] := by
  decide +kernel

theorem test_wrom :
    shown (exec (.wrom 0x2000 1) (fed (List.replicate 9 yes) [])) =
      some (sent [0x42, 0x32, 0x30, 0x30, 0x30, 0x00] ++ [.delay .tWrite] ++ sent [0x42, 0x31, 0x00] ++ [.delay .tWrite],
        [.ok]) := by decide +kernel

theorem test_wrom_invalidates :
    (after (exec (.wrom 0x0045 0x99) { cached with txIn := List.replicate 11 yes })).map (fun s => (s.v, s.dm)) =
      some (0, []) := by decide +kernel

theorem test_wram :
    shown (exec (.wram 0x0000 0) (fed (List.replicate 9 yes) [])) =
      some (sent [0x42, 0x30, 0x30, 0x30, 0x30, 0x00] ++ [.delay .tWrite] ++ sent [0x42, 0x30, 0x00] ++ [.delay .tWrite],
        [.ok]) := by decide +kernel

theorem test_gsav : shown (exec .gsav start) = some ([], [.ok]) := by decide +kernel

theorem test_lsav : shown (exec .lsav { start with payIn := [beat 0xDE, beat 0xAD, lastBeat] }) = some ([], [.ok]) := by
  decide +kernel

theorem test_lsav_empty : shown (exec .lsav { start with payIn := [lastBeat] }) = some ([], [.ok]) := by decide +kernel

theorem test_reserved5 : shown (exec .reserved5 start) = some ([], [.illegal]) := by decide +kernel
theorem test_reserved6 : shown (exec .reserved6 start) = some ([], [.illegal]) := by decide +kernel
theorem test_reserved7 : shown (exec .reserved7 start) = some ([], [.illegal]) := by decide +kernel

/-! ## Errors (95_test_vectors 2.7) -/

/-- E1: the selection is cut. -/
theorem test_select_cut :
    shown (exec (.read 0x0100) (fed [yes, yes, yes, no, yes] [])) = some (sent [0x41, 0x30, 0x31], [.fatal 1]) ∧
      status (exec (.read 0x0100) (fed [yes, yes, yes, no, yes] [])) = some (true, 1, 5, 0) := by decide +kernel

/-- E4: the trigger and the exit fail. -/
theorem test_trigger_and_exit_fail :
    shown (exec (.read 0x0100) (fed (List.replicate 7 yes ++ [no, no]) [])) =
        some (sent [0x41, 0x30, 0x31, 0x30, 0x30, 0x00, 0x30], [.fatal 1]) ∧
      status (exec (.read 0x0100) (fed (List.replicate 7 yes ++ [no, no]) [])) = some (true, 1, 7, 0) := by
  decide +kernel

/-- E5: a short read. -/
theorem test_short_read :
    shown (exec (.read 0x4ABC) (fed (List.replicate 9 yes) ((count 10).map gives ++ [ended]))) =
        some (sent [0x41, 0x34, 0x61, 0x38, 0x30, 0x00, 0x30, 0x52] ++ (count 10).map .rx ++ sent [0x30], [.fatal 3]) ∧
      status (exec (.read 0x4ABC) (fed (List.replicate 9 yes) ((count 10).map gives ++ [ended]))) =
        some (true, 3, 8, 10) := by decide +kernel

/-- E7: a read error at the last byte, and then the exit fails. -/
theorem test_first_error_kept :
    status (exec (.read 0x0FC0) (fed (List.replicate 8 yes ++ [no]) ((count 63).map gives ++ [broken]))) =
      some (true, 2, 8, 63) := by decide +kernel

/-- E8: the exit fails after a whole burst. -/
theorem test_exit_fails :
    status (exec (.read 0x0100) (fed (List.replicate 8 yes ++ [no]) (block.toList.map gives))) =
      some (true, 1, 9, 64) := by decide +kernel

/-- E10: a write is cut in its value phase. -/
theorem test_value_cut :
    shown (exec (.wram 0x0000 10) (fed (List.replicate 7 yes ++ [no]) [])) =
        some (sent [0x42, 0x30, 0x30, 0x30, 0x30, 0x00] ++ [.delay .tWrite] ++ sent [0x42], [.fatal 1]) ∧
      status (exec (.wram 0x0000 10) (fed (List.replicate 7 yes ++ [no]) [])) = some (true, 1, 12, 0) := by
  decide +kernel

/-- E12: the start-up sequence fails in INIT_5. -/
theorem test_init5_fails :
    shown (exec .init5 (at_ .init5 [no])) = some ([], []) ∧ status (exec .init5 (at_ .init5 [no])) = some (true, 1, 3, 0) := by
  decide +kernel

/-- R88: `rx_valid` with `rx_eof` for the last byte is no short read. -/
theorem test_eof_with_last_byte :
    (after (exec (.read 0x0000) (fed (List.replicate 9 yes) ((count 63).map gives ++ [⟨true, 0x3F, false, true⟩])))).map
      State.rsp = some [.okByte 0] := by decide +kernel

/-! ## Wire commands (95_test_vectors 2.4) -/

theorem test_enterRead : shown (exec .enterRead (at_ .rmEnter [yes])) = some (sent [0x30], []) := by decide +kernel
theorem test_selectAddress :
    shown (exec (.selectAddress 0x0040) (at_ .addrSel (List.replicate 6 yes))) =
      some (sent [0x41, 0x30, 0x30, 0x34, 0x30, 0x00], []) := by decide +kernel
theorem test_triggerBurst : shown (exec .triggerBurst (at_ .burstTrig [yes])) = some (sent [0x52], []) := by
  decide +kernel
theorem test_writeAddr :
    shown (exec (.writeAddr 0x2000) (at_ .wAddr (List.replicate 6 yes))) =
      some (sent [0x42, 0x32, 0x30, 0x30, 0x30, 0x00], []) := by decide +kernel
theorem test_writeValue :
    shown (exec (.writeValue 10) (at_ .wValue (List.replicate 4 yes))) = some (sent [0x42, 0x31, 0x30, 0x00], []) := by
  decide +kernel
theorem test_initG : shown (exec .initG (at_ .initG [yes])) = some (sent [0x47], []) := by decide +kernel
theorem test_init5 : shown (exec .init5 (at_ .init5 [yes, yes])) = some (sent [0x35, 0x00], []) := by decide +kernel
theorem test_exitRead :
    shown (exec .exitRead { at_ .rmExit [yes] with fb := block, cnt := 64, addrR := 0x0045 }) =
      some (sent [0x30], [.okByte 5]) := by decide +kernel

/-! ## The opcode table's words (log 11) -/

theorem test_table_words :
    decodeTableWord 32 0x1200001 = some (.wrom 0x2000 1) ∧ decodeTableWord 8 0x30 = some .enterRead ∧
      decodeTableWord 8 0x47 = some .initG ∧ decodeTableWord 16 0x0035 = some .init5 ∧
      decodeTableWord 8 0x52 = some .triggerBurst ∧
      decodeTableWord 48 0x003034303041 = some (.selectAddress 0x0040) ∧ decodeTableWord 8 0x41 = none := by
  decide +kernel

theorem test_withFetchWord_runs :
    shown (step (State.reset.withFetchWord 32 0x3000000)) = some ([], [.ok]) ∧
      status (step (State.reset.withFetchWord 8 0x30)) = some (false, 0, 0, 0) := by decide +kernel

theorem test_reset_memory_wf : Memory.wf State.reset.dm := by decide

/-! ## Witnesses: states and operands that meet the hypotheses of each statement -/

theorem next_of {o : Host.Outcome State Fault Refusal} (h : (after o).isSome = true) : ∃ t, o = .next t := by
  cases o with
  | next t => exact ⟨t, rfl⟩
  | fault _ => simp [after] at h
  | refused _ => simp [after] at h

/-- Block 1 is cached, and the host asks for block 0; the device answers. -/
def refetching : State :=
  { cached with hostIn := [⟨true, requestWord 0 0x0010 0⟩], txIn := List.replicate 9 yes, rxIn := block.toList.map gives }

theorem witness_DecimalNumeral : (7 : Byte) ≠ 0 ∧ (0 : Byte) = 0 := by decide

theorem witness_OfferedByteIsSent :
    ∃ t, transition (at_ .rmEnter [yes]) = .moved t ∧ t.wire = (at_ .rmEnter [yes]).wire ++ [.tx 0x30] := ⟨_, rfl, rfl⟩

theorem witness_BurstDirection_row :
    ∃ t, transition { at_ .burstRx [] with rxIn := [gives 7] } = .moved t ∧ t.wire = [.rx 7] := ⟨_, rfl, rfl⟩

theorem witness_BurstDirection_waits : ∃ t, transition (at_ .burstTrig []) = .waits t := ⟨_, rfl⟩

theorem witness_ResetValues : Params.default.initOnReset = true ∧ quick.initOnReset = false := by decide

theorem witness_ResetStep : ({ refetching with rstIn := [true, false] } : State).rstIn = true :: [false] := by decide

theorem witness_InvAtReset : Params.default.wf ∧ ({ quick with exitReadSeq := List.replicate 7 0x30 } : Params).wf := by
  decide

theorem inv_start : Inv start := by
  refine ⟨by decide, ⟨Memory.wf_nil, fun a => by simp [start, State.resetWith]⟩, trivial, ?_, ?_⟩
  · unfold LatchInv; decide +kernel
  · unfold StatusInv; decide +kernel

theorem inv_cached : Inv cached := by
  have h : CacheInv (({ start with fb := block, cnt := 64, addrR := 0x0045 } : State).fill 1) :=
    fill_cacheInv 1 inv_start.2.1
  refine ⟨by decide, h, trivial, ?_, ?_⟩
  · unfold LatchInv; decide +kernel
  · unfold StatusInv; decide +kernel

theorem inv_faulted : Inv faulted := by
  refine ⟨by decide, inv_start.2.1, trivial, ?_, ?_⟩
  · unfold LatchInv; decide +kernel
  · unfold StatusInv; decide +kernel

/-- Block 1 is cached and the burst of block 0 is under way. -/
def receiving : State :=
  { cached with
    fsm := .burstRx, cnt := 0, addrR := 0x0010, rxIn := block.toList.map gives,
    wire := cached.wire ++ fetchTrace quick 0 [] }

theorem inv_receiving : Inv receiving := by
  refine ⟨by decide, inv_cached.2.1, ?_, ?_, ?_⟩
  · show receiving.cnt.toNat < 64; decide +kernel
  · unfold LatchInv; decide +kernel
  · unfold StatusInv; decide +kernel

theorem cached_valid (i : BitVec 10) (h : cached.valid i = true) : i = 1 := by
  have h' : (({ start with fb := block, cnt := 64, addrR := 0x0045 } : State).fill 1).valid i = true := h
  rw [fill_valid] at h'
  have h0 : ({ start with fb := block, cnt := 64, addrR := 0x0045 } : State).valid i = false := by
    simp [State.valid, start, State.resetWith]
  rw [h0] at h'
  exact (by simpa using h' : 1 = i).symm

theorem cached_row (k : Nat) (h : k < 64) : Memory.read cached.dm (rowBase 1 + k) = block.toList[k]? := by
  have e : Memory.read cached.dm (rowBase 1 + k) = some block[k] :=
    fill_read_row ({ start with fb := block, cnt := 64, addrR := 0x0045 } : State) 1 k h
  rw [e]
  simp [h]

theorem witness_InvStep : Inv receiving ∧ (∃ t, step receiving = .next t) ∧ receiving.valid 1 = true :=
  ⟨inv_receiving, next_of (by decide +kernel), by decide +kernel⟩

theorem witness_StepAnswersNext : Inv cached ∧ Inv receiving ∧ Inv faulted := ⟨inv_cached, inv_receiving, inv_faulted⟩

theorem witness_WireHistoryStep :
    Inv receiving ∧ FetchOnWire receiving ∧ CacheOnWire receiving ∧ receiving.valid 1 = true ∧
      ∃ t, step receiving = .next t := by
  refine ⟨inv_receiving, ⟨cached.wire, by decide +kernel⟩, fun i h => ?_, by decide +kernel, next_of (by decide +kernel)⟩
  obtain rfl := cached_valid i h
  exact ⟨[], block.toList, fetchTrace quick 0 [], by decide +kernel, cached_row, by decide +kernel,
    fun _ => by decide +kernel⟩

theorem witness_StepIsRunOfRows : NoReset refetching ∧ ∃ t, step refetching = .next t :=
  ⟨by decide +kernel, next_of (by decide +kernel)⟩

theorem witness_OutputsGrow : ∃ t, step refetching = .next t := next_of (by decide +kernel)

theorem witness_ObservationsUnread :
    ∃ t e f, step refetching = .next t ∧ t.wire = refetching.wire ++ e ∧ t.rsp = refetching.rsp ++ f ∧ f = [.okByte 16] := by
  obtain ⟨t, h⟩ := next_of (o := step refetching) (by decide +kernel)
  have h1 : (after (step refetching)).map (fun s => (s.wire, s.rsp)) =
      some (refetching.wire ++ (fetchTrace quick 0 block.toList ++ sent [0x30]), refetching.rsp ++ [.okByte 16]) := by
    decide +kernel
  rw [h] at h1
  simp only [after, Option.map_some, Option.some.injEq, Prod.mk.injEq] at h1
  exact ⟨t, _, _, h, h1.1, h1.2, rfl⟩

/-- In an operation, ending and waiting; in `S_IDLE` with a request, ending and waiting; in the start-up sequence. -/
theorem witness_OneResponse :
    (NoReset (at_ .inval []) ∧ (at_ .inval []).fsm.inOperation = true ∧
      (after (step (at_ .inval []))).map State.fsm = some .idle) ∧
    (NoReset (at_ .rmEnter []) ∧ (at_ .rmEnter []).fsm.inOperation = true ∧
      (after (step (at_ .rmEnter []))).map State.fsm = some .rmEnter) ∧
    (refetching.fsm = .idle ∧ refetching.hostIn = [⟨true, requestWord 0 0x0010 0⟩] ∧
      (after (step refetching)).map State.fsm = some .idle) ∧
    ((after (step { refetching with txIn := [] })).map State.fsm = some .addrSel) ∧
    (NoReset (at_ .initG [no]) ∧ (at_ .initG [no]).fsm.inOperation = false ∧ (at_ .initG [no]).fsm ≠ .idle ∧
      (after (step (at_ .initG [no]))).map State.fsm = some .idle) := by decide +kernel

/-- Each port with nothing to come, and with a sample that signals nothing. -/
theorem witness_WaitingChangesNothing :
    NoReset start ∧ start.fsm = .idle ∧ start.hostIn = [] ∧
      ({ start with hostIn := [⟨false, 0⟩] } : State).hostIn = ⟨false, 0⟩ :: [] ∧
      (∀ q ∈ [Fsm.initG, .init5, .addrSel, .rmEnter, .burstTrig, .rmExit, .wAddr, .wValue], ∀ ps ∈ [[], [busy], [busy, yes]],
        NoReset (at_ q ps) ∧ (at_ q ps).txOffer.isSome = true ∧ (at_ q ps).txIn = ps) ∧
      busy.ready = false ∧ busy.err = false ∧
      (∀ c ∈ [(0 : BitVec 7), 63], ∀ ps ∈ [[], [quiet], [quiet, gives 1]],
        let s : State := { at_ .burstRx [] with cnt := c, rxIn := ps };
        NoReset s ∧ s.fsm = .burstRx ∧ s.cnt.toNat < 64 ∧ s.rxIn = ps) ∧
      quiet.valid = false ∧ quiet.err = false ∧ quiet.eof = false ∧
      (∀ ps ∈ [[], [noBeat], [noBeat, lastBeat]],
        let s : State := { at_ .lsavDrain [] with payIn := ps };
        NoReset s ∧ s.fsm = .lsavDrain ∧ s.payIn = ps) ∧
      noBeat.valid = false := by decide +kernel

/-- R58, R59, R97: what comes after a blocked sample is not looked at in the same step. -/
theorem test_blocked_sample :
    (after (step (at_ .rmEnter [busy, yes]))).map State.txIn = some [yes] ∧
      (after (step { at_ .burstRx [] with rxIn := [quiet, gives 1] })).map State.rxIn = some [gives 1] ∧
      (after (step { at_ .lsavDrain [] with payIn := [noBeat, lastBeat] })).map State.payIn = some [lastBeat] := by
  decide +kernel

theorem witness_NotInTurn :
    (at_ .initG []).fsm ≠ .idle ∧ start.fsm ≠ .initG ∧ start.fsm ≠ .init5 ∧ start.fsm ≠ .rmEnter ∧
      start.fsm ≠ .addrSel ∧ start.fsm ≠ .burstTrig ∧ start.fsm ≠ .wAddr ∧ start.fsm ≠ .wValue ∧
      start.fsm ≠ .rmExit := by decide

theorem witness_StepRunsInstruction :
    NoReset refetching ∧ refetching.fsm = .idle ∧ refetching.hostIn = ⟨true, requestWord 0 0x0010 0⟩ :: [] ∧
      NoReset { at_ .addrSel [] with addrR := 0xFFFF } ∧
      ({ at_ .addrSel [] with addrR := 0xFFFF } : State).command = some (.selectAddress 0xFFC0) := by decide +kernel

/-- No error before; the exit without a pending error; the exit with one. -/
theorem witness_TrapEffect :
    ¬ ((at_ .burstRx []).fsm = .rmExit ∧ (at_ .burstRx []).ep ≠ 0) ∧
      ¬ ((at_ .rmExit []).fsm = .rmExit ∧ (at_ .rmExit []).ep ≠ 0) ∧
      ({ at_ .rmExit [] with ep := 3 } : State).fsm = .rmExit ∧ ({ at_ .rmExit [] with ep := 3 } : State).ep ≠ 0 := by
  decide

theorem witness_FaultRefuses : faulted.fsm = .idle ∧ faulted.fault = true := by decide

theorem witness_FaultIsSticky :
    Inv faulted ∧ NoReset faulted ∧ faulted.fault = true ∧ ∃ t, step faulted = .next t :=
  ⟨inv_faulted, by decide, rfl, next_of (by decide +kernel)⟩

/-- The entry is kept; the entry is lost to a write. -/
theorem witness_ValidEntryKept :
    (Inv receiving ∧ NoReset receiving ∧ receiving.valid 1 = true ∧ ∃ t, step receiving = .next t) ∧
      Inv cached ∧
      (after (step { cached with
        hostIn := [⟨true, requestWord 1 0 0⟩], txIn := List.replicate 9 yes })).map State.v = some 0 :=
  ⟨⟨inv_receiving, by decide +kernel, by decide +kernel, next_of (by decide +kernel)⟩, inv_cached, by decide +kernel⟩

/-- The bit of block 0 is set; nothing changes; a write empties the cache. -/
theorem witness_ValidBitsChange :
    (Inv refetching ∧ NoReset refetching ∧ refetching.lookup 0x0010 = false ∧
      (after (step refetching)).map State.v = some 3) ∧
    (Inv faulted ∧ (after (step faulted)).map State.v = some faulted.v) ∧
    (after (step { cached with
      hostIn := [⟨true, requestWord 2 0 0⟩], txIn := List.replicate 9 yes })).map State.v = some 0 :=
  ⟨⟨inv_cached, by decide +kernel, by decide +kernel, by decide +kernel⟩, ⟨inv_faulted, by decide +kernel⟩,
    by decide +kernel⟩

theorem witness_FillCommits : (0 : BitVec 10) ≠ 1 ∧ ¬ (rowBase 1 ≤ 63 ∧ 63 < rowBase 1 + 64) := by decide

theorem witness_ReadHit :
    Inv cached ∧ cached.fsm = .idle ∧ cached.fault = false ∧ cached.lookup 0x0040 = true ∧
      cached.lookup 0x007F = true := ⟨inv_cached, by decide +kernel, by decide +kernel, by decide +kernel, by decide +kernel⟩

theorem witness_ReadMiss :
    let s := fed (List.replicate 9 yes ++ [no]) (block.toList.map gives ++ [broken])
    s.par.wf ∧ s.fsm = .idle ∧ s.fault = false ∧ s.lookup 0xFFFF = false ∧
      s.txIn = List.replicate 9 yes ++ [no] ∧ (List.replicate 9 yes).length = 8 + s.par.exitReadSeq.length ∧
      AllAccepted (List.replicate 9 yes) ∧ s.rxIn = block.toList.map gives ++ [broken] ∧
      Carries (block.toList.map gives) block.toList := by decide +kernel

/-- The first byte fails; the last byte of the selection fails; ENTER_READ fails. -/
theorem witness_ReadCutBeforeBurst :
    (∀ n ∈ [0, 5, 6], let s := fed (List.replicate n yes ++ no :: [yes]) [];
      s.fsm = .idle ∧ s.fault = false ∧ s.lookup 0x0100 = false ∧ s.txIn = List.replicate n yes ++ no :: [yes] ∧
        (List.replicate n yes).length < 7 ∧ AllAccepted (List.replicate n yes)) ∧ no.outcome = .failed := by
  decide +kernel

/-- The exit goes through; the exit fails as well. -/
theorem witness_ReadTriggerFails :
    (let s := fed (List.replicate 7 yes ++ no :: ([yes] ++ [])) [];
      s.par.wf ∧ s.fsm = .idle ∧ s.fault = false ∧ s.lookup 0x0100 = false ∧
        s.txIn = List.replicate 7 yes ++ no :: ([yes] ++ []) ∧ (List.replicate 7 yes).length = 7 ∧
        AllAccepted (List.replicate 7 yes) ∧ no.outcome = .failed ∧ AllAccepted [yes] ∧
        [yes].length = s.par.exitReadSeq.length) ∧
    (let s := fed (List.replicate 7 yes ++ no :: ([] ++ [no])) [];
      s.txIn = List.replicate 7 yes ++ no :: ([] ++ [no]) ∧ ([] : List TxPins).length < s.par.exitReadSeq.length ∧
        [no].head? = some no ∧ no.outcome = .failed) := by decide +kernel

/-- A read error after 63 bytes, the end of the stream before the first; the exit goes through, or fails. -/
theorem witness_ReadBurstCut :
    (let s := fed (List.replicate 8 yes ++ [yes] ++ []) ((count 63).map gives ++ broken :: []);
      s.par.wf ∧ s.fsm = .idle ∧ s.fault = false ∧ s.lookup 0x0FC0 = false ∧
        s.txIn = List.replicate 8 yes ++ [yes] ++ [] ∧ (List.replicate 8 yes).length = 8 ∧
        AllAccepted (List.replicate 8 yes) ∧ AllAccepted [yes] ∧ [yes].length = s.par.exitReadSeq.length ∧
        s.rxIn = (count 63).map gives ++ broken :: [] ∧ Carries ((count 63).map gives) (count 63) ∧
        (count 63).length < 64 ∧ broken.outcome = .failed) ∧
    (let s := fed (List.replicate 8 yes ++ [] ++ [no]) ([] ++ ended :: []);
      s.txIn = List.replicate 8 yes ++ [] ++ [no] ∧ ([] : List TxPins).length < s.par.exitReadSeq.length ∧
        [no].head? = some no ∧ no.outcome = .failed ∧ s.rxIn = [] ++ ended :: [] ∧ Carries [] [] ∧
        ended.outcome = .ended) := by decide +kernel

theorem witness_ReadExitFails :
    let s := fed (List.replicate 8 yes ++ [] ++ no :: []) (block.toList.map gives ++ [])
    s.par.wf ∧ s.fsm = .idle ∧ s.fault = false ∧ s.lookup 0x0100 = false ∧
      s.txIn = List.replicate 8 yes ++ [] ++ no :: [] ∧ (List.replicate 8 yes).length = 8 ∧
      AllAccepted (List.replicate 8 yes) ∧ AllAccepted [] ∧ ([] : List TxPins).length < s.par.exitReadSeq.length ∧
      no.outcome = .failed ∧ s.rxIn = block.toList.map gives ++ [] ∧ Carries (block.toList.map gives) block.toList := by
  decide +kernel

/-- Block 1 is cached and the host asks for GSAV, block 0 and a reserved operation; the device answers. -/
def asked : State :=
  { refetching with
    hostIn := [⟨true, requestWord 3 0 0⟩, ⟨true, requestWord 0 0x0010 0⟩, ⟨true, requestWord 5 0 0⟩] }

/-- The state of an outcome that has one. -/
def result (o : Host.Outcome State Fault Refusal) : State := (after o).getD start

theorem eq_result {o : Host.Outcome State Fault Refusal} (h : (after o).isSome = true) : o = .next (result o) := by
  cases o with
  | next t => rfl
  | fault _ => simp [after] at h
  | refused _ => simp [after] at h

/-- After the first READ. -/
def readOnce : State := result (exec (.read 0x0045) asked)
/-- After the three requests that follow it. -/
def readLater : State := result (step (result (step (result (step readOnce)))))

/-- After a fetch of block 0 that faulted. -/
def readFaulted : State :=
  result (step (result (exec (.read 0x0045)
    { cached with hostIn := [⟨true, requestWord 0 0x0010 0⟩], txIn := [no] })))

/-- The second READ at once; after a GSAV, a fetch of another block and a reserved request; after a fault. -/
theorem witness_HitSuppression :
    Inv asked ∧ exec (.read 0x0045) asked = .next readOnce ∧ readOnce.fsm = .idle ∧ readOnce.fault = false ∧
      UndisturbedTo readOnce readOnce ∧ UndisturbedTo readOnce readLater ∧ readLater.fsm = .idle ∧
      readLater.fault = false ∧ readLater.rsp = [.okByte 5, .okByte 5, .ok, .okByte 0x10, .illegal] ∧
      idx 0x007F = idx 0x0045 ∧ readFaulted.fsm = .idle ∧ readFaulted.fault = true ∧
      UndisturbedTo (result (exec (.read 0x0045)
        { cached with hostIn := [⟨true, requestWord 0 0x0010 0⟩], txIn := [no] })) readFaulted :=
  ⟨inv_cached, eq_result (by decide +kernel), by decide +kernel, by decide +kernel, .refl _,
    .step (by unfold Undisturbed; decide +kernel) (eq_result (by decide +kernel))
      (.step (by unfold Undisturbed; decide +kernel) (eq_result (by decide +kernel))
        (.step (by unfold Undisturbed; decide +kernel) (eq_result (by decide +kernel)) (.refl _))),
    by decide +kernel, by decide +kernel, by decide +kernel, by decide, by decide +kernel, by decide +kernel,
    .step (by unfold Undisturbed; decide +kernel) (eq_result (by decide +kernel)) (.refl _)⟩

/-- A READ that ends, one that waits, one that traps. -/
theorem witness_ReadFrame :
    (∃ t, exec (.read 0x0010) refetching = .next t) ∧ (∃ t, exec (.read 0) start = .next t) ∧
      ∃ t, exec (.read 0) (fed [no] []) = .next t :=
  ⟨next_of (by decide +kernel), next_of (by decide +kernel), next_of (by decide +kernel)⟩

/-- The shortest and the longest numeral. -/
theorem witness_WromCompletes :
    ∀ v ∈ [(0 : Byte), 255], let s := fed (List.replicate (8 + (dec v).length) yes ++ [no]) [];
      s.fsm = .idle ∧ s.fault = false ∧ s.txIn = List.replicate (8 + (dec v).length) yes ++ [no] ∧
        (List.replicate (8 + (dec v).length) yes).length = 8 + (dec v).length ∧
        AllAccepted (List.replicate (8 + (dec v).length) yes) := by decide +kernel

theorem witness_WramCompletes :
    let s := fed (List.replicate 10 yes) []
    s.fsm = .idle ∧ s.fault = false ∧ s.txIn = List.replicate 10 yes ++ [] ∧
      (List.replicate 10 yes).length = 8 + (dec 10).length ∧ AllAccepted (List.replicate 10 yes) := by decide +kernel

/-- The first and the last byte of each phase. -/
theorem witness_WriteCut :
    (∀ n ∈ [0, 5, 6, 8], let s := fed (List.replicate n yes ++ no :: []) [];
      s.fsm = .idle ∧ s.fault = false ∧ s.txIn = List.replicate n yes ++ no :: [] ∧
        (List.replicate n yes).length < 8 + (dec 9).length ∧ AllAccepted (List.replicate n yes)) ∧
      no.outcome = .failed := by decide +kernel

theorem witness_WramLikeWrom : ∃ t, exec (.wrom 0x2000 1) (fed (List.replicate 9 yes) []) = .next t :=
  next_of (by decide +kernel)

theorem witness_WriteThenMiss :
    Inv cached ∧ ∃ t, exec (.wrom 0x2000 1) cached = .next t ∨ exec (.wram 0x2000 1) cached = .next t := by
  obtain ⟨t, h⟩ := next_of (o := exec (.wrom 0x2000 1) cached) (by decide +kernel)
  exact ⟨inv_cached, t, .inl h⟩

theorem witness_WriteThenMiss_responds :
    (after (exec (.wrom 0x2000 1) { cached with txIn := List.replicate 9 yes })).map State.fsm = some .idle := by
  decide +kernel

theorem witness_WriteFrame :
    (∃ t, exec (.wrom 0x2000 1) (fed (List.replicate 9 yes) []) = .next t) ∧
      ∃ t, exec (.wram 0x2000 1) (fed [yes, no] []) = .next t :=
  ⟨next_of (by decide +kernel), next_of (by decide +kernel)⟩

theorem witness_GsavCompletes : reqOp 0x3FFFFFF = 3 ∧ start.fsm = .idle ∧ faulted.fsm = .idle := by decide

/-- From `S_IDLE` in a fault; resumed with the end beat to come, at once and after a beat; waiting again, with nothing to
come and with pins that carry no beat. -/
theorem witness_LsavCompletes :
    (let s : State := { faulted with payIn := [beat 0xDE, beat 0xAD] ++ lastBeat :: [lastBeat] };
      s.fsm = .idle ∧ s.payIn = [beat 0xDE, beat 0xAD] ++ lastBeat :: [lastBeat] ∧
        (∀ p ∈ [beat 0xDE, beat 0xAD], p.valid = true ∧ p.last = false) ∧ lastBeat.valid = true ∧
        lastBeat.last = true) ∧
    (∀ beats ∈ [[], [beat 0xDE]], ∀ tail ∈ [[lastBeat], [lastBeat, lastBeat], [], [noBeat, lastBeat]],
      let s : State := { at_ .lsavDrain [] with payIn := beats ++ tail };
      NoReset s ∧ s.fsm = .lsavDrain ∧ s.payIn = beats ++ tail ∧ ∀ p ∈ beats, p.valid = true ∧ p.last = false) ∧
    noBeat.valid = false := by decide +kernel

/-- R97, R181: the drain goes on where it waited; the beats after the end beat stay. -/
theorem test_lsav_resumed :
    (after (exec .lsav { start with payIn := [beat 0xDE, noBeat, beat 0xAD, lastBeat] })).map
        (fun s => (s.fsm, s.payIn)) = some (.lsavDrain, [beat 0xAD, lastBeat]) ∧
      (after (step { at_ .lsavDrain [] with payIn := [beat 0xAD, lastBeat, beat 1] })).map
        (fun s => (s.fsm, s.payIn, s.rsp)) = some (.idle, [beat 1], [.ok]) := by decide +kernel

theorem witness_ReservedCompletes :
    reqOp 0x5FFFFFF = 5 ∧ reqOp 0x6000000 = 6 ∧ reqOp 0x7000001 = 7 ∧ start.fsm = .idle := by decide

/-- The whole command; its last byte. -/
theorem witness_SelectAddressCompletes :
    (let s := at_ .addrSel (List.replicate 6 yes ++ []);
      s.fsm = .addrSel ∧ s.seq.toNat + (List.replicate 6 yes).length = 6 ∧ List.replicate 6 yes ≠ [] ∧
        s.txIn = List.replicate 6 yes ++ [] ∧ AllAccepted (List.replicate 6 yes)) ∧
    (let s : State := { at_ .addrSel ([yes] ++ []) with seq := 5 };
      s.fsm = .addrSel ∧ s.seq.toNat + [yes].length = 6 ∧ s.txIn = [yes] ++ []) := by decide +kernel

theorem witness_EnterReadCompletes :
    (at_ .rmEnter [yes]).fsm = .rmEnter ∧ (at_ .rmEnter [yes]).txIn = yes :: [] ∧ yes.outcome = .accepted := by decide

theorem witness_TriggerBurstCompletes :
    (at_ .burstTrig [yes]).fsm = .burstTrig ∧ (at_ .burstTrig [yes]).txIn = yes :: [] ∧ yes.outcome = .accepted ∧
      (at_ .burstTrig [no]).txIn = no :: [] ∧ no.outcome = .failed := by decide

/-- One byte, and an empty EXIT_READ_SEQ. -/
theorem witness_ExitReadCompletes :
    (let s := at_ .rmExit ([yes] ++ []);
      s.par.wf ∧ s.fsm = .rmExit ∧ s.ep = 0 ∧ s.seq.toNat + [yes].length = s.par.exitReadSeq.length ∧ [yes] ≠ [] ∧
        s.txIn = [yes] ++ [] ∧ AllAccepted [yes]) ∧
    (let s : State := { at_ .rmExit [no] with par := { quick with exitReadSeq := [] } };
      s.par.wf ∧ s.fsm = .rmExit ∧ s.ep = 0 ∧ s.seq.toNat + ([] : List TxPins).length = s.par.exitReadSeq.length ∧
        s.par.exitReadSeq = [] ∧ s.txIn = [] ++ [no]) := by decide +kernel

/-- Ended with an error pending, with an empty sequence and an error pending, cut. -/
theorem witness_ExitReadTraps :
    (let s : State := { at_ .rmExit ([yes] ++ []) with ep := 2 };
      s.par.wf ∧ s.fsm = .rmExit ∧ s.txIn = [yes] ++ [] ∧ AllAccepted [yes] ∧ s.ep ≠ 0 ∧ [yes] ≠ [] ∧
        s.seq.toNat + [yes].length = s.par.exitReadSeq.length) ∧
    (let s : State := { at_ .rmExit [] with ep := 3, par := { quick with exitReadSeq := [] } };
      s.fsm = .rmExit ∧ s.txIn = [] ++ [] ∧ s.ep ≠ 0 ∧ s.par.exitReadSeq = []) ∧
    (let s := at_ .rmExit ([] ++ [no]);
      s.fsm = .rmExit ∧ s.txIn = [] ++ [no] ∧ s.ep = 0 ∧
        s.seq.toNat + ([] : List TxPins).length < s.par.exitReadSeq.length ∧ [no].head? = some no ∧
        no.outcome = .failed) := by decide +kernel

theorem witness_WriteAddrCompletes :
    let s := at_ .wAddr (List.replicate 6 yes ++ [])
    s.fsm = .wAddr ∧ s.seq.toNat + (List.replicate 6 yes).length = 6 ∧ List.replicate 6 yes ≠ [] ∧
      s.txIn = List.replicate 6 yes ++ [] ∧ AllAccepted (List.replicate 6 yes) := by decide +kernel

theorem witness_WriteValueCompletes :
    let s := at_ .wValue (List.replicate 5 yes ++ [])
    s.fsm = .wValue ∧ s.seq.toNat + (List.replicate 5 yes).length = (dec 255).length + 2 ∧
      List.replicate 5 yes ≠ [] ∧ s.txIn = List.replicate 5 yes ++ [] ∧ AllAccepted (List.replicate 5 yes) := by
  decide +kernel

theorem witness_InitCompletes :
    (at_ .initG [yes]).fsm = .initG ∧ (at_ .initG [yes]).txIn = yes :: [] ∧ yes.outcome = .accepted ∧
      (at_ .init5 [yes, yes]).fsm = .init5 ∧ (at_ .init5 [yes, yes]).seq.toNat + [yes, yes].length = 2 ∧
      (at_ .init5 [yes, yes]).txIn = [yes, yes] ++ [] ∧ AllAccepted [yes, yes] ∧ [yes, yes] ≠ [] := by decide

/-- A one-byte command, and the last byte of a longer one. -/
theorem witness_CommandCut :
    (let s := at_ .rmEnter ([] ++ no :: []);
      s.command = some .enterRead ∧ encode s.par .enterRead = .wire [0x30] ∧ s.seq = 0 ∧ s.txIn = [] ++ no :: [] ∧
        s.seq.toNat + ([] : List TxPins).length < [(0x30 : Byte)].length ∧ no.outcome = .failed) ∧
    (let s := at_ .init5 ([yes] ++ no :: []);
      s.command = some .init5 ∧ encode s.par .init5 = .wire [0x35, 0x00] ∧ s.txIn = [yes] ++ no :: [] ∧
        s.seq.toNat + [yes].length < [(0x35 : Byte), 0x00].length ∧ AllAccepted [yes]) := by decide +kernel

/-- The one byte of a command, with nothing to come and blocked; the last byte of a longer one; a whole EXIT_READ_SEQ but
its last byte. -/
theorem witness_CommandWaits :
    (∀ q ∈ [(Fsm.initG, Instr.initG, (0x47 : Byte)), (.rmEnter, .enterRead, 0x30), (.burstTrig, .triggerBurst, 0x52)],
      ∀ tail ∈ [[], [busy], [busy, yes]],
        let s := at_ q.1 ([] ++ tail);
        s.par.wf ∧ s.command = some q.2.1 ∧ encode s.par q.2.1 = .wire [q.2.2] ∧ s.seq = 0 ∧ s.txIn = [] ++ tail ∧
          s.seq.toNat + ([] : List TxPins).length < [q.2.2].length) ∧
    (let s : State := { at_ .addrSel (List.replicate 4 yes ++ [busy]) with seq := 1, addrR := 0x0045 };
      s.par.wf ∧ s.command = some (.selectAddress 0x0040) ∧
        encode s.par (.selectAddress 0x0040) = .wire [0x41, 0x30, 0x30, 0x34, 0x30, 0x00] ∧
        s.txIn = List.replicate 4 yes ++ [busy] ∧
        s.seq.toNat + (List.replicate 4 yes).length < [(0x41 : Byte), 0x30, 0x30, 0x34, 0x30, 0x00].length ∧
        AllAccepted (List.replicate 4 yes)) ∧
    (let s : State :=
        { at_ .rmExit (List.replicate 6 yes ++ []) with par := { quick with exitReadSeq := List.replicate 7 0x30 } };
      s.par.wf ∧ s.command = some .exitRead ∧ encode s.par .exitRead = .wire (List.replicate 7 0x30) ∧
        s.txIn = List.replicate 6 yes ++ [] ∧
        s.seq.toNat + (List.replicate 6 yes).length < (List.replicate 7 (0x30 : Byte)).length) ∧
    busy.outcome = .blocked := by decide +kernel

/-- R140: a command that waited goes on at the byte it waited at. -/
theorem test_command_resumed :
    (after (exec (.selectAddress 0x0040) (at_ .addrSel [yes, yes, busy, yes]))).map (fun s => (s.wire, s.seq, s.txIn)) =
        some (sent [0x41, 0x30], 2, [yes]) ∧
      shown (exec (.selectAddress 0x0040) { at_ .addrSel (List.replicate 4 yes) with seq := 2 }) =
        some (sent [0x30, 0x34, 0x30, 0x00], []) := by decide +kernel

/-- A command that is sent, one that traps, and the exit that stores its block. -/
theorem witness_CommandFrame :
    (at_ .rmEnter [yes]).command = some .enterRead ∧ (at_ .rmExit [yes]).command = some .exitRead ∧
      (∃ t, exec .enterRead (at_ .rmEnter [yes]) = .next t) ∧ (∃ t, exec .enterRead (at_ .rmEnter [no]) = .next t) ∧
      ∃ t, exec .exitRead (at_ .rmExit [yes]) = .next t :=
  ⟨by decide, by decide, next_of (by decide +kernel), next_of (by decide +kernel), next_of (by decide +kernel)⟩

/-- Whole, from the first byte and at the last; cut at the first byte and at the last; waiting at the first byte and at the
last. -/
theorem witness_BurstReceived :
    (let s : State := { at_ .burstRx [] with rxIn := block.toList.map gives ++ [] };
      NoReset s ∧ s.fsm = .burstRx ∧ s.rxIn = block.toList.map gives ++ [] ∧
        Carries (block.toList.map gives) block.toList ∧ s.cnt.toNat + block.toList.length = 64 ∧ block.toList ≠ []) ∧
    (let s : State := { at_ .burstRx [] with cnt := 63, rxIn := [gives 9] ++ [] };
      NoReset s ∧ s.fsm = .burstRx ∧ s.rxIn = [gives 9] ++ [] ∧ Carries [gives 9] [9] ∧
        s.cnt.toNat + [(9 : Byte)].length = 64) ∧
    (∀ n ∈ [0, 63], ∀ c ∈ [(0 : BitVec 7), 5], n + c.toNat < 64 →
      ∀ tail ∈ [[broken], [ended], [], [quiet, gives 9]],
        let s : State := { at_ .burstRx [] with cnt := c, rxIn := (count n).map gives ++ tail };
        NoReset s ∧ s.fsm = .burstRx ∧ s.rxIn = (count n).map gives ++ tail ∧
          Carries ((count n).map gives) (count n) ∧ s.cnt.toNat + (count n).length < 64) ∧
    broken.outcome = .failed ∧ ended.outcome = .ended ∧ quiet.outcome = .blocked := by decide +kernel

/-- R175: a burst that waited after five bytes is cut after two more. -/
theorem test_resumed_burst_cut :
    let s : State := { at_ .burstRx [] with cnt := 5, rxIn := [gives 8, gives 9, ended] }
    (after (step s)).map (fun t => (t.fsm, t.ep, t.fstate.toNat, t.fcnt.toNat, t.cnt.toNat, t.seq)) =
        some (.rmExit, 3, 8, 7, 7, 0) ∧ shown (step s) = some ([.rx 8, .rx 9], []) := by decide +kernel

theorem witness_DelaysAndInvalidation :
    ∀ q ∈ [Fsm.wDly1, .wDly2, .initDly1, .initDly2, .inval], NoReset (at_ q []) ∧ (at_ q []).fsm = q := by decide

theorem witness_StartUpSequence :
    let s := at_ .initG ([yes, yes, yes] ++ [])
    s.rstIn = [] ∧ s.fsm = .initG ∧ s.txIn = [yes, yes, yes] ++ [] ∧ [yes, yes, yes].length = 3 ∧
      AllAccepted [yes, yes, yes] := by decide +kernel

end Sys2Proof.Tests
end

/-
COMMENTED OUT FOR MEMORY ONLY: the text below compiles and was checked to the end (leanchecker, audit, settle: O19, O18
and O1 proved) with `MIMALLOC_ARENA_EAGER_COMMIT=0 bash check.sh`. Under check.sh's 22 GiB of data the text above already
peaks at 46 to 47 threads of 256 MiB of stack while the tests wait for the kernel, and 47 do not fit: one more theorem
here, however small, ends the compile with "failed to create thread" or std::bad_alloc. To restore it, remove this
paragraph with the comment opener before it, and the closer at the end of the file.

section
/-! PROOFS. The statements of spec/00_scope.md: the parts of an address (R11), and what the block gives out (R13, R86).

The idea for the outputs: a past of the machine, an earlier wire trace and earlier responses, is put in front of the ones
the state holds, and every operation of the model commutes with that. So a step is the same step from empty outputs with
the past put in front of what it adds, whatever that past is. -/

namespace Sys2Proof.Machine

open Sys2Proof Sys2Proof.Safety

/-! ## The parts of an address as numbers (R11) -/

theorem off_toNat (a : Addr) : (off a).toNat = a.toNat % 64 := by
  simp [off, BitVec.extractLsb'_toNat]

theorem idx_toNat (a : Addr) : (idx a).toNat = a.toNat / 64 := by
  have h := a.isLt
  simp only [idx, BitVec.extractLsb'_toNat, Nat.shiftRight_eq_div_pow]
  omega

theorem base_toNat (a : Addr) : (base a).toNat = rowBase (idx a) := by
  rw [base, rowBase, BitVec.toNat_append]
  simp [Nat.shiftLeft_eq, Nat.mul_comm]

/-! ## A past in front of the outputs -/

/-- The state with an earlier wire trace and earlier responses in front of its own. -/
@[simps] def State.withPast (w : List Wire) (r : List Response) (s : State) : State :=
  { s with wire := w ++ s.wire, rsp := r ++ s.rsp }

/-- A tick with a past in front of the outputs of the state it gives. -/
def Tick.withPast (w : List Wire) (r : List Response) : Tick → Tick
  | .moved s => .moved (s.withPast w r)
  | .waits s => .waits (s.withPast w r)
  | .noRow => .noRow

/-- An outcome with a past in front of the outputs of the next state. -/
def outcomeWithPast (w : List Wire) (r : List Response) :
    Host.Outcome State Fault Refusal → Host.Outcome State Fault Refusal
  | .next s => .next (s.withPast w r)
  | .fault e => .fault e
  | .refused e => .refused e

/-- A row that neither reads the outputs nor takes anything of them away. -/
def IgnoresPast (row : State → Tick) : Prop :=
  ∀ (w : List Wire) (r : List Response) (s : State), row (s.withPast w r) = (row s).withPast w r

section
variable (w : List Wire) (r : List Response) (s : State)

@[simp] theorem Tick.withPast_moved : (Tick.moved s).withPast w r = .moved (s.withPast w r) := rfl
@[simp] theorem Tick.withPast_waits : (Tick.waits s).withPast w r = .waits (s.withPast w r) := rfl
@[simp] theorem Tick.withPast_noRow : Tick.noRow.withPast w r = .noRow := rfl

/-- Every state is its own past in front of the same state with empty outputs. -/
theorem withPast_of_empty_outputs :
    ({ s with wire := [], rsp := [] } : State).withPast w r = { s with wire := w, rsp := r } := by
  simp [State.withPast]

/-! ## The shared operations -/

@[simp] theorem lookup_withPast (a : Addr) : (s.withPast w r).lookup a = s.lookup a := rfl
@[simp] theorem readByte_withPast (a : Addr) : (s.withPast w r).readByte a = s.readByte a := rfl
@[simp] theorem visitBound_withPast : (s.withPast w r).visitBound = s.visitBound := rfl
@[simp] theorem resetBlock_withPast : (s.withPast w r).resetBlock = s.resetBlock.withPast w r := rfl

@[simp] theorem respond_withPast (x : Response) : (s.withPast w r).respond x = (s.respond x).withPast w r := by
  simp [State.respond, State.withPast]

@[simp] theorem trap_withPast (c : BitVec 3) : (s.withPast w r).trap c = (s.trap c).withPast w r := by
  rw [State.trap_eq, State.trap_eq, State.withPast_fsm, State.withPast_rsp]
  cases s.fsm.inOperation with
  | false => rfl
  | true => rw [if_pos rfl, List.append_assoc]; rfl

theorem tx_withPast (b : Byte) : (s.withPast w r).tx b = ((s.tx b).1, (s.tx b).2.withPast w r) := by
  cases h : s.txIn with
  | nil => simp [State.tx, h]
  | cons p ps => cases hp : p.outcome <;> simp [State.tx, State.withPast, h, hp]

theorem rx_withPast : (s.withPast w r).rx = (s.rx.1, s.rx.2.withPast w r) := by
  cases h : s.rxIn with
  | nil => simp [State.rx, h]
  | cons p ps => cases hp : p.outcome <;> simp [State.rx, State.withPast, h, hp]

end

/-! ## The rows of the table -/

theorem offer_ignoresPast {f g : State → Tick} (hf : IgnoresPast f) (hg : IgnoresPast g) (b : Byte) :
    IgnoresPast (offer b f g) := by
  intro w r s
  unfold offer
  rw [tx_withPast]
  rcases s.tx b with ⟨_ | _ | _, t⟩
  · exact hf w r t
  · exact hg w r t
  · rfl

theorem sendRow_ignoresPast {f g : State → Tick} (hf : IgnoresPast f) (hg : IgnoresPast g) (cmd : List Byte) :
    IgnoresPast (sendRow cmd f g) := by
  intro w r s
  cases h : cmd[s.seq.toNat]? with
  | none => simp [sendRow, h]
  | some b =>
    rw [sendRow_at h, sendRow_at (s := s.withPast w r) h, State.withPast_seq]
    refine offer_ignoresPast (fun w r t => ?_) hg b w r s
    by_cases e : s.seq.toNat + 1 = cmd.length
    · simpa only [if_pos e] using hf w r t
    · simp only [if_neg e]; rfl

theorem trapTxFail_ignoresPast : IgnoresPast trapTxFail := fun w r s => by simp [trapTxFail]

theorem holdError_ignoresPast (c : BitVec 3) : IgnoresPast (holdError c) := fun _ _ _ => rfl

theorem takeByte_ignoresPast (b : Byte) : IgnoresPast (takeByte b) := by
  intro w r s
  unfold takeByte
  rw [State.withPast_cnt]
  split <;> rfl

theorem rowBurstRx_ignoresPast : IgnoresPast rowBurstRx := by
  intro w r s
  unfold rowBurstRx
  rw [State.withPast_cnt, rx_withPast]
  by_cases hc : 64 ≤ s.cnt.toNat
  · rw [if_pos hc, if_pos hc]; rfl
  · rw [if_neg hc, if_neg hc]
    rcases s.rx with ⟨b | _ | _ | _, t⟩
    · exact takeByte_ignoresPast b w r t
    · rfl
    · rfl
    · rfl

theorem finishExit_ignoresPast : IgnoresPast finishExit := by
  intro w r s
  by_cases h : s.ep = 0
  · rw [finishExit_commit h, finishExit_commit (s := s.withPast w r) h]
    simp [State.withPast]
  · rw [finishExit_trap h, finishExit_trap (s := s.withPast w r) h]
    simp

theorem failExit_ignoresPast : IgnoresPast failExit := fun w r s => by simp [failExit]

theorem rowExitRead_ignoresPast : IgnoresPast rowExitRead := by
  intro w r s
  unfold rowExitRead
  rw [State.withPast_par]
  by_cases h : s.par.exitReadSeq = []
  · rw [if_pos h, if_pos h, finishExit_ignoresPast]
  · rw [if_neg h, if_neg h, sendRow_ignoresPast finishExit_ignoresPast failExit_ignoresPast]

theorem rowDelay_ignoresPast {next : State → State}
    (hn : ∀ w r t, next (State.withPast w r t) = (next t).withPast w r) (p : DelayParam) :
    IgnoresPast (rowDelay p next) := by
  intro w r s
  unfold rowDelay
  rw [State.withPast_dly]
  by_cases h : s.dly = 0
  · rw [if_pos h, if_pos h, Tick.withPast_moved, ← hn]
    simp [State.withPast]
  · rw [if_neg h, if_neg h]; rfl

theorem rowInval_ignoresPast : IgnoresPast rowInval := fun w r s => by
  simp [rowInval, State.withPast, State.respond, State.invalidateAll]

theorem rowDrain_ignoresPast : IgnoresPast rowDrain := by
  intro w r s
  unfold rowDrain
  rw [State.withPast_payIn]
  cases s.payIn with
  | nil => rfl
  | cons p ps =>
    obtain ⟨valid, data, last⟩ := p
    cases valid with
    | false => rfl
    | true =>
      cases last with
      | false => rfl
      | true => simp [State.withPast, State.respond]

/-- No row outside `S_IDLE` reads the outputs (R13). -/
theorem rowOf_ignoresPast : IgnoresPast rowOf := by
  intro w r s
  have hsend := fun (q : Fsm) (p : DelayParam) (cmd : List Byte) =>
    sendRow_ignoresPast (f := fun t => .moved { t with dly := t.par.periods p, fsm := q }) (fun _ _ _ => rfl)
      trapTxFail_ignoresPast cmd w r s
  unfold rowOf
  rw [State.withPast_fsm]
  cases s.fsm with
  | idle => rfl
  | initG => exact offer_ignoresPast (fun _ _ _ => rfl) trapTxFail_ignoresPast _ w r s
  | initDly1 => exact rowDelay_ignoresPast (fun _ _ _ => rfl) _ w r s
  | init5 => exact hsend .initDly2 .tInit _
  | initDly2 => exact rowDelay_ignoresPast (fun _ _ _ => rfl) _ w r s
  | addrSel => exact sendRow_ignoresPast (fun _ _ _ => rfl) trapTxFail_ignoresPast _ w r s
  | rmEnter => exact offer_ignoresPast (fun _ _ _ => rfl) trapTxFail_ignoresPast _ w r s
  | burstTrig => exact offer_ignoresPast (fun _ _ _ => rfl) (fun _ _ _ => rfl) _ w r s
  | burstRx => exact rowBurstRx_ignoresPast w r s
  | rmExit => exact rowExitRead_ignoresPast w r s
  | wAddr => exact hsend .wDly1 .tWrite _
  | wDly1 => exact rowDelay_ignoresPast (fun _ _ _ => rfl) _ w r s
  | wValue => exact hsend .wDly2 .tWrite _
  | wDly2 => exact rowDelay_ignoresPast (fun _ _ _ => rfl) _ w r s
  | inval => exact rowInval_ignoresPast w r s
  | lsavDrain => exact rowDrain_ignoresPast w r s

theorem acceptRead_ignoresPast (a : Addr) : IgnoresPast (acceptRead a) := by
  intro w r s
  unfold acceptRead
  simp only [State.withPast_fault, State.withPast_cause, lookup_withPast, readByte_withPast, respond_withPast]
  by_cases hf : s.fault = true
  · rw [if_pos hf, if_pos hf]; rfl
  · rw [if_neg hf, if_neg hf]
    by_cases hl : s.lookup a = true
    · rw [if_pos hl, if_pos hl]
      cases s.readByte a <;> rfl
    · rw [if_neg hl, if_neg hl]; rfl

theorem acceptWrite_ignoresPast (op : BitVec 3) (a : Addr) (v : Byte) : IgnoresPast (acceptWrite op a v) := by
  intro w r s
  unfold acceptWrite
  rw [State.withPast_fault, State.withPast_cause, respond_withPast]
  split <;> rfl

/-- No acceptance reads the outputs (R13, R171). -/
theorem accept_ignoresPast (i : Instr) : IgnoresPast (accept i) := by
  intro w r s
  cases i with
  | read a => exact acceptRead_ignoresPast a w r s
  | wrom a v => exact acceptWrite_ignoresPast _ a v w r s
  | wram a v => exact acceptWrite_ignoresPast _ a v w r s
  | gsav | reserved5 | reserved6 | reserved7 => exact congrArg Tick.moved (respond_withPast w r s _)
  | lsav | enterRead | selectAddress | triggerBurst | writeAddr | writeValue | initG | init5 | exitRead => rfl

theorem transition_ignoresPast : IgnoresPast transition := by
  intro w r s
  unfold transition
  rw [State.withPast_fsm, State.withPast_hostIn]
  by_cases h : s.fsm = .idle
  · rw [if_pos h, if_pos h]
    cases s.hostIn with
    | nil => rfl
    | cons p ps =>
      obtain ⟨valid, req⟩ := p
      cases valid with
      | true => exact accept_ignoresPast _ w r { s with hostIn := ps }
      | false => rfl
  · rw [if_neg h, if_neg h, rowOf_ignoresPast]

/-! ## Visits, operations, steps -/

theorem repeatRow_ignoresPast {row : State → Tick} (hrow : IgnoresPast row) (n : Nat) :
    IgnoresPast (repeatRow row n) := by
  induction n with
  | zero => exact fun _ _ _ => rfl
  | succ n ih =>
    intro w r s
    unfold repeatRow
    rw [hrow]
    cases row s with
    | moved t =>
      by_cases e : t.fsm = s.fsm
      · simpa [e] using ih w r t
      · simp [e]
    | waits t => rfl
    | noRow => rfl

theorem visit_ignoresPast : IgnoresPast visit := fun w r s => by
  rw [visit, visitBound_withPast, repeatRow_ignoresPast rowOf_ignoresPast]
  rfl

theorem runOp_ignoresPast (n : Nat) : IgnoresPast (runOp n) := by
  induction n with
  | zero => exact fun _ _ _ => rfl
  | succ n ih =>
    intro w r s
    unfold runOp
    rw [visit_ignoresPast, State.withPast_fsm]
    by_cases e : s.fsm = .idle
    · rw [if_pos e, if_pos e]; rfl
    · rw [if_neg e, if_neg e]
      cases visit s with
      | moved t => exact ih w r t
      | waits t => rfl
      | noRow => rfl

theorem toOutcome_withPast (w : List Wire) (r : List Response) (k : Tick) :
    (k.withPast w r).toOutcome = outcomeWithPast w r k.toOutcome := by
  cases k <;> rfl

theorem finish_withPast (w : List Wire) (r : List Response) (k : Tick) :
    (k.withPast w r).finish = outcomeWithPast w r k.finish := by
  cases k with
  | moved t => rw [Tick.withPast_moved, Tick.finish, runOp_ignoresPast, toOutcome_withPast]; rfl
  | waits t => rfl
  | noRow => rfl

theorem fetchRun_withPast (w : List Wire) (r : List Response) (s : State) :
    (s.withPast w r).fetchRun.run = outcomeWithPast w r s.fetchRun.run := by
  by_cases h : s.fsm = .idle
  · rw [fetchRun_idle h, fetchRun_idle (s := s.withPast w r) h, transition_ignoresPast, finish_withPast]
  · rw [fetchRun_visit h, fetchRun_visit (s := s.withPast w r) h, visit_ignoresPast, toOutcome_withPast]

/-- A step commutes with putting a past in front of the outputs (R13). -/
theorem step_withPast (w : List Wire) (r : List Response) (s : State) :
    step (s.withPast w r) = outcomeWithPast w r (step s) := by
  cases h : s.rstIn with
  | nil => rw [step_no_rst h, step_no_rst (s := s.withPast w r) h, fetchRun_withPast]
  | cons b rs =>
    cases b with
    | true =>
      rw [step_rst_high h, step_rst_high (s := s.withPast w r) h]
      exact congrArg Host.Outcome.next (resetBlock_withPast w r { s with rstIn := rs })
    | false =>
      rw [step_rst_low h, step_rst_low (s := s.withPast w r) h]
      exact fetchRun_withPast w r { s with rstIn := rs }

/-- What a step adds does not depend on the outputs so far: it is what the step from empty outputs gives out. -/
theorem step_outputs {s t : State} (h : step s = .next t) :
    ∃ t₀ : State, t = t₀.withPast s.wire s.rsp ∧
      ∀ w r, step { s with wire := w, rsp := r } = .next (t₀.withPast w r) := by
  have hstep : ∀ w r, step { s with wire := w, rsp := r } =
      outcomeWithPast w r (step { s with wire := [], rsp := [] }) := by
    intro w r
    rw [← withPast_of_empty_outputs, step_withPast]
  have hs : outcomeWithPast s.wire s.rsp (step { s with wire := [], rsp := [] }) = .next t :=
    (hstep s.wire s.rsp).symm.trans h
  cases h₀ : step { s with wire := [], rsp := [] } with
  | next t₀ =>
    rw [h₀] at hs
    exact ⟨t₀, (Host.Outcome.next.inj hs).symm, fun w r => by rw [hstep, h₀]; rfl⟩
  | fault e => rw [h₀] at hs; cases hs
  | refused e => rw [h₀] at hs; cases hs

/-! ## The parameters stay (R9) -/

theorem accept_par (i : Instr) (s : State) : (accept i s).All fun t => t.par = s.par := by
  cases i with
  | read a =>
    simp only [accept, acceptRead]
    split_ifs
    · rfl
    · cases s.readByte a with
      | none => trivial
      | some b => rfl
    · rfl
  | wrom | wram =>
    simp only [accept, acceptWrite]
    split_ifs <;> rfl
  | gsav | lsav | reserved5 | reserved6 | reserved7 => rfl
  | enterRead | selectAddress | triggerBurst | writeAddr | writeValue | initG | init5 | exitRead => trivial

theorem transition_par (s : State) : (transition s).All fun t => t.par = s.par := by
  unfold transition
  by_cases h : s.fsm = .idle
  · rw [if_pos h]
    cases s.hostIn with
    | nil => rfl
    | cons p ps =>
      obtain ⟨valid, req⟩ := p
      cases valid with
      | true => exact accept_par _ { s with hostIn := ps }
      | false => rfl
  · rw [if_neg h]
    exact (rowOf_frame s).imp fun t ht => ht.1

theorem step_par {s t : State} (h : step s = .next t) : t.par = s.par :=
  step_all (P := fun u => u.par = s.par) (fun u hu => (transition_par u).imp fun _ hv => hv.trans hu)
    (fun _ _ hu => hu) (fun _ hu => hu) rfl h

/-! ## The statements -/

/-- Settles O19: a step commutes with putting a past in front of the outputs. -/
theorem observationsUnread : Obligations.ObservationsUnread := by
  intro s t w e r f h hw hr
  obtain ⟨t₀, rfl, hstep⟩ := step_outputs h
  obtain rfl : t₀.wire = e := List.append_cancel_left hw
  obtain rfl : t₀.rsp = f := List.append_cancel_left hr
  exact hstep w r

/-- Settles O18: the outputs so far are a past in front of what the step adds. -/
theorem outputsGrow : Obligations.OutputsGrow := by
  intro s t h
  obtain ⟨t₀, ht, -⟩ := step_outputs h
  exact ⟨step_par h, ⟨t₀.wire, by rw [ht]; rfl⟩, ⟨t₀.rsp, by rw [ht]; rfl⟩⟩

/-- Settles O1: the three slices as quotient and remainder by 64. -/
theorem addressParts : Obligations.AddressParts := by
  intro a
  have hbase := base_toNat a
  have hoff := off_toNat a
  have hrow : rowBase (idx a) = 64 * (idx a).toNat := rfl
  have hsum := rowBase_add_off a
  exact ⟨hoff, by omega, by omega, hsum⟩

end Sys2Proof.Machine
end
-/

/-
COMMENTED OUT FOR MEMORY ONLY: the text below compiles and was checked to the end (leanchecker, audit, settle: O14, O10,
O26, O28, O57, O11 and O13 proved) with `MIMALLOC_ARENA_EAGER_COMMIT=0 bash check.sh`. Under check.sh's 22 GiB of data the
tests above leave less than one more 256 MiB stack while they wait for the kernel, so any further task ends the compile
with "failed to create thread" or std::bad_alloc. To restore it, remove this paragraph with the comment opener before it,
and the closer at the end of the file. It uses nothing of the commented text above it and shares no name with it.

section
/-! PROOFS. The statements of spec/10_state.md: reset, the invariant of the machine, the frames of the rows and of the
wire commands, the sticky fault, the valid bits.

The idea: say once, for each row of the table, what it can do (`accept_all`, `rowExitRead_all`, `rowOf_ports`,
`rowOf_effect`, `rowOf_inv`), and let `step_all`, `step_all_from` and `visit_all_of_fsm` carry it over a step. -/

namespace Sys2Proof.Machine
open Sys2Proof Sys2Proof.Safety

/-! ## What an acceptance can do (R171) -/

/-- Every end of an acceptance: a response at once, or the first state of a fetch, of a write, of a drain. -/
theorem accept_all {P : State → Prop} {s : State} (i : Instr) (hrespond : ∀ r, P (s.respond r))
    (hread : ∀ a, s.fault = false → s.lookup a = false →
      P { s with opR := opRead, addrR := a, seq := 0, fsm := .addrSel })
    (hwrite : ∀ op a v, op = opWrom ∨ op = opWram → s.fault = false →
      P { s with opR := op, addrR := a, wdataR := v, seq := 0, fsm := .wAddr })
    (hlsav : P { s with opR := opLsav, fsm := .lsavDrain }) : (accept i s).All P := by
  have hw : ∀ op a v, op = opWrom ∨ op = opWram → (acceptWrite op a v s).All P := by
    intro op a v hop
    unfold acceptWrite
    by_cases hf : s.fault = true
    · rw [if_pos hf]; exact hrespond _
    · rw [if_neg hf]; exact hwrite op a v hop (by simpa using hf)
  cases i with
  | read a =>
    show (acceptRead a s).All P
    unfold acceptRead
    by_cases hf : s.fault = true
    · rw [if_pos hf]; exact hrespond _
    rw [if_neg hf]
    by_cases hl : s.lookup a = true
    · rw [if_pos hl]
      cases s.readByte a with
      | some b => exact hrespond _
      | none => trivial
    · rw [if_neg hl]; exact hread a (by simpa using hf) (by simpa using hl)
  | wrom a v => exact hw _ a v (.inl rfl)
  | wram a v => exact hw _ a v (.inr rfl)
  | lsav => exact hlsav
  | gsav | reserved5 | reserved6 | reserved7 => exact hrespond _
  | enterRead | selectAddress | triggerBurst | writeAddr | writeValue | initG | init5 | exitRead => trivial

/-- The table's row in `S_IDLE`: nothing is offered, or a request is accepted (R89, R171). -/
theorem transition_idle_all {P : State → Prop} {s : State} (hq : s.fsm = .idle) (h0 : P s)
    (hw : ∀ ps, P { s with hostIn := ps }) (ha : ∀ ps i, (accept i { s with hostIn := ps }).All P) :
    (transition s).All P := by
  unfold transition
  rw [if_pos hq]
  cases s.hostIn with
  | nil => exact h0
  | cons p ps =>
    obtain ⟨valid, req⟩ := p
    cases valid with
    | true => exact ha ps _
    | false => exact hw ps

theorem transition_rowOf {s : State} (hq : s.fsm ≠ .idle) : transition s = rowOf s := if_neg hq

/-- A property that the row of `S_IDLE` establishes, or that holds outside `S_IDLE`, and that every row outside `S_IDLE`
keeps, holds after a step that is no reset. -/
theorem step_all_from {P : State → Prop} {s t : State} (hr : NoReset s) (hs : step s = .next t)
    (hidle : s.fsm = .idle → (transition (pastReset s)).All P) (hbusy : s.fsm ≠ .idle → P (pastReset s))
    (hrow : ∀ u : State, u.fsm ≠ .idle → P u → (rowOf u).All P) : P t := by
  rw [step_pastReset hr] at hs
  by_cases hq : s.fsm = .idle
  · rw [fetchRun_idle (s := pastReset s) hq] at hs
    exact finish_all hrow (hidle hq) hs
  · rw [fetchRun_visit (s := pastReset s) hq] at hs
    exact (visit_all hrow _ (hbusy hq)).of_toOutcome hs

/-- A visit of `q` keeps what the rows of `q` keep. -/
theorem visit_all_of_fsm {P : State → Prop} {q : Fsm} (hrow : ∀ u : State, u.fsm = q → P u → (rowOf u).All P)
    {s : State} (hq : s.fsm = q) (h : P s) : (visit s).All P := by
  suffices ∀ n (u : State), u.fsm = q → P u → (repeatRow rowOf n u).All P from this _ s hq h
  intro n
  induction n with
  | zero => exact fun u _ hu => hu
  | succ n ih =>
    intro u hq hu
    have h1 := hrow u hq hu
    unfold repeatRow
    cases hr : rowOf u with
    | moved t =>
      rw [hr] at h1
      by_cases e : t.fsm = u.fsm
      · simp only [if_pos e]; exact ih t (e.trans hq) h1
      · simp only [if_neg e]; exact h1
    | waits t => rw [hr] at h1; exact h1
    | noRow => trivial

/-! ## What a row of `S_RM_EXIT` can do (R176) -/

/-- Every end of a row of the exit: it waits, a byte of it is sent, the block is stored and answered, or the trap is
taken with the error pending or the exit's own. -/
theorem rowExitRead_all {P : State → Prop} {s : State} (h0 : P s) (hw : ∀ ps, P { s with txIn := ps })
    (hm : ∀ ps w, s.seq.toNat + 1 < s.par.exitReadSeq.length → P { s with txIn := ps, wire := w, seq := s.seq + 1 })
    (hstore : ∀ ps w b, s.ep = causeNone →
      P { ({ s with txIn := ps, wire := w }.fill s.idxR).respond (.okByte b) with fsm := .idle })
    (htrap : ∀ ps w c, c ≠ causeNone → c = causeTxFail ∨ c = s.ep →
      P (({ s with txIn := ps, wire := w } : State).trap c)) :
    (rowExitRead s).All P := by
  have hfin : ∀ ps w, (finishExit { s with txIn := ps, wire := w }).All P := fun ps w =>
    finishExit_all (fun he b _ => hstore ps w b he) (fun he => htrap ps w s.ep he (.inr rfl))
  unfold rowExitRead
  by_cases hn : s.par.exitReadSeq = []
  · rw [if_pos hn]; exact hfin s.txIn s.wire
  · rw [if_neg hn]
    refine sendRow_all h0 hw (fun ps b hb he => hm ps _ ?_) (fun ps b _ _ => hfin ps _) (fun ps _ => ?_)
    · have := (List.getElem?_eq_some_iff.1 hb).1; omega
    · show P (State.trap (if s.ep = causeNone then causeTxFail else s.ep) { s with txIn := ps })
      by_cases he : s.ep = causeNone
      · rw [if_pos he]; exact htrap ps s.wire _ (by decide) (.inl rfl)
      · rw [if_neg he]; exact htrap ps s.wire _ he (.inr rfl)

/-! ## The ports of a row -/

/-- Only `S_BURST_RX` takes reply samples and writes the fill buffer, only `S_LSAV_DRAIN` takes payload beats (R28, R69,
R87, R97). -/
theorem rowOf_ports (s : State) :
    (rowOf s).All fun t =>
      (s.fsm ≠ .burstRx → t.rxIn = s.rxIn ∧ t.fb = s.fb) ∧ (s.fsm ≠ .lsavDrain → t.payIn = s.payIn) := by
  unfold rowOf
  cases hq : s.fsm with
  | idle => trivial
  | initG | rmEnter => exact offer_all (by simp) (by simp) (by simp) (by simp [trapTxFail])
  | burstTrig => exact offer_all (by simp) (by simp) (by simp) (by simp [holdError])
  | init5 | addrSel | wAddr | wValue =>
    exact sendRow_all (by simp) (by simp) (by simp) (by simp) (by simp [trapTxFail])
  | initDly1 | initDly2 | wDly1 | wDly2 => exact rowDelay_all (by simp) (by simp)
  | burstRx => exact rowBurstRx_all (by simp) (by simp) (by simp) (by simp) (by simp [holdError])
  | rmExit => exact rowExitRead_all (by simp) (by simp) (by simp) (by simp) (by simp)
  | inval => simp [rowInval]
  | lsavDrain => exact rowDrain_all (by simp) (by simp) (by simp)

/-- `S_BURST_RX` offers no byte, and only received bytes go on the wire (R63, R133). -/
theorem rowBurstRx_direction (s : State) :
    (rowBurstRx s).All fun t => t.txIn = s.txIn ∧ ∃ e, t.wire = s.wire ++ e ∧ ∀ x ∈ e, ∃ b, x = Wire.rx b := by
  have hnone : ∃ e, s.wire = s.wire ++ e ∧ ∀ x ∈ e, ∃ b, x = Wire.rx b := ⟨[], by simp, by simp⟩
  have hbyte : ∀ b, ∃ e, s.wire ++ [Wire.rx b] = s.wire ++ e ∧ ∀ x ∈ e, ∃ b, x = Wire.rx b :=
    fun b => ⟨[.rx b], rfl, by simp⟩
  exact rowBurstRx_all ⟨rfl, hnone⟩ (fun _ => ⟨rfl, hnone⟩) (fun _ b _ => ⟨rfl, hbyte b⟩) (fun _ b _ => ⟨rfl, hbyte b⟩)
    (fun _ _ _ _ => ⟨rfl, hnone⟩)

/-- The acceptance of a request takes no reply sample and leaves the fill buffer (R28, R87). -/
theorem transition_idle_ports {s : State} (hq : s.fsm = .idle) :
    (transition s).All fun t => t.rxIn = s.rxIn ∧ t.fb = s.fb :=
  transition_idle_all hq ⟨rfl, rfl⟩ (fun _ => ⟨rfl, rfl⟩) fun _ i =>
    accept_all i (fun _ => ⟨rfl, rfl⟩) (fun _ _ _ => ⟨rfl, rfl⟩) (fun _ _ _ _ _ => ⟨rfl, rfl⟩) ⟨rfl, rfl⟩

/-- Settles O10: the two directions of the burst, row by row. -/
theorem burstDirection : Obligations.BurstDirection := by
  intro s t h
  have key : (transition s).All fun t =>
      (s.fsm ≠ .burstRx → t.rxIn = s.rxIn ∧ t.fb = s.fb) ∧
      (s.fsm = .burstRx → t.txIn = s.txIn ∧ ∃ e, t.wire = s.wire ++ e ∧ ∀ x ∈ e, ∃ b, x = .rx b) := by
    by_cases hi : s.fsm = .idle
    · exact (transition_idle_ports hi).imp fun t ht => ⟨fun _ => ht, fun hb => by simp [hi] at hb⟩
    rw [transition_rowOf hi]
    by_cases hb : s.fsm = .burstRx
    · have hrow : rowOf s = rowBurstRx s := by simp [rowOf, hb]
      rw [hrow]
      exact (rowBurstRx_direction s).imp fun t ht => ⟨fun hn => absurd hb hn, fun _ => ht⟩
    · exact (rowOf_ports s).imp fun t ht => ⟨ht.1, fun hb' => absurd hb' hb⟩
  rcases h with h | h <;> rw [h] at key <;> exact key

/-! ## What a row does to the cache, the fault and the responses -/

theorem Tick.All.and {P Q : State → Prop} {k : Tick} (hp : k.All P) (hq : k.All Q) : k.All fun t => P t ∧ Q t := by
  cases k with
  | moved t | waits t => exact ⟨hp, hq⟩
  | noRow => trivial

/-- A row from `s` to `t` leaves the cache, FAULT, CAUSE and the responses. -/
def RowKeeps (s t : State) : Prop :=
  t.v = s.v ∧ t.dm = s.dm ∧ t.fault = s.fault ∧ t.cause = s.cause ∧ t.rsp = s.rsp

/-- The trap was taken (R196). -/
def RowTraps (t : State) : Prop :=
  t.fsm = .idle ∧ t.v = 0 ∧ t.dm = [] ∧ t.fault = true

/-- The block of `addr_r` was stored and a byte of it answered (R176). -/
def RowStores (s t : State) : Prop :=
  s.fsm = .rmExit ∧ t.fsm = .idle ∧ t.v = (s.fill s.idxR).v ∧ t.dm = (s.fill s.idxR).dm ∧ t.fault = s.fault ∧
    t.cause = s.cause ∧ ∃ b, t.rsp = s.rsp ++ [.okByte b]

/-- A write was ended by the invalidation (R180). -/
def RowInvalidates (s t : State) : Prop :=
  s.fsm = .inval ∧ t.fsm = .idle ∧ t.v = 0

/-- The end of a payload was taken (R181). -/
def RowDrains (s t : State) : Prop :=
  s.fsm = .lsavDrain ∧ t.fsm = .idle ∧ t.v = s.v

/-- What a row outside `S_IDLE` can do to the cache, the fault and the responses. -/
def RowEffect (s t : State) : Prop :=
  RowKeeps s t ∨ RowTraps t ∨ RowStores s t ∨ RowInvalidates s t ∨ RowDrains s t

theorem rowEffect_trap (s u : State) (c : BitVec 3) : RowEffect s (u.trap c) :=
  .inr (.inl ⟨by simp, by simp, by simp, by simp⟩)

theorem rowOf_effect (s : State) : (rowOf s).All (RowEffect s) := by
  have trapped : ∀ ps, (trapTxFail { s with txIn := ps }).All (RowEffect s) := fun ps => rowEffect_trap _ _ _
  have same : RowKeeps s s := ⟨rfl, rfl, rfl, rfl, rfl⟩
  unfold rowOf
  cases hq : s.fsm with
  | idle => trivial
  | initG | rmEnter => exact offer_all (.inl same) (fun _ => .inl same) (fun _ => .inl same) trapped
  | burstTrig => exact offer_all (.inl same) (fun _ => .inl same) (fun _ => .inl same) (fun _ => .inl same)
  | init5 | addrSel | wAddr | wValue =>
    exact sendRow_all (.inl same) (fun _ => .inl same) (fun _ _ _ _ => .inl same) (fun _ _ _ _ => .inl same)
      (fun ps _ => trapped ps)
  | initDly1 | initDly2 | wDly1 | wDly2 => exact rowDelay_all (.inl same) (fun _ => .inl same)
  | burstRx =>
    exact rowBurstRx_all (.inl same) (fun _ => .inl same) (fun _ _ _ => .inl same) (fun _ _ _ => .inl same)
      (fun _ _ _ _ => .inl same)
  | rmExit =>
    exact rowExitRead_all (.inl same) (fun _ => .inl same) (fun _ _ _ => .inl same)
      (fun _ _ b _ => .inr (.inr (.inl ⟨hq, rfl, rfl, rfl, rfl, rfl, b, rfl⟩))) (fun _ _ _ _ _ => rowEffect_trap _ _ _)
  | inval => exact .inr (.inr (.inr (.inl ⟨hq, rfl, rfl⟩)))
  | lsavDrain =>
    exact rowDrain_all (.inl same) (fun _ => .inl same) (fun _ => .inr (.inr (.inr (.inr ⟨hq, rfl, rfl⟩))))

/-- The rows of one visit have one effect: all but the last one keep everything. -/
theorem RowEffect.trans {s u t : State} (h : RowEffect s u) (h' : RowEffect u t) (hu : u.fsm ≠ .idle)
    (hq : u.fsm = s.fsm) (ha : u.addrR = s.addrR) (hfb : u.fb = s.fb) : RowEffect s t := by
  rcases h with ⟨hv, hdm, hfault, hcause, hrsp⟩ | ⟨hi, -⟩ | ⟨-, hi, -⟩ | ⟨-, hi, -⟩ | ⟨-, hi, -⟩
  · have hfillv : (u.fill u.idxR).v = (s.fill s.idxR).v := by simp [State.idxR, ha, hv]
    have hfilldm : (u.fill u.idxR).dm = (s.fill s.idxR).dm := by simp [State.idxR, ha, hfb, hdm]
    rcases h' with ⟨hv', hdm', hfault', hcause', hrsp'⟩ | htrap | ⟨hx, hi, hv', hdm', hfault', hcause', b, hrsp'⟩ |
      ⟨he, hi, hv'⟩ | ⟨hd, hi, hv'⟩
    · exact .inl ⟨hv'.trans hv, hdm'.trans hdm, hfault'.trans hfault, hcause'.trans hcause, hrsp'.trans hrsp⟩
    · exact .inr (.inl htrap)
    · exact .inr (.inr (.inl ⟨hq ▸ hx, hi, hv'.trans hfillv, hdm'.trans hfilldm, hfault'.trans hfault,
        hcause'.trans hcause, b, hrsp ▸ hrsp'⟩))
    · exact .inr (.inr (.inr (.inl ⟨hq ▸ he, hi, hv'⟩)))
    · exact .inr (.inr (.inr (.inr ⟨hq ▸ hd, hi, hv'.trans hv⟩)))
  all_goals exact absurd hi hu

/-! ## The wire commands (R130-R144) -/

/-- The part of the state that no wire command touches. -/
def CommandKeeps (s t : State) : Prop :=
  t.par = s.par ∧ t.opR = s.opR ∧ t.addrR = s.addrR ∧ t.wdataR = s.wdataR ∧ t.fb = s.fb ∧ t.rstIn = s.rstIn ∧
    t.hostIn = s.hostIn ∧ t.payIn = s.payIn ∧ t.rxIn = s.rxIn

theorem CommandKeeps.trans {s u t : State} (h : CommandKeeps s u) (h' : CommandKeeps u t) : CommandKeeps s t := by
  obtain ⟨par, opR, addrR, wdataR, fb, rstIn, hostIn, payIn, rxIn⟩ := h
  obtain ⟨par', opR', addrR', wdataR', fb', rstIn', hostIn', payIn', rxIn'⟩ := h'
  exact ⟨par'.trans par, opR'.trans opR, addrR'.trans addrR, wdataR'.trans wdataR, fb'.trans fb, rstIn'.trans rstIn,
    hostIn'.trans hostIn, payIn'.trans payIn, rxIn'.trans rxIn⟩

theorem rowOf_commandKeeps {s : State} (hb : s.fsm ≠ .burstRx) (hl : s.fsm ≠ .lsavDrain) :
    (rowOf s).All (CommandKeeps s) :=
  ((rowOf_frame s).and (rowOf_ports s)).imp fun _ ⟨⟨par, opR, addrR, wdataR, hostIn, rstIn⟩, rx, pay⟩ =>
    ⟨par, opR, addrR, wdataR, (rx hb).2, rstIn, hostIn, pay hl, (rx hb).1⟩

/-- A command is sent in a state that is none of `S_IDLE`, `S_BURST_RX`, `S_INVAL` and `S_LSAV_DRAIN` (R23), and
EXIT_READ in `S_RM_EXIT`. -/
theorem command_fsm {s : State} {i : Instr} (h : s.command = some i) :
    s.fsm ≠ .idle ∧ s.fsm ≠ .burstRx ∧ s.fsm ≠ .inval ∧ s.fsm ≠ .lsavDrain ∧ (s.fsm = .rmExit → i = .exitRead) := by
  unfold State.command at h
  cases hq : s.fsm <;> simp_all

/-- A wire command keeps what its rows keep, and has the effect of one row. -/
theorem exec_command_effect {s t : State} {i : Instr} (hc : s.command = some i) (h : exec i s = .next t) :
    CommandKeeps s t ∧ RowEffect s t := by
  obtain ⟨hidle, hburst, -, hdrain, -⟩ := command_fsm hc
  rw [exec_command hc] at h
  refine (visit_all_of_fsm (P := fun u => CommandKeeps s u ∧ RowEffect s u) (q := s.fsm) ?_ rfl
    ⟨⟨rfl, rfl, rfl, rfl, rfl, rfl, rfl, rfl, rfl⟩, .inl ⟨rfl, rfl, rfl, rfl, rfl⟩⟩).of_toOutcome h
  rintro u hq ⟨hkeep, heffect⟩
  rw [← hq] at hidle hburst hdrain
  have ⟨_, _, haddr, _, hfb, _⟩ := hkeep
  exact ((rowOf_commandKeeps hburst hdrain).and (rowOf_effect u)).imp fun _ ⟨hkeep', heffect'⟩ =>
    ⟨hkeep.trans hkeep', heffect.trans heffect' hidle hq haddr hfb⟩

/-- Settles O57: the rows of the command's visit have one effect. -/
theorem commandFrame : Obligations.CommandFrame := by
  intro s t i hc h
  obtain ⟨⟨par, opR, addrR, wdataR, fb, rstIn, hostIn, payIn, rxIn⟩, heffect⟩ := exec_command_effect hc h
  obtain ⟨-, -, hinval, hdrain, hexit⟩ := command_fsm hc
  refine ⟨par, opR, addrR, wdataR, fb, rstIn, hostIn, payIn, rxIn, ?_⟩
  rcases heffect with ⟨hv, hdm, hfault, hcause, hrsp⟩ | ⟨-, hv, hdm, hfault⟩ | ⟨hq, -, hv, hdm, hfault, hcause, -⟩ |
    ⟨hq, -⟩ | ⟨hq, -⟩
  · exact .inl ⟨hv, fun b => by rw [hdm], hfault, hcause, hrsp⟩
  · exact .inr (.inl ⟨hfault, hv, hdm⟩)
  · refine .inr (.inr ⟨hexit hq, hfault, hcause, fun j hj => ?_, fun b hb => ?_⟩)
    · have hvalid : t.valid j = (s.fill s.idxR).valid j := by rw [State.valid, hv]; rfl
      rw [hvalid, fill_valid]
      simp [State.idxR, Ne.symm hj]
    · rw [hdm]; exact fill_read_other s s.idxR hb
  · exact absurd hq hinval
  · exact absurd hq hdrain

/-! ## The invariant, part by part -/

/-- The status registers while no error has been noted (R31, R196). -/
def StatusClear (s : State) : Prop :=
  s.fault = false ∧ s.cause = causeNone ∧ s.fstate = 0 ∧ s.fcnt = 0

theorem statusInv_of_clear {s : State} (h : StatusClear s) (hep : s.ep.toNat ≤ 3)
    (hburst : s.fsm = .burstTrig ∨ s.fsm = .burstRx → s.ep = causeNone) : StatusInv s := by
  obtain ⟨hfault, hcause, hfstate, hfcnt⟩ := h
  simp_all [StatusInv, causeNone]

/-- FAULT is 0 while an operation or the start-up sequence runs, but for LSAV (R199). -/
theorem status_fault_false {s : State} (h : StatusInv s) (hq : s.fsm ≠ .idle) (hl : s.fsm ≠ .lsavDrain) :
    s.fault = false ∧ s.cause = causeNone := by
  obtain ⟨hcause, -, -, -, hfault, -⟩ := h
  cases hf : s.fault with
  | true => exact absurd (hfault hf).2 (by simp [hq, hl])
  | false => simpa [hf] using hcause

/-- No error is noted on the way, but in the exit. -/
theorem status_clear {s : State} (h : StatusInv s) (hq : s.fsm ≠ .idle) (hl : s.fsm ≠ .lsavDrain)
    (hx : s.fsm ≠ .rmExit) : StatusClear s := by
  obtain ⟨hfault, hcause⟩ := status_fault_false h hq hl
  obtain ⟨-, -, -, -, -, hnoted, -⟩ := h
  exact ⟨hfault, hcause, hnoted hfault (by simp [State.errorNoted, hx])⟩

theorem latchInv_of_offPath {s : State} (hr : onReadPath s.fsm = false) (hw : onWritePath s.fsm = false)
    (hl : s.fsm ≠ .lsavDrain) : LatchInv s := by
  simp [LatchInv, hr, hw, hl]

/-- A state that no counter and no latch speaks of: the invariant is that of the cache and of the status. -/
theorem inv_idle {s : State} (hq : s.fsm = .idle) (hp : s.par.wf) (hc : CacheInv s) (hs : StatusInv s) : Inv s :=
  ⟨hp, hc, by simp [SeqInv, hq],
    latchInv_of_offPath (by simp [hq, onReadPath]) (by simp [hq, onWritePath]) (by simp [hq]), hs⟩

/-! ## Reset -/

theorem inv_resetWith {p : Params} (h : p.wf) : Inv (State.resetWith p) := by
  have hcache : CacheInv (State.resetWith p) := ⟨Memory.wf_nil, fun a => by simp [State.resetWith]⟩
  refine ⟨h, hcache, ?_, ?_, statusInv_of_clear ⟨rfl, rfl, rfl, rfl⟩ ?_ ?_⟩ <;>
    cases hi : p.initOnReset <;> simp [SeqInv, LatchInv, onReadPath, onWritePath, State.resetWith, hi]

/-! ## The trap -/

/-- The trap keeps the invariant, from every state in which no burst is being received (R196). -/
theorem inv_trap {s : State} {c : BitVec 3} (h : Inv s) (ht : s.fsm ≠ .burstTrig) (hb : s.fsm ≠ .burstRx)
    (hc : c ≠ causeNone) (hc3 : c.toNat ≤ 3) : Inv (s.trap c) := by
  obtain ⟨hpar, -, hseq, -, -, -, hep, hfcnt, -⟩ := h
  have hcnt : (s.trap c).fcnt.toNat ≤ 64 := by
    rw [State.trap_fcnt]
    split_ifs with hnoted hburst
    · exact hfcnt
    · have hq : s.fsm = .rmExit := by simpa [Fsm.countsBurst, ht, hb] using hburst
      have he : s.ep = 0 := by simpa [State.errorNoted, hq, causeNone] using hnoted
      have : s.cnt = 64 := by simp only [SeqInv, hq] at hseq; exact hseq.2 he
      simp [this]
    · simp
  refine inv_idle (by simp) (by simpa using hpar) ?_ ?_
  · exact ⟨by simp, fun a => by simp⟩
  · exact ⟨by simp [hc], by simpa using hc3, by simpa using hep, hcnt, by simp, by simp, by simp⟩

theorem trapTxFail_inv {s : State} (h : Inv s) (ht : s.fsm ≠ .burstTrig) (hb : s.fsm ≠ .burstRx) (ps : List TxPins) :
    (trapTxFail { s with txIn := ps }).All Inv :=
  inv_trap (s := { s with txIn := ps }) h ht hb (by decide) (by decide)

/-! ## The rows inside an operation -/

theorem seq_succ_lt {q : BitVec 3} {n : Nat} (h : q.toNat < n) (hne : q.toNat + 1 ≠ n) (hn : n ≤ 8) :
    (q + 1).toNat < n := by
  rw [BitVec.toNat_add]; simp; omega

/-- One more byte of a command is sent (R24, R140). -/
theorem inv_seq_succ {s : State} (h : Inv s) (hseq : SeqInv { s with seq := s.seq + 1 }) (ps : List TxPins)
    (w : List Wire) : Inv { s with txIn := ps, wire := w, seq := s.seq + 1 } := by
  obtain ⟨hpar, hcache, -, hlatch, hstatus⟩ := h
  exact ⟨hpar, hcache, hseq, hlatch, hstatus⟩

/-- The sequencer may go from `q` to `q'` while the latches stay: the path of the operation is not left for another
one. -/
abbrev StaysOnPath (q q' : Fsm) : Prop :=
  q ≠ .idle ∧ q ≠ .lsavDrain ∧ q ≠ .rmExit ∧ q' ≠ .lsavDrain ∧ (onReadPath q' → onReadPath q) ∧
    (onWritePath q' → onWritePath q)

/-- The sequencer goes on within an operation: the cache, the latches and the status registers are those of before. -/
theorem inv_goto {s t : State} {q : Fsm} (q' : Fsm) (h : Inv s) (hq : s.fsm = q) (hq' : t.fsm = q')
    (e : t = { s with
      fsm := t.fsm, seq := t.seq, cnt := t.cnt, ep := t.ep, dly := t.dly, fb := t.fb, txIn := t.txIn, rxIn := t.rxIn
      wire := t.wire })
    (hseq : SeqInv t) (hep : t.ep = s.ep ∨ t.ep = causeNone)
    (hburst : q' = .burstTrig ∨ q' = .burstRx → t.ep = causeNone) (hpath : StaysOnPath q q' := by decide) :
    Inv t := by
  obtain ⟨hpar, hcache, -, ⟨hread, hwrite, -⟩, hstatus⟩ := h
  obtain ⟨hidle, hdrain, hexit, hdrain', hr, hw⟩ := hpath
  have hclear : StatusClear s := status_clear hstatus (hq ▸ hidle) (hq ▸ hdrain) (hq ▸ hexit)
  have hep3 : t.ep.toNat ≤ 3 := by
    rcases hep with he | he <;> rw [he]
    · exact hstatus.2.2.1
    · decide
  have hlatch : LatchInv t := by
    subst hq hq'
    refine ⟨fun hp => ?_, fun hp => ?_, fun hp => absurd hp hdrain'⟩
    · rw [e]; exact hread (hr hp)
    · rw [e]; exact hwrite (hw hp)
  subst hq'
  exact ⟨by rw [e]; exact hpar, by rw [e]; exact hcache, hseq, hlatch,
    statusInv_of_clear (by rw [e]; exact hclear) hep3 hburst⟩

/-- A command outside the bracketed burst: its rows keep the invariant when its last one does. -/
theorem sendRow_inv {cmd : List Byte} {done : State → Tick} {s : State} (h : Inv s) (ht : s.fsm ≠ .burstTrig)
    (hb : s.fsm ≠ .burstRx) (hlen : cmd.length ≤ 8)
    (hseq : (s.seq + 1).toNat < cmd.length → SeqInv { s with seq := s.seq + 1 })
    (hdone : ∀ ps w, (done { s with txIn := ps, wire := w }).All Inv) : (sendRow cmd done trapTxFail s).All Inv :=
  sendRow_all h (fun _ => h)
    (fun ps _ hb he => inv_seq_succ h (hseq (seq_succ_lt (List.getElem?_eq_some_iff.1 hb).1 he hlen)) ps _)
    (fun ps _ _ _ => hdone ps _) (fun ps _ => trapTxFail_inv h ht hb ps)

/-! ## The burst and the exit -/

/-- An error inside the bracketed burst is held and noted (R174, R175). -/
theorem inv_holdError {s : State} {c : BitVec 3} (h : Inv s) (hq : s.fsm = .burstTrig ∨ s.fsm = .burstRx)
    (hcnt : s.cnt.toNat ≤ 64) (hc : c ≠ 0) (hc3 : c.toNat ≤ 3) : (holdError c s).All Inv := by
  obtain ⟨hpar, hcache, -, ⟨hread, -, -⟩, hstatus⟩ := h
  have hpath : onReadPath s.fsm = true := by rcases hq with hq | hq <;> simp [onReadPath, hq]
  obtain ⟨hfault, hcause, -⟩ : StatusClear s := by
    rcases hq with hq | hq <;> exact status_clear hstatus (by simp [hq]) (by simp [hq]) (by simp [hq])
  have hnote : s.fsm.countsBurst = true := by rcases hq with hq | hq <;> simp [Fsm.countsBurst, hq]
  refine ⟨hpar, hcache, ?_, ⟨fun _ => hread hpath, by simp [onWritePath], by simp⟩, ?_⟩
  · refine ⟨?_, fun he => absurd he hc⟩
    exact (Classical.em (s.par.exitReadSeq = [])).imp id List.length_pos_iff.2
  · refine ⟨by simp [hfault, hcause], by simp [hcause, causeNone], hc3, ?_, by simp [hfault], fun _ he => ?_, by simp⟩
    · simpa [hnote] using hcnt
    · simp [State.errorNoted, causeNone] at he; exact absurd he hc

theorem rowTriggerBurst_inv {s : State} (h : Inv s) (hq : s.fsm = .burstTrig) : (rowTriggerBurst s).All Inv := by
  have hep : s.ep = causeNone := by
    obtain ⟨-, -, -, -, -, -, -, -, -, -, hburst⟩ := h
    exact hburst (.inl hq)
  have hcleared : ∀ ps, Inv { s with txIn := ps, cnt := 0 } := by
    obtain ⟨hpar, hcache, -, hlatch, hstatus⟩ := h
    exact fun ps => ⟨hpar, hcache, by simp [SeqInv, hq], hlatch, hstatus⟩
  exact offer_all h (fun _ => h)
    (fun _ => inv_goto .burstRx h hq rfl rfl (by simp [SeqInv]) (.inl rfl) (fun _ => hep))
    (fun ps => inv_holdError (hcleared ps) (.inl hq) (by simp) (by decide) (by decide))

theorem rowBurstRx_inv {s : State} (h : Inv s) (hq : s.fsm = .burstRx) : (rowBurstRx s).All Inv := by
  have hep : s.ep = causeNone := by
    obtain ⟨-, -, -, -, -, -, -, -, -, -, hburst⟩ := h
    exact hburst (.inr hq)
  refine rowBurstRx_all h (fun _ => h) (fun ps b hc => ?_) (fun ps b hc => ?_) (fun ps c hc hlt => ?_)
  · have hseq : (s.cnt + 1).toNat < 64 := by rw [BitVec.toNat_add]; simp; omega
    exact inv_goto .burstRx h hq hq rfl (by simpa [SeqInv, hq] using hseq) (.inl rfl) (fun _ => hep)
  · have hcnt : s.cnt + 1 = 64 := by apply BitVec.eq_of_toNat_eq; rw [BitVec.toNat_add]; simp; omega
    refine inv_goto .rmExit h hq rfl rfl ⟨?_, fun _ => hcnt⟩ (.inl rfl) (fun _ => hep)
    exact (Classical.em (s.par.exitReadSeq = [])).imp id List.length_pos_iff.2
  · rcases hc with rfl | rfl <;>
      exact inv_holdError (s := { s with rxIn := ps }) h (.inr hq) (Nat.le_of_lt hlt) (by decide) (by decide)

theorem rowExitRead_inv {s : State} (h : Inv s) (hq : s.fsm = .rmExit) : (rowExitRead s).All Inv := by
  have ⟨hpar, hcache, hseq, _, hstatus⟩ := h
  have ⟨_, _, hep, _, _, hnoted, _⟩ := hstatus
  simp only [SeqInv, hq] at hseq
  refine rowExitRead_all h (fun _ => h) (fun ps w hlt => ?_) (fun ps w b he => ?_) (fun ps w c hc hcs => ?_)
  · refine inv_seq_succ h ?_ ps w
    have : (s.seq + 1).toNat < s.par.exitReadSeq.length := seq_succ_lt (by omega) (by omega) (by have := hpar; omega)
    simp only [SeqInv, hq]
    exact ⟨.inr this, hseq.2⟩
  · obtain ⟨hfault, hcause⟩ := status_fault_false hstatus (by simp [hq]) (by simp [hq])
    have hclear : StatusClear s := ⟨hfault, hcause, hnoted hfault (by simp [State.errorNoted, he])⟩
    exact inv_idle rfl hpar (fill_cacheInv s.idxR hcache) (statusInv_of_clear hclear hep (by simp))
  · refine inv_trap (s := { s with txIn := ps, wire := w }) h (by simp [hq]) (by simp [hq]) hc ?_
    rcases hcs with rfl | rfl
    · decide
    · exact hep

/-! ## Every row -/

theorem rowDrain_inv {s : State} (h : Inv s) (hq : s.fsm = .lsavDrain) : (rowDrain s).All Inv := by
  have ⟨hpar, hcache, _, _, hcause, hcause3, hep, hfcnt, hfault, hnoted, _⟩ := h
  refine rowDrain_all h (fun _ => h) (fun ps => inv_idle rfl hpar hcache ?_)
  exact ⟨hcause, hcause3, hep, hfcnt, fun hf => ⟨(hfault hf).1, .inl rfl⟩,
    fun hf _ => hnoted hf (by simp [State.errorNoted, hq]), by simp⟩

theorem rowInval_inv {s : State} (h : Inv s) (hq : s.fsm = .inval) : (rowInval s).All Inv := by
  have ⟨hpar, _, _, _, hstatus⟩ := h
  have hclear : StatusClear s := status_clear hstatus (by simp [hq]) (by simp [hq]) (by simp [hq])
  exact inv_idle rfl hpar (invalidateAll_cacheInv s) (statusInv_of_clear hclear hstatus.2.2.1 (by simp))

theorem rowOf_inv {s : State} (h : Inv s) : (rowOf s).All Inv := by
  unfold rowOf
  cases hq : s.fsm with
  | idle => trivial
  | initG =>
    exact offer_all h (fun _ => h) (fun _ => inv_goto .initDly1 h hq rfl rfl (by simp [SeqInv]) (.inl rfl) (by simp))
      (trapTxFail_inv h (by simp [hq]) (by simp [hq]))
  | initDly1 => exact rowDelay_all h fun _ => inv_goto .init5 h hq rfl rfl (by simp [SeqInv]) (.inl rfl) (by simp)
  | init5 =>
    exact sendRow_inv h (by simp [hq]) (by simp [hq]) (by decide) (by simp [SeqInv, hq, init5Bytes_length])
      fun _ _ => inv_goto .initDly2 h hq rfl rfl (by simp [SeqInv]) (.inl rfl) (by simp)
  | initDly2 => exact rowDelay_all h fun _ => inv_goto .idle h hq rfl rfl (by simp [SeqInv]) (.inl rfl) (by simp)
  | addrSel =>
    exact sendRow_inv h (by simp [hq]) (by simp [hq]) (by simp [selectAddressBytes_length])
      (by simp [SeqInv, hq, selectAddressBytes_length])
      fun _ _ => inv_goto .rmEnter h hq rfl rfl (by simp [SeqInv]) (.inl rfl) (by simp)
  | rmEnter =>
    exact offer_all h (fun _ => h) (fun _ => inv_goto .burstTrig h hq rfl rfl (by simp [SeqInv]) (.inr rfl) (by simp))
      (trapTxFail_inv h (by simp [hq]) (by simp [hq]))
  | burstTrig => exact rowTriggerBurst_inv h hq
  | burstRx => exact rowBurstRx_inv h hq
  | rmExit => exact rowExitRead_inv h hq
  | wAddr =>
    exact sendRow_inv h (by simp [hq]) (by simp [hq]) (by simp [writeAddrBytes_length])
      (by simp [SeqInv, hq, writeAddrBytes_length])
      fun _ _ => inv_goto .wDly1 h hq rfl rfl (by simp [SeqInv]) (.inl rfl) (by simp)
  | wDly1 =>
    exact rowDelay_all h fun _ =>
      inv_goto .wValue h hq rfl rfl (by simp [SeqInv, writeValueBytes_length]) (.inl rfl) (by simp)
  | wValue =>
    have hlen := writeValueBytes_length s.wdataR
    have hdec := dec_length s.wdataR
    exact sendRow_inv h (by simp [hq]) (by simp [hq]) (by omega) (by simp [SeqInv, hq])
      fun _ _ => inv_goto .wDly2 h hq rfl rfl (by simp [SeqInv]) (.inl rfl) (by simp)
  | wDly2 => exact rowDelay_all h fun _ => inv_goto .inval h hq rfl rfl (by simp [SeqInv]) (.inl rfl) (by simp)
  | inval => exact rowInval_inv h hq
  | lsavDrain => exact rowDrain_inv h hq

/-- The acceptance of a request keeps the invariant: a fetch begins only on a miss, and nothing begins while FAULT is 1
but LSAV (R114, R171, R199). -/
theorem accept_inv {s : State} (i : Instr) (h : Inv s) (hq : s.fsm = .idle) : (accept i s).All Inv := by
  have ⟨hpar, hcache, hseq, hlatch, hstatus⟩ := h
  have ⟨hcause, hcause3, hep, hfcnt, hfault, hnoted, _⟩ := hstatus
  have hclear : s.fault = false → StatusClear s := fun hf =>
    ⟨hf, by simpa [hf] using hcause, hnoted hf (by simp [State.errorNoted, hq])⟩
  refine accept_all i (fun _ => ⟨hpar, hcache, hseq, hlatch, hstatus⟩) (fun a hf hl => ?_) (fun op a v hop hf => ?_) ?_
  · exact ⟨hpar, hcache, by simp [SeqInv], ⟨fun _ => ⟨rfl, hl⟩, by simp [onWritePath], by simp⟩,
      statusInv_of_clear (hclear hf) hep (by simp)⟩
  · exact ⟨hpar, hcache, by simp [SeqInv], ⟨by simp [onReadPath], fun _ => hop, by simp⟩,
      statusInv_of_clear (hclear hf) hep (by simp)⟩
  · exact ⟨hpar, hcache, by simp [SeqInv], ⟨by simp [onReadPath], by simp [onWritePath], fun _ => rfl⟩,
      hcause, hcause3, hep, hfcnt, fun hf => ⟨(hfault hf).1, .inr rfl⟩,
      fun hf _ => hnoted hf (by simp [State.errorNoted, hq]), by simp⟩

theorem transition_inv {s : State} (h : Inv s) : (transition s).All Inv := by
  by_cases hq : s.fsm = .idle
  · exact transition_idle_all hq h (fun _ => h) fun ps i => accept_inv (s := { s with hostIn := ps }) i h hq
  · rw [transition_rowOf hq]; exact rowOf_inv h

/-! ## The statements about reset and the invariant -/

/-- Settles O14: every row of the table keeps the invariant, and reset establishes it. -/
theorem invStep : Obligations.InvStep := fun _ _ h hs =>
  step_all (P := Inv) (fun _ => transition_inv) (fun _ _ h => h) (fun _ h => inv_resetWith h.1) h hs

/-- Settles O13: the cache is empty and no command has begun. -/
theorem invAtReset : Obligations.InvAtReset := by
  intro p hp
  refine ⟨inv_resetWith hp, ?_, fun i hi => ?_⟩
  · cases hi : p.initOnReset <;> simp [FetchOnWire, State.resetWith, hi]
  · simp [State.valid, State.resetWith] at hi

/-- Settles O11: the registers as `State.resetWith` sets them (R35). -/
theorem resetValues : Obligations.ResetValues := fun _ =>
  ⟨rfl, rfl, rfl, rfl, rfl, rfl, rfl, rfl, rfl, fun hi => if_pos hi, fun hi => if_neg (by simp [hi]), rfl⟩

/-! ## The sticky fault (R30, R199) -/

/-- What stays from `s` to `t` while FAULT is 1: the status registers, the transport, the empty cache; and no operation
but LSAV is in progress. -/
def FaultKeeps (s t : State) : Prop :=
  (t.fault = true ∧ t.cause = s.cause ∧ t.fstate = s.fstate ∧ t.fcnt = s.fcnt ∧ t.wire = s.wire ∧ t.txIn = s.txIn ∧
    t.rxIn = s.rxIn ∧ t.v = 0) ∧ (t.fsm = .idle ∨ t.fsm = .lsavDrain)

theorem transition_idle_faultKeeps {s u : State} (h : FaultKeeps s u) (hq : u.fsm = .idle) :
    (transition u).All (FaultKeeps s) := by
  have ⟨hregs, _⟩ := h
  refine transition_idle_all hq h (fun _ => h) fun ps i => ?_
  have hset : ({ u with hostIn := ps } : State).fault ≠ false := by simp [hregs.1]
  exact accept_all i (fun _ => h) (fun _ hf => absurd hf hset) (fun _ _ _ _ hf => absurd hf hset) ⟨hregs, .inr rfl⟩

theorem rowOf_faultKeeps {s u : State} (h : FaultKeeps s u) (hq : u.fsm ≠ .idle) : (rowOf u).All (FaultKeeps s) := by
  obtain ⟨hregs, hidle | hdrain⟩ := id h
  · exact absurd hidle hq
  · have hrow : rowOf u = rowDrain u := by simp [rowOf, hdrain]
    rw [hrow]
    exact rowDrain_all h (fun _ => h) (fun _ => ⟨hregs, .inl rfl⟩)

/-- Settles O26: while FAULT is 1 only acceptances in `S_IDLE` and the drain of LSAV are left. -/
theorem faultIsSticky : Obligations.FaultIsSticky := by
  rintro s t ⟨-, -, -, -, -, -, -, -, hfault, -⟩ hr hf hs
  obtain ⟨hv, hfsm⟩ := hfault hf
  have h0 : FaultKeeps s (pastReset s) := ⟨⟨hf, rfl, rfl, rfl, rfl, rfl, rfl, hv⟩, hfsm⟩
  exact (step_all_from hr hs (transition_idle_faultKeeps h0) (fun _ => h0) fun _ hq h => rowOf_faultKeeps h hq).1

/-! ## The valid bits (R29) -/

/-- A write or a fault has emptied the cache. -/
def CacheEmptied (t : State) : Prop :=
  t.v = 0 ∧ (t.fault = true ∨ t.opR = opWrom ∨ t.opR = opWram)

/-- A READ that missed in `s` has stored its block and answered. -/
def BlockStored (s t : State) : Prop :=
  s.lookup t.addrR = false ∧ t.v = s.v ||| BitVec.twoPow 1024 (idx t.addrR).toNat ∧ t.fault = false ∧ t.opR = opRead ∧
    ∃ b, t.rsp = s.rsp ++ [.okByte b]

/-- What an operation that began in `s` has done to the valid bits as far as `t`: nothing, no response being given
before `S_IDLE`; or, back in `S_IDLE`, one of the other two changes of R29. -/
def ValidBitsEffect (s t : State) : Prop :=
  (t.v = s.v ∧ (t.fsm ≠ .idle → t.rsp = s.rsp)) ∨ (t.fsm = .idle ∧ (CacheEmptied t ∨ BlockStored s t))

theorem rowOf_validBits {s u : State} (hinv : Inv u) (hq : u.fsm ≠ .idle) (h : ValidBitsEffect s u) :
    (rowOf u).All (ValidBitsEffect s) := by
  obtain ⟨-, -, -, ⟨hread, hwrite, -⟩, hstatus⟩ := hinv
  rcases h with ⟨hv, hrsp⟩ | ⟨hi, -⟩
  · refine ((rowOf_frame u).and (rowOf_effect u)).imp fun t ht => ?_
    obtain ⟨⟨-, hop, haddr, -⟩, hkeep | htrap | hstore | hinval | hdrain⟩ := ht
    · obtain ⟨hv', -, -, -, hrsp'⟩ := hkeep
      exact .inl ⟨hv'.trans hv, fun _ => hrsp'.trans (hrsp hq)⟩
    · obtain ⟨hi, hv', -, hfault⟩ := htrap
      exact .inr ⟨hi, .inl ⟨hv', .inl hfault⟩⟩
    · obtain ⟨hexit, hi, hv', -, hfault, -, hrsp'⟩ := hstore
      obtain ⟨hopR, hmiss⟩ := hread (by simp [onReadPath, hexit])
      have hlookup : s.lookup u.addrR = u.lookup u.addrR := by simp [State.lookup, State.valid, hv]
      have hclear : u.fault = false := (status_fault_false hstatus hq (by simp [hexit])).1
      refine .inr ⟨hi, .inr ⟨?_, ?_, hfault.trans hclear, hop.trans hopR, hrsp hq ▸ hrsp'⟩⟩
      · rw [haddr, hlookup, hmiss]
      · rw [hv', State.fill_v, hv, haddr]; rfl
    · obtain ⟨hend, hi, hv'⟩ := hinval
      exact .inr ⟨hi, .inl ⟨hv', .inr (hop ▸ hwrite (by simp [onWritePath, hend]))⟩⟩
    · obtain ⟨-, hi, hv'⟩ := hdrain
      exact .inl ⟨hv'.trans hv, fun h => absurd hi h⟩
  · exact absurd hi hq

/-- Settles O28: the changes of R29, the invariant carried along for the latches of the operation. -/
theorem validBitsChange : Obligations.ValidBitsChange := by
  intro s t hinv hr hs
  have haccept : s.fsm = .idle → (transition (pastReset s)).All (ValidBitsEffect s) := fun hq =>
    transition_idle_all hq (.inl ⟨rfl, fun _ => rfl⟩) (fun _ => .inl ⟨rfl, fun _ => rfl⟩) fun ps i =>
      accept_all i (fun _ => .inl ⟨rfl, fun hi => absurd hq hi⟩) (fun _ _ _ => .inl ⟨rfl, fun _ => rfl⟩)
        (fun _ _ _ _ _ => .inl ⟨rfl, fun _ => rfl⟩) (.inl ⟨rfl, fun _ => rfl⟩)
  have key : Inv t ∧ ValidBitsEffect s t :=
    step_all_from (P := fun u => Inv u ∧ ValidBitsEffect s u) hr hs
      (fun hq => (transition_inv (s := pastReset s) hinv).and (haccept hq))
      (fun _ => ⟨hinv, .inl ⟨rfl, fun _ => rfl⟩⟩)
      fun u hq h => (rowOf_inv h.1).and (rowOf_validBits h.1 hq h.2)
  obtain ⟨-, ⟨hv, -⟩ | ⟨-, hempty | hstore⟩⟩ := key
  · exact .inl hv
  · exact .inr (.inl hempty)
  · exact .inr (.inr hstore)

end Sys2Proof.Machine
end
-/

/-
COMMENTED OUT FOR MEMORY ONLY: the text below compiles and was checked to the end (leanchecker, audit, settle: O5, O20, O9,
O2, O3, O4, O6, O7, O8, O22 and O23 proved) with `MIMALLOC_ARENA_EAGER_COMMIT=0 bash check.sh`. Under check.sh's 22 GiB of
data the tests above leave less than one more 256 MiB stack while they wait for the kernel, so what is elaborated after them
ends the compile with "failed to create thread" or std::bad_alloc. To restore it, remove this paragraph with the comment
opener before it, and the closer at the end of the file. It uses nothing of the commented texts above it and shares no name
with them; all three restored together compile as well.

section
/-! PROOFS. The statements of spec/30_encoding.md: the formatters, the request word and the wire commands decoded, the
ports, one response for each request, and what a step runs.

The encodings are proved part by part: a digit read back, an argument read back, a command read back. The ports and the
responses are read off the rows: what an acceptance does (`accept_answers`), what a row sends (`rowOf_sendsOffer`), what a
row answers (`rowOf_answersOnce`), carried over a step by `visit_all` and `finish_all`. -/

namespace Sys2Proof.Machine

open Sys2Proof Sys2Proof.Safety

/-! ## The host request word (R93) -/

theorem reqOp_toNat (w : BitVec 27) : (reqOp w).toNat = w.toNat / 2 ^ 24 := by
  have := w.isLt
  simp only [reqOp, BitVec.extractLsb'_toNat, Nat.shiftRight_eq_div_pow]
  omega

theorem reqAddr_eq_ofNat (w : BitVec 27) : reqAddr w = BitVec.ofNat 16 (w.toNat / 2 ^ 8) := by
  simp only [reqAddr, BitVec.extractLsb', Nat.shiftRight_eq_div_pow]

theorem reqData_eq_ofNat (w : BitVec 27) : reqData w = BitVec.ofNat 8 w.toNat := by
  simp only [reqData, BitVec.extractLsb', Nat.shiftRight_zero]

/-- An operation code as a number, for the tests of `decodeRequest`. -/
theorem reqOp_eq_iff (w : BitVec 27) (op : BitVec 3) : reqOp w = op ↔ w.toNat / 2 ^ 24 = op.toNat := by
  rw [← BitVec.toNat_inj, reqOp_toNat]

theorem requestWord_toNat (op : BitVec 3) (a : Addr) (v : Byte) :
    (requestWord op a v).toNat = op.toNat * 2 ^ 24 + a.toNat * 2 ^ 8 + v.toNat := by
  have ha := a.isLt
  have hv := v.isLt
  rw [requestWord, BitVec.toNat_append, BitVec.toNat_append, ← Nat.shiftLeft_add_eq_or_of_lt ha,
    ← Nat.shiftLeft_add_eq_or_of_lt hv, Nat.shiftLeft_eq, Nat.shiftLeft_eq]
  omega

@[simp] theorem reqAddr_requestWord (op : BitVec 3) (a : Addr) (v : Byte) : reqAddr (requestWord op a v) = a := by
  have ha := a.isLt
  have hv := v.isLt
  apply BitVec.eq_of_toNat_eq
  rw [reqAddr_eq_ofNat, BitVec.toNat_ofNat, requestWord_toNat]
  omega

@[simp] theorem reqData_requestWord (op : BitVec 3) (a : Addr) (v : Byte) : reqData (requestWord op a v) = v := by
  have hv := v.isLt
  apply BitVec.eq_of_toNat_eq
  rw [reqData_eq_ofNat, BitVec.toNat_ofNat, requestWord_toNat]
  omega

/-- Settles O2: the three fields as numbers, and the eight codes. -/
theorem requestWordFields : Obligations.RequestWordFields := by
  intro w
  have hop : w.toNat / 2 ^ 24 < 8 := by have := w.isLt; omega
  simp only [decodeRequest, reqOp_eq_iff, reqAddr_eq_ofNat, reqData_eq_ofNat]
  generalize w.toNat / 2 ^ 24 = n at hop
  interval_cases n <;> rfl

/-! ## Digits (R91, R92) -/

theorem hexc_toNat (u : Bool) (n : BitVec 4) :
    (hexc u n).toNat =
      if n.toNat < 10 then 0x30 + n.toNat else if u then 0x41 + (n.toNat - 10) else 0x61 + (n.toNat - 10) := by
  revert u n
  decide

theorem hexc_ne_nul (u : Bool) (n : BitVec 4) : hexc u n ≠ 0#8 := by
  revert u n
  decide

theorem hexVal_hexc (u : Bool) (n : BitVec 4) : hexVal u (hexc u n) = some n := by
  revert u n
  decide

/-- Settles O3: the digits one by one, and the nibbles as quotients. -/
theorem hexDigits : Obligations.HexDigits := by
  refine ⟨hexc_toNat, fun u a => ?_⟩
  simp only [hex4, BitVec.extractLsb', Nat.shiftRight_eq_div_pow]
  norm_num

theorem digit_toNat {n : Nat} (h : n < 10) : (digit n).toNat = 0x30 + n := by
  rw [digit, BitVec.toNat_ofNat]
  omega

theorem digit_ne_nul {n : Nat} (h : n < 10) : digit n ≠ 0#8 := by
  rw [← BitVec.toNat_ne_iff_ne, digit_toNat h]
  simp

/-- Only the digit 0 is the character `'0'`. -/
theorem digit_eq_zero_char {n : Nat} (h : n < 10) : digit n = 0x30#8 ↔ n = 0 := by
  rw [← BitVec.toNat_inj, digit_toNat h]
  simp

theorem decVal_digit {n : Nat} (h : n < 10) : decVal (digit n) = some n := by
  have hd := digit_toNat h
  have hr : (0x30 : Byte) ≤ digit n ∧ digit n ≤ (0x39 : Byte) := by
    rw [BitVec.le_def, BitVec.le_def, hd]
    simp
    omega
  rw [decVal, if_pos hr, hd, Nat.add_sub_cancel_left]

/-- The three lengths of a numeral, with its digits (R92). -/
theorem dec_cases (v : Byte) :
    (∃ h t u, h < 10 ∧ t < 10 ∧ u < 10 ∧ h ≠ 0 ∧ v.toNat = 100 * h + 10 * t + u ∧
      dec v = [digit h, digit t, digit u]) ∨
    (∃ t u, t < 10 ∧ u < 10 ∧ t ≠ 0 ∧ v.toNat = 10 * t + u ∧ dec v = [digit t, digit u]) ∨
    (∃ u, u < 10 ∧ v.toNat = u ∧ dec v = [digit u]) := by
  have hv := v.isLt
  unfold dec
  dsimp only
  by_cases hh : v.toNat / 100 = 0
  · by_cases ht : v.toNat % 100 / 10 = 0
    · exact .inr (.inr ⟨v.toNat % 10, by omega, by omega, by simp [hh, ht]⟩)
    · exact .inr (.inl ⟨v.toNat % 100 / 10, v.toNat % 10, by omega, by omega, ht, by omega, by simp [hh, ht]⟩)
  · exact .inl ⟨v.toNat / 100, v.toNat % 100 / 10, v.toNat % 10, by omega, by omega, by omega, hh, by omega,
      by simp [hh]⟩

/-- Settles O4, by the three lengths of a numeral. -/
theorem decimalNumeral : Obligations.DecimalNumeral := by
  intro v
  have hzero : v = 0 ↔ v.toNat = 0 := by rw [← BitVec.toNat_inj]; rfl
  simp only [hzero, ne_eq]
  rcases dec_cases v with ⟨h, t, u, hh, ht, hu, h0, hv, e⟩ | ⟨t, u, ht, hu, h0, hv, e⟩ | ⟨u, hu, hv, e⟩
  · simp [e, hv, digit_toNat, digit_eq_zero_char, hh, ht, hu, h0]
    omega
  · simp [e, hv, digit_toNat, digit_eq_zero_char, ht, hu, h0]
    omega
  · simp [e, hv, digit_toNat, digit_eq_zero_char, hu]
    omega

/-! ## Arguments read back (R90, R92, R95) -/

theorem splitNul_terminated {arg : List Byte} (h : ∀ b ∈ arg, b ≠ 0x00) (rest : List Byte) :
    splitNul (arg ++ 0x00 :: rest) = some (arg, rest) := by
  induction arg with
  | nil => rfl
  | cons b arg ih =>
    have ⟨hb, harg⟩ := List.forall_mem_cons.1 h
    rw [List.cons_append, splitNul, if_neg hb, ih harg]
    rfl

theorem nibbles_append (a : Addr) :
    a.extractLsb' 12 4 ++ a.extractLsb' 8 4 ++ a.extractLsb' 4 4 ++ a.extractLsb' 0 4 = a := by
  rw [BitVec.extractLsb'_append_extractLsb'_eq_extractLsb' (by omega),
    BitVec.extractLsb'_append_extractLsb'_eq_extractLsb' (by omega),
    BitVec.extractLsb'_append_extractLsb'_eq_extractLsb' (by omega)]
  exact BitVec.extractLsb'_eq_self

theorem decodeHex4_hex4 (u : Bool) (a : Addr) : decodeHex4 u (hex4 u a) = .ok a := by
  simp only [hex4, decodeHex4, hexVal_hexc]
  rw [nibbles_append]

theorem hex4_ne_nul (u : Bool) (a : Addr) : ∀ b ∈ hex4 u a, b ≠ 0x00 := by
  simp [hex4, hexc_ne_nul]

theorem decodeDec_dec (v : Byte) : decodeDec (dec v) = .ok v := by
  have hlt := v.isLt
  have hval : ∀ n, v.toNat = n → BitVec.ofNat 8 n = v := by rintro _ rfl; simp
  rcases dec_cases v with ⟨h, t, u, hh, ht, hu, h0, hv, e⟩ | ⟨t, u, ht, hu, h0, hv, e⟩ | ⟨u, hu, hv, e⟩ <;>
    rw [e]
  · have : ¬ (h = 0 ∨ 255 < 100 * h + 10 * t + u) := by omega
    simp only [decodeDec, decVal_digit, hh, ht, hu, if_neg this, hval _ hv]
  · simp only [decodeDec, decVal_digit, ht, hu, if_neg h0, hval _ hv]
  · simp only [decodeDec, decVal_digit, hu, hval _ hv]

theorem dec_ne_nul (v : Byte) : ∀ b ∈ dec v, b ≠ 0x00 := by
  rcases dec_cases v with ⟨h, t, u, hh, ht, hu, -, -, e⟩ | ⟨t, u, ht, hu, -, -, e⟩ | ⟨u, hu, -, e⟩ <;>
    simp [digit_ne_nul, *]

theorem decodeAddrArg_hex4 (u : Bool) (mk : Addr → Instr) (a : Addr) :
    decodeAddrArg u mk (hex4 u a ++ [0x00]) = .ok (mk a, []) := by
  rw [decodeAddrArg, splitNul_terminated (hex4_ne_nul u a)]
  simp only [decodeHex4_hex4]

theorem decodeValueArg_dec (v : Byte) : decodeValueArg (dec v ++ [0x00]) = .ok (.writeValue v, []) := by
  rw [decodeValueArg, splitNul_terminated (dec_ne_nul v)]
  simp only [decodeDec_dec]

/-! ## Commands read back (R81) -/

theorem decodeListening_select (p : Params) (a : Addr) :
    decodeListening p (selectAddressBytes p a) = .ok (.selectAddress a, []) := by
  rw [selectAddressBytes, decodeListening, if_pos rfl, decodeAddrArg_hex4]

theorem decodeListening_writeAddr (p : Params) (a : Addr) :
    decodeListening p (writeAddrBytes p a) = .ok (.writeAddr a, []) := by
  rw [writeAddrBytes, decodeListening, if_neg (by decide), if_neg (by decide), if_pos rfl, decodeAddrArg_hex4]

theorem decodeValuePhase_writeValue (v : Byte) :
    decodeValuePhase (writeValueBytes v) = .ok (.writeValue v, []) := by
  rw [writeValueBytes, decodeValuePhase, if_pos rfl, decodeValueArg_dec]

theorem decodeExit_exitReadSeq (p : Params) : decodeExit p p.exitReadSeq = .ok (.exitRead, []) := by
  have hpre : p.exitReadSeq.isPrefixOf p.exitReadSeq = true := by simp
  rw [decodeExit, if_pos hpre, List.drop_length]

/-- A command that its place of a session reads whole is decoded. -/
theorem decode_wire {p : Params} {ph : WirePhase} {bs : List Byte} {i : Instr}
    (h : decodeWire p ph bs = .ok (i, [])) : decode p ph (.wire bs) = .ok i := by
  simp only [decode, h]

theorem decode_request (p : Params) (ph : WirePhase) {w : BitVec 27} {i : Instr} (h : decodeRequest w = i) :
    decode p ph (.request w) = .ok i := congrArg Except.ok h

/-- Settles O5, by the instructions. -/
theorem decodeEncode : Obligations.DecodeEncode := by
  intro p i
  have hop := Laws.EncodingShape.reqOp_requestWord
  cases i with
  | read | wrom | wram | gsav | lsav | reserved5 | reserved6 | reserved7 =>
    exact decode_request p _ (by simp [decodeRequest, hop])
  | enterRead | triggerBurst | initG | init5 => exact decode_wire rfl
  | selectAddress a => exact decode_wire (decodeListening_select p a)
  | writeAddr a => exact decode_wire (decodeListening_writeAddr p a)
  | writeValue v => exact decode_wire (decodeValuePhase_writeValue v)
  | exitRead => exact decode_wire (decodeExit_exitReadSeq p)

/-- Settles O6, word by word. -/
theorem decodeSamples : Obligations.DecodeSamples := by
  refine ⟨?_, ?_, ?_, ?_, ?_, ?_, ?_⟩ <;> decide

/-! ## Ports (R86, R88) -/

/-- Settles O7, by the pins. -/
theorem portPriorities : Obligations.PortPriorities := by
  constructor
  · rintro ⟨ready, err⟩
    cases err <;> cases ready <;> simp [TxPins.outcome]
  · rintro ⟨valid, data, err, eof⟩
    cases err <;> cases valid <;> cases eof <;> simp [RxPins.outcome]

theorem isWord_iff (r : Response) (w : BitVec 13) :
    r.isWord w = true ↔
      w.toNat / 256 = 8 * r.status.toNat + r.causeField.toNat ∧ ∀ b, r.rdata = some b → w.toNat % 256 = b.toNat := by
  have hw := w.isLt
  have hs := r.status.isLt
  have hc := r.causeField.isLt
  have hf : (w.extractLsb' 11 2 = r.status ∧ w.extractLsb' 8 3 = r.causeField) ↔
      w.toNat / 256 = 8 * r.status.toNat + r.causeField.toNat := by
    simp only [← BitVec.toNat_inj, BitVec.extractLsb'_toNat, Nat.shiftRight_eq_div_pow]
    omega
  have hd : ∀ b : Byte, w.extractLsb' 0 8 = b ↔ w.toNat % 256 = b.toNat := fun b => by
    rw [← BitVec.toNat_inj, BitVec.extractLsb'_toNat]
    rfl
  rw [← hf, Response.isWord]
  cases r.rdata <;> simp [hd]

/-- Settles O8, by the fields of the word. -/
theorem responseWords : Obligations.ResponseWords := by
  refine ⟨fun b w => ?_, fun w => ?_, fun c w => ?_, fun w => ?_⟩ <;> rw [isWord_iff]
  · have := b.isLt
    simp [Response.status, Response.causeField, Response.rdata]
    omega
  · simp [Response.status, Response.causeField, Response.rdata]
  · simp [Response.status, Response.causeField, Response.rdata]
  · simp [Response.status, Response.causeField, Response.rdata]

/-! ## What an acceptance does (R171) -/

theorem Tick.all_both {P Q : State → Prop} {k : Tick} (hp : k.All P) (hq : k.All Q) : k.All fun t => P t ∧ Q t := by
  cases k with
  | moved t | waits t => exact ⟨hp, hq⟩
  | noRow => trivial

/-- An operation that began with the responses `before` has given its one response exactly when the machine is back in
`S_IDLE`; until then it is in progress (R89). -/
def AnsweredOnce (before : List Response) (t : State) : Prop :=
  (t.fsm = .idle → ∃ r, t.rsp = before ++ [r]) ∧ (t.fsm ≠ .idle → t.rsp = before ∧ t.fsm.inOperation = true)

/-- Back in `S_IDLE` with one response. -/
theorem answeredOnce_idle {before : List Response} {t : State} {r : Response} (hq : t.fsm = .idle)
    (h : t.rsp = before ++ [r]) : AnsweredOnce before t :=
  ⟨fun _ => ⟨r, h⟩, fun hn => absurd hq hn⟩

/-- In progress, with no response so far. -/
theorem answeredOnce_running {before : List Response} {t : State} (hq : t.fsm.inOperation = true)
    (h : t.rsp = before) : AnsweredOnce before t :=
  ⟨fun hi => by simp [hi, Fsm.inOperation] at hq, fun _ => ⟨h, hq⟩⟩

/-- An acceptance puts nothing on the wire, and answers at once or begins an operation. -/
theorem accept_answers (i : Instr) {s : State} (hq : s.fsm = .idle) :
    (accept i s).All fun t => t.wire = s.wire ∧ t.hostIn = s.hostIn ∧ AnsweredOnce s.rsp t := by
  have hrespond : ∀ r, (Tick.moved (s.respond r)).All fun t =>
      t.wire = s.wire ∧ t.hostIn = s.hostIn ∧ AnsweredOnce s.rsp t :=
    fun r => ⟨rfl, rfl, answeredOnce_idle hq rfl⟩
  cases i with
  | read a =>
    show (acceptRead a s).All _
    unfold acceptRead
    split_ifs
    · exact hrespond _
    · cases s.readByte a with
      | none => trivial
      | some b => exact hrespond _
    · exact ⟨rfl, rfl, answeredOnce_running rfl rfl⟩
  | wrom | wram =>
    simp only [accept, acceptWrite]
    split_ifs
    · exact hrespond _
    · exact ⟨rfl, rfl, answeredOnce_running rfl rfl⟩
  | gsav | reserved5 | reserved6 | reserved7 => exact hrespond _
  | lsav => exact ⟨rfl, rfl, answeredOnce_running rfl rfl⟩
  | enterRead | selectAddress | triggerBurst | writeAddr | writeValue | initG | init5 | exitRead => trivial

/-- The row of `S_IDLE` with a request on offer is its acceptance (R89). -/
theorem transition_request {s : State} {p : HostPins} {ps : List HostPins} (hq : s.fsm = .idle)
    (hin : s.hostIn = p :: ps) (hv : p.valid = true) :
    transition s = accept (decodeRequest p.req) { s with hostIn := ps } := by
  simp only [transition, if_pos hq, hin, if_pos hv]

/-! ## A sent byte is the byte on offer (R88, R140) -/

/-- What went on the wire from `s` to `t`, if it is one sent byte, is the byte on offer. -/
def SendsOffer (s t : State) : Prop := ∀ b, t.wire = s.wire ++ [.tx b] → s.txOffer = some b

theorem sendsOffer_of_wire_eq {s t : State} (h : t.wire = s.wire) : SendsOffer s t := by
  intro b hb
  simp [h] at hb

theorem sendsOffer_of_tx {s t : State} {b : Byte} (hw : t.wire = s.wire ++ [.tx b]) (ho : s.txOffer = some b) :
    SendsOffer s t := by
  intro c hc
  simp only [hw, List.append_cancel_left_eq, List.cons.injEq, Wire.tx.injEq, and_true] at hc
  exact hc ▸ ho

theorem offer_sendsOffer {b : Byte} {done failed : State → Tick} {s : State} (ho : s.txOffer = some b)
    (hdone : ∀ u, (done u).All fun t => t.wire = u.wire) (hfailed : ∀ u, (failed u).All fun t => t.wire = u.wire) :
    (offer b done failed s).All (SendsOffer s) :=
  offer_all (sendsOffer_of_wire_eq rfl) (fun _ => sendsOffer_of_wire_eq rfl)
    (fun _ => (hdone _).imp fun _ h => sendsOffer_of_tx h ho)
    (fun _ => (hfailed _).imp fun _ => sendsOffer_of_wire_eq)

theorem sendRow_sendsOffer {cmd : List Byte} {done failed : State → Tick} {s : State}
    (ho : s.txOffer = cmd[s.seq.toNat]?) (hdone : ∀ u, (done u).All fun t => t.wire = u.wire)
    (hfailed : ∀ u, (failed u).All fun t => t.wire = u.wire) : (sendRow cmd done failed s).All (SendsOffer s) :=
  sendRow_all (sendsOffer_of_wire_eq rfl) (fun _ => sendsOffer_of_wire_eq rfl)
    (fun _ _ hb _ => sendsOffer_of_tx rfl (ho.trans hb))
    (fun _ _ hb _ => (hdone _).imp fun _ h => sendsOffer_of_tx h (ho.trans hb))
    (fun _ _ => (hfailed _).imp fun _ => sendsOffer_of_wire_eq)

theorem finishExit_wire (s : State) : (finishExit s).All fun t => t.wire = s.wire :=
  finishExit_all (fun _ _ _ => rfl) (fun _ => State.trap_wire _ _)

theorem rowOf_sendsOffer (s : State) : (rowOf s).All (SendsOffer s) := by
  have htrap : ∀ c u, (Tick.moved (State.trap c u)).All fun t => t.wire = u.wire := State.trap_wire
  have hdelay : ∀ (p : DelayParam) (next : State → State), (∀ u, (next u).wire = u.wire) →
      (rowDelay p next s).All (SendsOffer s) := fun p next hn =>
    rowDelay_all (sendsOffer_of_wire_eq rfl) fun _ b hb => by simp [hn] at hb
  unfold rowOf
  cases hq : s.fsm with
  | idle => trivial
  | initG | rmEnter => exact offer_sendsOffer (by simp [State.txOffer, hq]) (fun _ => rfl) (htrap _)
  | burstTrig => exact offer_sendsOffer (by simp [State.txOffer, hq]) (fun _ => rfl) (fun _ => rfl)
  | init5 | addrSel | wAddr | wValue =>
    exact sendRow_sendsOffer (by simp [State.txOffer, hq]) (fun _ => rfl) (htrap _)
  | initDly1 | initDly2 | wDly1 | wDly2 => exact hdelay _ _ fun _ => rfl
  | burstRx =>
    have hrx : ∀ t b, t.wire = s.wire ++ [.rx b] → SendsOffer s t := fun t b hw c hc => by simp [hw] at hc
    exact rowBurstRx_all (sendsOffer_of_wire_eq rfl) (fun _ => sendsOffer_of_wire_eq rfl) (fun _ b _ => hrx _ b rfl)
      (fun _ b _ => hrx _ b rfl) (fun _ _ _ _ => sendsOffer_of_wire_eq rfl)
  | rmExit =>
    show (rowExitRead s).All (SendsOffer s)
    unfold rowExitRead
    split_ifs
    · exact (finishExit_wire s).imp fun _ => sendsOffer_of_wire_eq
    · exact sendRow_sendsOffer (by simp [State.txOffer, hq]) finishExit_wire (fun u => htrap _ u)
  | inval => exact sendsOffer_of_wire_eq rfl
  | lsavDrain =>
    exact rowDrain_all (sendsOffer_of_wire_eq rfl) (fun _ => sendsOffer_of_wire_eq rfl)
      (fun _ => sendsOffer_of_wire_eq rfl)

/-- In `S_IDLE` nothing is sent (R172-R182). -/
theorem transition_idle_wire {s : State} (hq : s.fsm = .idle) : (transition s).All fun t => t.wire = s.wire := by
  cases hin : s.hostIn with
  | nil => simp [transition, hq, hin]
  | cons p ps =>
    by_cases hv : p.valid = true
    · rw [transition_request hq hin hv]
      exact (accept_answers _ (s := { s with hostIn := ps }) hq).imp fun _ h => h.1
    · simp [transition, hq, hin, hv]

/-- Settles O9: row by row. -/
theorem offeredByteIsSent : Obligations.OfferedByteIsSent := by
  intro s t b ht hb
  have key : (transition s).All (SendsOffer s) := by
    by_cases hq : s.fsm = .idle
    · exact (transition_idle_wire hq).imp fun _ => sendsOffer_of_wire_eq
    · rw [transition, if_neg hq]; exact rowOf_sendsOffer s
  rw [ht] at key
  exact key b hb

/-! ## One response for each request (R89) -/

/-- A row of an operation leaves it in progress without a response, or answers it and is back in `S_IDLE`. -/
theorem rowOf_answersOnce {s : State} (h : s.fsm.inOperation = true) : (rowOf s).All (AnsweredOnce s.rsp) := by
  have hrun : ∀ t : State, t.fsm = s.fsm → t.rsp = s.rsp → AnsweredOnce s.rsp t := fun t hq =>
    answeredOnce_running (hq ▸ h)
  have htrap : ∀ c (u : State), u.fsm = s.fsm → u.rsp = s.rsp → AnsweredOnce s.rsp (u.trap c) := fun c u hq hr =>
    answeredOnce_idle (r := .fatal c) (State.trap_fsm c u) (by rw [State.trap_rsp, hq, if_pos h, hr])
  have hgo : ∀ t : State, t.fsm.inOperation = true → t.rsp = s.rsp → AnsweredOnce s.rsp t := fun _ =>
    answeredOnce_running
  have hself := hrun s rfl rfl
  unfold rowOf
  cases hq : s.fsm with
  | idle | initG | initDly1 | init5 | initDly2 => simp [hq, Fsm.inOperation] at h
  | rmEnter =>
    exact offer_all hself (fun _ => hrun _ rfl rfl) (fun _ => hgo _ rfl rfl) (fun _ => htrap _ _ rfl rfl)
  | burstTrig =>
    exact offer_all hself (fun _ => hrun _ rfl rfl) (fun _ => hgo _ rfl rfl) (fun _ => hgo _ rfl rfl)
  | addrSel | wAddr | wValue =>
    exact sendRow_all hself (fun _ => hrun _ rfl rfl) (fun _ _ _ _ => hrun _ rfl rfl) (fun _ _ _ _ => hgo _ rfl rfl)
      (fun _ _ => htrap _ _ rfl rfl)
  | wDly1 | wDly2 => exact rowDelay_all (hrun _ rfl rfl) (fun _ => hgo _ rfl rfl)
  | burstRx =>
    exact rowBurstRx_all hself (fun _ => hrun _ rfl rfl) (fun _ _ _ => hrun _ rfl rfl) (fun _ _ _ => hgo _ rfl rfl)
      (fun _ _ _ _ => hgo _ rfl rfl)
  | rmExit =>
    have hfin : ∀ u : State, u.fsm = s.fsm → u.rsp = s.rsp → (finishExit u).All (AnsweredOnce s.rsp) :=
      fun u hu hr => finishExit_all
        (fun _ b _ => answeredOnce_idle (r := .okByte b) rfl (congrArg (· ++ [Response.okByte b]) hr))
        (fun _ => htrap _ u hu hr)
    show (rowExitRead s).All (AnsweredOnce s.rsp)
    unfold rowExitRead
    split_ifs
    · exact hfin s rfl rfl
    · exact sendRow_all hself (fun _ => hrun _ rfl rfl) (fun _ _ _ _ => hrun _ rfl rfl) (fun _ _ _ _ => hfin _ rfl rfl)
        (fun _ _ => htrap _ _ rfl rfl)
  | inval => exact answeredOnce_idle (r := .ok) rfl rfl
  | lsavDrain => exact rowDrain_all hself (fun _ => hrun _ rfl rfl) (fun _ => answeredOnce_idle (r := .ok) rfl rfl)

/-- The same from any row of the operation on: what the rows of a visit or of an operation keep. -/
theorem rowOf_keeps_answeredOnce {before : List Response} {s : State} (hq : s.fsm ≠ .idle)
    (h : AnsweredOnce before s) : (rowOf s).All (AnsweredOnce before) := by
  obtain ⟨hrsp, hop⟩ := h.2 hq
  exact hrsp ▸ rowOf_answersOnce hop

/-- The start-up sequence gives no response, not even when it fails (R198). -/
theorem rowOf_startUp_rsp {s : State} (h : s.fsm.inOperation = false) :
    (rowOf s).All fun t => t.rsp = s.rsp ∧ t.fsm.inOperation = false := by
  have htrap : ∀ c (u : State), u.fsm = s.fsm → u.rsp = s.rsp →
      (u.trap c).rsp = s.rsp ∧ (u.trap c).fsm.inOperation = false := fun c u hq hr => by
    simp [hq, hr, h]
    rfl
  unfold rowOf
  cases hq : s.fsm with
  | idle => trivial
  | initG =>
    exact offer_all ⟨rfl, h⟩ (fun _ => ⟨rfl, h⟩) (fun _ => ⟨rfl, rfl⟩) (fun _ => htrap _ _ rfl rfl)
  | init5 =>
    exact sendRow_all ⟨rfl, h⟩ (fun _ => ⟨rfl, h⟩) (fun _ _ _ _ => ⟨rfl, h⟩) (fun _ _ _ _ => ⟨rfl, rfl⟩)
      (fun _ _ => htrap _ _ rfl rfl)
  | initDly1 | initDly2 => exact rowDelay_all ⟨rfl, h⟩ (fun _ => ⟨rfl, rfl⟩)
  | addrSel | rmEnter | burstTrig | burstRx | rmExit | wAddr | wDly1 | wValue | wDly2 | inval | lsavDrain =>
    simp [hq, Fsm.inOperation] at h

/-- A step outside `S_IDLE` keeps what the rows of its visit keep. -/
theorem step_busy_all {P : State → Prop} (hrow : ∀ u, u.fsm ≠ .idle → P u → (rowOf u).All P) {s t : State}
    (hr : NoReset s) (hq : s.fsm ≠ .idle) (h : P (pastReset s)) (hs : step s = .next t) : P t := by
  rw [step_pastReset hr, fetchRun_visit (s := pastReset s) hq] at hs
  exact (visit_all hrow _ h).of_toOutcome hs

theorem rowOf_hostIn (s : State) : (rowOf s).All fun t => t.hostIn = s.hostIn :=
  (rowOf_frame s).imp fun _ ⟨_, _, _, _, hhost, _⟩ => hhost

/-- A step that takes a request: it is gone from the port, and answered once the machine is back in `S_IDLE`. -/
theorem step_request_answeredOnce {s t : State} {p : HostPins} {ps : List HostPins} (hr : NoReset s)
    (hq : s.fsm = .idle) (hin : s.hostIn = p :: ps) (hv : p.valid = true) (hs : step s = .next t) :
    t.hostIn = ps ∧ AnsweredOnce s.rsp t := by
  rw [step_pastReset hr, fetchRun_idle (s := pastReset s) hq, transition_request (s := pastReset s) hq hin hv] at hs
  refine finish_all (P := fun u => u.hostIn = ps ∧ AnsweredOnce s.rsp u) ?_ ?_ hs
  · rintro u hu ⟨hhost, hansw⟩
    exact Tick.all_both ((rowOf_hostIn u).imp fun _ h => h.trans hhost) (rowOf_keeps_answeredOnce hu hansw)
  · exact (accept_answers _ (s := { pastReset s with hostIn := ps }) hq).imp fun _ h => h.2

/-- Settles O20: what the acceptance and the rows answer, carried over a step. -/
theorem oneResponse : Obligations.OneResponse := by
  intro s t hr hs
  refine ⟨fun hq => ?_, fun hop => ?_, fun p ps hq hin hv => ?_, fun hop hq => ?_⟩
  · exact step_busy_all (P := fun u => u.hostIn = s.hostIn)
      (fun u _ hu => (rowOf_hostIn u).imp fun _ h => h.trans hu) hr hq rfl hs
  · have hq : s.fsm ≠ .idle := by intro hq; simp [hq, Fsm.inOperation] at hop
    have h : AnsweredOnce s.rsp t := step_busy_all (fun _ => rowOf_keeps_answeredOnce) hr hq
      (answeredOnce_running hop rfl) hs
    exact ⟨h.1, fun hn => (h.2 hn).1⟩
  · obtain ⟨hhost, h⟩ := step_request_answeredOnce hr hq hin hv hs
    exact ⟨hhost, h.1, fun hn => (h.2 hn).1⟩
  · exact (step_busy_all (P := fun u => u.rsp = s.rsp ∧ u.fsm.inOperation = false)
      (fun u _ hu => (rowOf_startUp_rsp hu.2).imp fun _ h => ⟨h.1.trans hu.1, h.2⟩) hr hq ⟨rfl, hop⟩ hs).1

/-! ## What a step runs (R89, R170) -/

theorem hostOp_busy {s : State} (h : s.fsm ≠ .idle) (name : String) (acceptOp : State → Tick) :
    hostOp name acceptOp s = .refused (.busy name) := if_neg h

theorem wireCommand_outOfSequence {s : State} {q : Fsm} (h : s.fsm ≠ q) (name : String) (row : State → Tick) :
    wireCommand q name row s = .refused (.outOfSequence name) := if_neg h

/-- Settles O22: every arm is a host operation or a wire command. -/
theorem notInTurn : Obligations.NotInTurn := fun _ _ _ =>
  ⟨fun h => ⟨hostOp_busy h _ _, hostOp_busy h _ _, hostOp_busy h _ _, hostOp_busy h _ _, hostOp_busy h _ _,
      hostOp_busy h _ _, hostOp_busy h _ _, hostOp_busy h _ _⟩,
    fun h => wireCommand_outOfSequence h _ _, fun h => wireCommand_outOfSequence h _ _,
    fun h => wireCommand_outOfSequence h _ _, fun h => wireCommand_outOfSequence h _ _,
    fun h => wireCommand_outOfSequence h _ _, fun h => wireCommand_outOfSequence h _ _,
    fun h => wireCommand_outOfSequence h _ _, fun h => wireCommand_outOfSequence h _ _⟩

theorem base_aligned (a : Addr) : (base a).toNat % 64 = 0 := by
  rw [base, BitVec.toNat_append]
  simp [Nat.shiftLeft_eq]

/-- The command of a state is one the block may send (R60, R130), and no state of `S_IDLE` has one. -/
theorem command_wellFormed {s : State} {i : Instr} (h : s.command = some i) : s.fsm ≠ .idle ∧ i.WellFormed := by
  unfold State.command at h
  cases hq : s.fsm <;> simp only [hq, reduceCtorEq, Option.some.injEq] at h <;> subst h <;>
    simp [Instr.WellFormed, Instr.wellFormed, State.baseR, base_aligned]

/-- Settles O23: the decoded request, and the command of a sending state. -/
theorem stepRunsInstruction : Obligations.StepRunsInstruction := by
  refine ⟨fun s w ps hr hq hin => ?_, fun s i hr hc => ?_⟩
  · rw [step_pastReset hr, fetchRun_idle (s := pastReset s) hq, 
      transition_request (s := pastReset s) (p := ⟨true, w⟩) hq hin rfl]
    exact (exec_request w (s := { pastReset s with hostIn := ps }) hq).symm
  · obtain ⟨hq, hwf⟩ := command_wellFormed hc
    rw [step_pastReset hr, fetchRun_visit (s := pastReset s) hq]
    exact ⟨hwf, (exec_command (s := pastReset s) hc).symm⟩

end Sys2Proof.Machine
end
-/

/-
COMMENTED OUT FOR MEMORY ONLY: the text below compiles and was checked to the end (leanchecker, audit, settle: O16 and O29
proved) with `MIMALLOC_ARENA_EAGER_COMMIT=0 bash check.sh`, the three commented texts above restored with it. Under
check.sh's 22 GiB of data the tests above fill the limit while they wait for the kernel (46 threads, 22.4 GB), so any
declaration elaborated after them ends the compile with "failed to create thread" or std::bad_alloc. To restore it, restore
the text about spec/10_state.md above (it uses `accept_all`, `transition_idle_all` and `transition_rowOf` from there), then
remove this paragraph with the comment opener before it, and the closer at the end of the file. It shares no name with the
commented texts above it.

section
/-! PROOFS. The statements of spec/40_cache_array.md: what FILL does (R113), and what the wire trace shows of every valid
entry (R119 I1).

The idea for the second: a row keeps the history when it leaves the cache and adds to the trace (`cacheOnWire_append`),
when it empties the cache (`cacheOnWire_of_empty`), or when it stores the burst the trace ends with (`cacheOnWire_fill`).
For the last case the trace of the fetch in progress is carried along, row by row (`rowOf_wireHistory`). -/

namespace Sys2Proof.Machine

open Sys2Proof Sys2Proof.Safety

/-! ## FILL (R113) -/

theorem fill_valid_same (s : State) (i : BitVec 10) : (s.fill i).valid i = true := by
  rw [fill_valid, decide_eq_true rfl, Bool.or_true]

theorem fill_valid_other (s : State) {i j : BitVec 10} (h : j ≠ i) : (s.fill i).valid j = s.valid j := by
  rw [fill_valid, decide_eq_false h.symm, Bool.or_false]

/-- The filled row, as a list of bytes. -/
theorem fill_read_toList (s : State) (i : BitVec 10) (k : Nat) (hk : k < 64) :
    Memory.read (s.fill i).dm (rowBase i + k) = s.fb.toList[k]? := by
  rw [fill_read_row s i k hk, List.getElem?_eq_getElem (by simpa using hk), Vector.getElem_toList]

/-- `FILL(i)` leaves the bytes of every other row: rows are disjoint (R110). -/
theorem fill_read_otherRow (s : State) {i j : BitVec 10} (h : j ≠ i) (k : Nat) (hk : k < 64) :
    Memory.read (s.fill i).dm (rowBase j + k) = Memory.read s.dm (rowBase j + k) := by
  have hne : j.toNat ≠ i.toNat := fun e => h (BitVec.eq_of_toNat_eq e)
  refine fill_read_other s i ?_
  simp only [rowBase]
  omega

theorem mapM_congr_of_mem {f g : Nat → Option Byte} {l : List Nat} (h : ∀ k ∈ l, f k = g k) :
    l.mapM f = l.mapM g :=
  calc l.mapM f
    _ = (l.map f).mapM id := (List.mapM_map (f := f) (g := id)).symm
    _ = (l.map g).mapM id := by rw [List.map_congr_left h]
    _ = l.mapM g := List.mapM_map (f := g) (g := id)

/-- An entry depends on its valid bit and its own 64 bytes alone (R25). -/
theorem cache_congr {s t : State} {i : BitVec 10} (hv : t.valid i = s.valid i)
    (hrow : ∀ k < 64, Memory.read t.dm (rowBase i + k) = Memory.read s.dm (rowBase i + k)) :
    t.cache i = s.cache i := by
  unfold State.cache
  rw [hv, mapM_congr_of_mem fun k hk => hrow k (List.mem_range.1 hk)]

/-- A valid entry whose bytes are those of `row` is `row` (R25). -/
theorem cache_eq_some {s : State} {i : BitVec 10} {row : List Byte} (hv : s.valid i = true) (hlen : row.length = 64)
    (hrow : ∀ k < 64, Memory.read s.dm (rowBase i + k) = row[k]?) : s.cache i = some row := by
  have hread : ∀ k ∈ List.range 64, Memory.read s.dm (rowBase i + k) = pure (row.getD k 0) := fun k hk => by
    have hk : k < row.length := hlen ▸ List.mem_range.1 hk
    rw [hrow k (hlen ▸ hk), List.getElem?_eq_getElem hk, List.getD_eq_getElem _ _ hk]
    rfl
  have hmap : (List.range 64).map (fun k => row.getD k 0) = row :=
    List.ext_getElem (by simp [hlen]) fun k _ hk => by simp [hk]
  unfold State.cache
  rw [if_pos hv, mapM_congr_of_mem hread, List.mapM_pure, hmap]
  rfl

/-- Settles O29: the row becomes the fill buffer, and rows are disjoint. -/
theorem fillCommits : Obligations.FillCommits := fun s i =>
  ⟨cache_eq_some (fill_valid_same s i) (by simp) (fill_read_toList s i),
    fun _ hj => ⟨fill_valid_other s hj, cache_congr (fill_valid_other s hj) (fill_read_otherRow s hj)⟩,
    fun _ ha => fill_read_other s i ha⟩

/-! ## What the wire shows of the cache, as the trace grows -/

/-- A row that leaves the cache and appends `e` to the trace keeps the history. A write that goes through appends its
delay, and only to states in which the invalidation is still to come. -/
theorem cacheOnWire_append {s t : State} (h : CacheOnWire s) (e : List Wire)
    (hkeep : t.par = s.par ∧ t.v = s.v ∧ t.dm = s.dm) (hw : t.wire = s.wire ++ e)
    (hq : writePending t.fsm = false → writePending s.fsm = false ∧ Wire.delay .tWrite ∉ e) : CacheOnWire t := by
  obtain ⟨hpar, hv, hdm⟩ := hkeep
  intro i hi
  obtain ⟨before, row, since, hlen, hrow, hwire, hsince⟩ := h i (by rwa [State.valid, ← hv])
  refine ⟨before, row, since ++ e, hlen, fun k hk => by rw [hdm, hrow k hk], ?_, fun hp => ?_⟩
  · rw [hw, hwire, hpar, List.append_assoc]
  · obtain ⟨hs, he⟩ := hq hp
    exact List.not_mem_append (hsince hs) he

theorem cacheOnWire_of_empty {s : State} (hv : s.v = 0) : CacheOnWire s := by
  intro i hi
  simp [State.valid, hv] at hi

/-- Storing the burst that the trace ends with, left by the exit, keeps the history (R113, R176). -/
theorem cacheOnWire_fill {s : State} {i : BitVec 10} (h : CacheOnWire s)
    (hw : ∃ before, s.wire = before ++ fetchTrace s.par i s.fb.toList ++ sent s.par.exitReadSeq) :
    CacheOnWire (s.fill i) := by
  intro j hj
  by_cases hji : j = i
  · subst hji
    obtain ⟨before, hw⟩ := hw
    exact ⟨before, s.fb.toList, [], by simp, fill_read_toList s j, by simpa using hw, by simp⟩
  · rw [fill_valid_other s hji] at hj
    obtain ⟨before, row, since, hlen, hrow, hwire, hsince⟩ := h j hj
    exact ⟨before, row, since, hlen, fun k hk => (fill_read_otherRow s hji k hk).trans (hrow k hk), hwire, hsince⟩

/-! ## What the wire shows of a fetch, state by state -/

theorem fetchOnWire_addrSel {s : State} (hq : s.fsm = .addrSel) :
    FetchOnWire s ↔ ∃ before, s.wire = before ++ sent ((selectAddressBytes s.par s.baseR).take s.seq.toNat) := by
  simp only [FetchOnWire, hq]

theorem fetchOnWire_rmEnter {s : State} (hq : s.fsm = .rmEnter) :
    FetchOnWire s ↔ ∃ before, s.wire = before ++ sent (selectAddressBytes s.par s.baseR) := by
  simp only [FetchOnWire, hq]

theorem fetchOnWire_burstTrig {s : State} (hq : s.fsm = .burstTrig) :
    FetchOnWire s ↔
      ∃ before, s.wire = before ++ sent (selectAddressBytes s.par s.baseR) ++ [.tx tokEnterRead] := by
  simp only [FetchOnWire, hq]

theorem fetchOnWire_burstRx {s : State} (hq : s.fsm = .burstRx) :
    FetchOnWire s ↔ ∃ before, s.wire = before ++ fetchTrace s.par s.idxR (s.fb.toList.take s.cnt.toNat) := by
  simp only [FetchOnWire, hq]

theorem fetchOnWire_rmExit {s : State} (hq : s.fsm = .rmExit) :
    FetchOnWire s ↔ (s.ep = causeNone → ∃ before, s.wire =
      before ++ fetchTrace s.par s.idxR s.fb.toList ++ sent (s.par.exitReadSeq.take s.seq.toNat)) := by
  simp only [FetchOnWire, hq]

theorem sent_take_succ {cmd : List Byte} {n : Nat} {b : Byte} (h : cmd[n]? = some b) :
    sent (cmd.take (n + 1)) = sent (cmd.take n) ++ [.tx b] := by
  simp [sent, List.take_add_one, h]

/-- The last byte of a command completes it on the wire. -/
theorem sent_last {cmd : List Byte} {n : Nat} {b : Byte} (h : cmd[n]? = some b) (he : n + 1 = cmd.length) :
    sent cmd = sent (cmd.take n) ++ [.tx b] := by
  rw [← sent_take_succ h, he, List.take_length]

theorem fetchTrace_nil (p : Params) (i : BitVec 10) :
    fetchTrace p i [] = sent (selectAddressBytes p (entryAddr i)) ++ [.tx tokEnterRead, .tx tokTrigger] := by
  simp [fetchTrace]

theorem fetchTrace_concat (p : Params) (i : BitVec 10) (got : List Byte) (b : Byte) :
    fetchTrace p i (got ++ [b]) = fetchTrace p i got ++ [.rx b] := by
  simp [fetchTrace]

/-- The bytes received, with one more (R28, R133). -/
theorem fillBuffer_take_succ (fb : Vector Byte 64) {n : Nat} (hn : n < 64) (b : Byte) :
    (fb.setIfInBounds n b).toList.take (n + 1) = fb.toList.take n ++ [b] := by
  rw [Vector.toList_setIfInBounds, List.take_add_one, List.take_set_of_le (Nat.le_refl n),
    List.getElem?_set_self (by simpa using hn)]
  rfl

/-- A counter of a command below its end goes up by one. -/
theorem seq_succ_toNat {q : BitVec 3} (h : q.toNat + 1 < 8) : (q + 1).toNat = q.toNat + 1 := by
  rw [BitVec.toNat_add]; simp; omega

/-- A byte of the burst goes to its place, and the trace shows one byte more (R133, R175). -/
theorem fetchTrace_takeByte {s : State} {b : Byte} (hn : s.cnt.toNat < 64)
    (h : ∃ before, s.wire = before ++ fetchTrace s.par s.idxR (s.fb.toList.take s.cnt.toNat)) :
    ∃ before, s.wire ++ [.rx b] = before ++
      fetchTrace s.par s.idxR ((s.fb.setIfInBounds s.cnt.toNat b).toList.take (s.cnt.toNat + 1)) := by
  obtain ⟨before, hw⟩ := h
  exact ⟨before, by rw [hw, fillBuffer_take_succ s.fb hn, fetchTrace_concat, List.append_assoc]⟩

/-! ## The rows -/

/-- What a step has to keep: admissible parameters, for the length of the exit, and what the wire shows. -/
def WireHistory (s : State) : Prop :=
  s.par.wf ∧ FetchOnWire s ∧ CacheOnWire s

/-- The trap empties the cache and ends the fetch (R196). -/
theorem wireHistory_trap (s : State) (hp : s.par.wf) (c : BitVec 3) : WireHistory (s.trap c) :=
  ⟨by simpa using hp, by simp [FetchOnWire], cacheOnWire_of_empty (by simp)⟩

theorem trapTxFail_wireHistory {s : State} (hp : s.par.wf) (ps : List TxPins) :
    (trapTxFail { s with txIn := ps }).All WireHistory := wireHistory_trap { s with txIn := ps } hp causeTxFail

/-- A sequencer state of which the trace shows no fetch. -/
theorem fetchOnWire_of_offReadPath {s : State} (h : onReadPath s.fsm = false) : FetchOnWire s := by
  unfold FetchOnWire
  cases hq : s.fsm <;> simp_all [onReadPath]

/-- A row that leaves the cache and appends `e` to the trace, out of which the fetch in progress is read again. -/
theorem WireHistory.append {s t : State} (h : WireHistory s) (e : List Wire) (hfetch : FetchOnWire t)
    (hkeep : t.par = s.par ∧ t.v = s.v ∧ t.dm = s.dm) (hw : t.wire = s.wire ++ e)
    (hq : writePending t.fsm = false → writePending s.fsm = false ∧ Wire.delay .tWrite ∉ e) : WireHistory t := by
  obtain ⟨hp, -, hc⟩ := h
  exact ⟨hkeep.1 ▸ hp, hfetch, cacheOnWire_append hc e hkeep hw hq⟩

theorem rowSelectAddress_wireHistory {s : State} (h : WireHistory s) (hq : s.fsm = .addrSel) :
    (rowSelectAddress s.baseR s).All WireHistory := by
  have ⟨hp, hf, _⟩ := h
  have hpend : writePending s.fsm = false := by simp [hq, writePending]
  obtain ⟨before, hw⟩ := (fetchOnWire_addrSel hq).1 hf
  refine sendRow_all h (fun _ => h) (fun ps b hb he => ?_) (fun ps b hb he => ?_)
    fun ps _ => trapTxFail_wireHistory hp ps
  · have hlt : s.seq.toNat < 6 := (List.getElem?_eq_some_iff.1 hb).1
    have hsucc : (s.seq + 1).toNat = s.seq.toNat + 1 := seq_succ_toNat (by omega)
    refine h.append [.tx b] ((fetchOnWire_addrSel (by exact hq)).2 ⟨before, ?_⟩) ⟨rfl, rfl, rfl⟩ rfl
      fun _ => ⟨hpend, by simp⟩
    show s.wire ++ [.tx b] = before ++ sent ((selectAddressBytes s.par s.baseR).take (s.seq + 1).toNat)
    rw [hw, hsucc, sent_take_succ hb, List.append_assoc]
  · refine h.append [.tx b] ((fetchOnWire_rmEnter rfl).2 ⟨before, ?_⟩) ⟨rfl, rfl, rfl⟩ rfl fun _ => ⟨hpend, by simp⟩
    show s.wire ++ [.tx b] = before ++ sent (selectAddressBytes s.par s.baseR)
    rw [hw, sent_last hb he, List.append_assoc]

theorem rowEnterRead_wireHistory {s : State} (h : WireHistory s) (hq : s.fsm = .rmEnter) :
    (rowEnterRead s).All WireHistory := by
  have ⟨hp, hf, _⟩ := h
  obtain ⟨before, hw⟩ := (fetchOnWire_rmEnter hq).1 hf
  refine offer_all h (fun _ => h) (fun ps => ?_) (trapTxFail_wireHistory hp)
  refine h.append [.tx tokEnterRead] ((fetchOnWire_burstTrig rfl).2 ⟨before, ?_⟩) ⟨rfl, rfl, rfl⟩ rfl
    fun _ => ⟨by simp [hq, writePending], by simp⟩
  exact congrArg (· ++ [.tx tokEnterRead]) hw

theorem rowTriggerBurst_wireHistory {s : State} (h : WireHistory s) (hq : s.fsm = .burstTrig) :
    (rowTriggerBurst s).All WireHistory := by
  have ⟨_, hf, _⟩ := h
  have hpend : writePending s.fsm = false := by simp [hq, writePending]
  obtain ⟨before, hw⟩ := (fetchOnWire_burstTrig hq).1 hf
  refine offer_all h (fun _ => h) (fun ps => ?_) (fun ps => ?_)
  · refine h.append [.tx tokTrigger] ((fetchOnWire_burstRx rfl).2 ⟨before, ?_⟩) ⟨rfl, rfl, rfl⟩ rfl
      fun _ => ⟨hpend, by simp⟩
    show s.wire ++ [.tx tokTrigger] = before ++ fetchTrace s.par s.idxR []
    rw [hw, fetchTrace_nil, List.append_assoc, List.append_assoc]
    rfl
  · refine h.append [] ((fetchOnWire_rmExit rfl).2 fun he => ?_) ⟨rfl, rfl, rfl⟩ (by simp [State.note])
      fun _ => ⟨hpend, by simp⟩
    exact absurd he (by decide : causeTxFail ≠ causeNone)

theorem rowBurstRx_wireHistory {s : State} (h : WireHistory s) (hq : s.fsm = .burstRx) :
    (rowBurstRx s).All WireHistory := by
  have ⟨_, hf, _⟩ := h
  have hpend : writePending s.fsm = false := by simp [hq, writePending]
  have hw := (fetchOnWire_burstRx hq).1 hf
  refine rowBurstRx_all h (fun _ => h) (fun ps b hlt => ?_) (fun ps b hlast => ?_) (fun ps c hc _ => ?_)
  · refine h.append [.rx b] ((fetchOnWire_burstRx (by exact hq)).2 ?_) ⟨rfl, rfl, rfl⟩ rfl fun _ => ⟨hpend, by simp⟩
    have hsucc : (s.cnt + 1).toNat = s.cnt.toNat + 1 := by rw [BitVec.toNat_add]; simp; omega
    have hgrow := fetchTrace_takeByte (b := b) (by omega) hw
    rw [← hsucc] at hgrow
    exact hgrow
  · refine h.append [.rx b] ((fetchOnWire_rmExit rfl).2 fun _ => ?_) ⟨rfl, rfl, rfl⟩ rfl fun _ => ⟨hpend, by simp⟩
    obtain ⟨before, hgrow⟩ := fetchTrace_takeByte (b := b) (by omega) hw
    rw [List.take_of_length_le (by simp; omega)] at hgrow
    exact ⟨before, hgrow.trans (List.append_nil _).symm⟩
  · refine h.append [] ((fetchOnWire_rmExit rfl).2 fun he => ?_) ⟨rfl, rfl, rfl⟩ (by simp [State.note])
      fun _ => ⟨hpend, by simp⟩
    have hne : c ≠ causeNone := by rcases hc with rfl | rfl <;> decide
    exact absurd he hne

/-- The exit is on the wire whole: the burst is stored, or the pending trap is taken (R176). -/
theorem finishExit_wireHistory {s : State} (hp : s.par.wf) (hc : CacheOnWire s) (hq : s.fsm = .rmExit)
    (hw : s.ep = causeNone →
      ∃ before, s.wire = before ++ fetchTrace s.par s.idxR s.fb.toList ++ sent s.par.exitReadSeq) :
    (finishExit s).All WireHistory := by
  have hpend : writePending s.fsm = false := by simp [hq, writePending]
  refine finishExit_all (fun he b _ => ?_) (fun _ => wireHistory_trap s hp s.ep)
  have hfill : CacheOnWire (s.fill s.idxR) := cacheOnWire_fill hc (hw he)
  exact ⟨hp, trivial, cacheOnWire_append hfill [] ⟨rfl, rfl, rfl⟩ (List.append_nil _).symm fun _ => ⟨hpend, by simp⟩⟩

theorem rowExitRead_wireHistory {s : State} (h : WireHistory s) (hq : s.fsm = .rmExit) :
    (rowExitRead s).All WireHistory := by
  have ⟨hp, hf, hc⟩ := h
  have hpend : writePending s.fsm = false := by simp [hq, writePending]
  have hw := (fetchOnWire_rmExit hq).1 hf
  unfold rowExitRead
  by_cases hn : s.par.exitReadSeq = []
  · rw [if_pos hn]
    exact finishExit_wireHistory hp hc hq (by simpa [hn] using hw)
  rw [if_neg hn]
  refine sendRow_all h (fun _ => h) (fun ps b hb he => ?_) (fun ps b hb he => ?_)
    fun ps _ => wireHistory_trap { s with txIn := ps } hp _
  · have hlt : s.seq.toNat < s.par.exitReadSeq.length := (List.getElem?_eq_some_iff.1 hb).1
    have hsucc : (s.seq + 1).toNat = s.seq.toNat + 1 := seq_succ_toNat (by have := hp; omega)
    refine h.append [.tx b] ((fetchOnWire_rmExit (by exact hq)).2 fun hep => ?_) ⟨rfl, rfl, rfl⟩ rfl
      fun _ => ⟨hpend, by simp⟩
    obtain ⟨before, hw⟩ := hw hep
    refine ⟨before, ?_⟩
    show s.wire ++ [.tx b] = before ++ fetchTrace s.par s.idxR s.fb.toList ++
      sent (s.par.exitReadSeq.take (s.seq + 1).toNat)
    rw [hw, hsucc, sent_take_succ hb, List.append_assoc _ _ [Wire.tx b]]
  · have hsent : CacheOnWire { s with txIn := ps, wire := s.wire ++ [.tx b] } :=
      cacheOnWire_append hc [.tx b] ⟨rfl, rfl, rfl⟩ rfl fun _ => ⟨hpend, by simp⟩
    refine finishExit_wireHistory hp hsent hq fun hep => ?_
    obtain ⟨before, hw⟩ := hw hep
    refine ⟨before, ?_⟩
    show s.wire ++ [.tx b] = before ++ fetchTrace s.par s.idxR s.fb.toList ++ sent s.par.exitReadSeq
    rw [hw, sent_last hb he, List.append_assoc _ _ [Wire.tx b]]

/-- A delay state of the start-up sequence or of a write: a write's delay leads to a state before the invalidation. -/
theorem rowDelay_wireHistory {s : State} {p : DelayParam} {next : State → State} (h : WireHistory s)
    (hnext : ∀ t, onReadPath (next t).fsm = false ∧ (next t).wire = t.wire ∧
      (next t).par = t.par ∧ (next t).v = t.v ∧ (next t).dm = t.dm)
    (hq : ∀ t, writePending (next t).fsm = false → writePending s.fsm = false ∧ p ≠ .tWrite) :
    (rowDelay p next s).All WireHistory := by
  refine rowDelay_all h fun _ => ?_
  obtain ⟨hoff, hwire, hkeep⟩ := hnext { s with wire := s.wire ++ [.delay p] }
  refine h.append [.delay p] (fetchOnWire_of_offReadPath hoff) hkeep hwire fun hpend => ?_
  obtain ⟨hs, hne⟩ := hq _ hpend
  exact ⟨hs, by simpa using hne.symm⟩

/-- Every row outside `S_IDLE` keeps what the wire shows (R172-R182). -/
theorem rowOf_wireHistory {s : State} (h : WireHistory s) : (rowOf s).All WireHistory := by
  have ⟨hp, _, _⟩ := h
  unfold rowOf
  cases hq : s.fsm with
  | idle => trivial
  | initG =>
    exact offer_all h (fun _ => h)
      (fun _ => h.append _ trivial ⟨rfl, rfl, rfl⟩ rfl fun _ => ⟨by simp [hq, writePending], by simp⟩)
      (trapTxFail_wireHistory hp)
  | init5 | wAddr | wValue =>
    have hoff : onReadPath s.fsm = false := by simp [hq, onReadPath]
    refine sendRow_all h (fun _ => h) (fun ps b _ _ => ?_) (fun ps b _ _ => ?_)
      fun ps _ => trapTxFail_wireHistory hp ps
    · exact h.append [.tx b] (fetchOnWire_of_offReadPath hoff) ⟨rfl, rfl, rfl⟩ rfl fun hn => ⟨hn, by simp⟩
    · exact h.append [.tx b] trivial ⟨rfl, rfl, rfl⟩ rfl fun hn => ⟨by simp_all [writePending], by simp⟩
  | initDly1 | initDly2 =>
    exact rowDelay_wireHistory h (fun _ => ⟨rfl, rfl, rfl, rfl, rfl⟩) fun _ _ => ⟨by simp [hq, writePending], by decide⟩
  | wDly1 | wDly2 =>
    exact rowDelay_wireHistory h (fun _ => ⟨rfl, rfl, rfl, rfl, rfl⟩) fun _ hn => by simp [writePending] at hn
  | addrSel => exact rowSelectAddress_wireHistory h hq
  | rmEnter => exact rowEnterRead_wireHistory h hq
  | burstTrig => exact rowTriggerBurst_wireHistory h hq
  | burstRx => exact rowBurstRx_wireHistory h hq
  | rmExit => exact rowExitRead_wireHistory h hq
  | inval => exact ⟨hp, trivial, cacheOnWire_of_empty rfl⟩
  | lsavDrain =>
    exact rowDrain_all h (fun _ => h) fun _ =>
      h.append [] trivial ⟨rfl, rfl, rfl⟩ (List.append_nil _).symm fun _ => ⟨by simp [hq, writePending], by simp⟩

/-! ## The step -/

/-- An acceptance sends nothing and leaves the cache; a fetch begins with no byte of its command sent (R171). -/
theorem accept_wireHistory {s : State} (i : Instr) (h : WireHistory s) (hq : s.fsm = .idle) :
    (accept i s).All WireHistory := by
  have hbegin : ∀ t : State, FetchOnWire t → t.par = s.par ∧ t.v = s.v ∧ t.dm = s.dm → t.wire = s.wire →
      WireHistory t :=
    fun t hf hkeep hw => h.append [] hf hkeep (hw.trans (List.append_nil _).symm) fun _ =>
      ⟨by simp [hq, writePending], by simp⟩
  exact accept_all i (fun _ => h)
    (fun a _ _ => hbegin _ ((fetchOnWire_addrSel rfl).2 ⟨s.wire, (List.append_nil _).symm⟩) ⟨rfl, rfl, rfl⟩ rfl)
    (fun _ _ _ _ _ => hbegin _ trivial ⟨rfl, rfl, rfl⟩ rfl) (hbegin _ trivial ⟨rfl, rfl, rfl⟩ rfl)

theorem transition_wireHistory {s : State} (h : WireHistory s) : (transition s).All WireHistory := by
  by_cases hq : s.fsm = .idle
  · exact transition_idle_all hq h (fun _ => h) fun ps i => accept_wireHistory (s := { s with hostIn := ps }) i h hq
  · rw [transition_rowOf hq]; exact rowOf_wireHistory h

/-- Reset empties the cache and leaves the read path (R35, R220). -/
theorem resetBlock_wireHistory {s : State} (h : WireHistory s) : WireHistory s.resetBlock := by
  refine ⟨h.1, fetchOnWire_of_offReadPath ?_, cacheOnWire_of_empty rfl⟩
  rw [State.resetBlock_fsm]
  cases s.par.initOnReset <;> rfl

/-- Settles O16: every row keeps what the wire shows, and reset empties the cache. -/
theorem wireHistoryStep : Obligations.WireHistoryStep := fun _ _ hinv hf hc hs =>
  (step_all (P := WireHistory) (fun _ => transition_wireHistory) (fun _ _ h => h) (fun _ => resetBlock_wireHistory)
    ⟨hinv.1, hf, hc⟩ hs).2

end Sys2Proof.Machine
end
-/

/-
COMMENTED OUT FOR MEMORY ONLY: the text below compiles and was checked to the end (leanchecker, audit, settle: O47, O48, O50,
O51, O52, O53, O54, O55, O56, O58, O59 and O60 proved) with `MIMALLOC_ARENA_EAGER_COMMIT=0 bash check.sh`. Under check.sh's
22 GiB of data the tests above fill the limit while they wait for the kernel (46 threads, 22388 MB of 22528), and every
command that stands after them takes one thread more: the compile then ends with "failed to create thread" or
std::bad_alloc in three runs of four. To restore it, remove this paragraph with the comment opener before it, and the closer
at the end of the file. It uses nothing of the commented texts above it and shares no name with them; all five restored
together compile as well.

section
/-! PROOFS. The statements of spec/41_link_codec.md: each wire command sent, cut and waiting, the burst received, the
delay states, and the start-up sequence.

A command sent whole is a visit of `Laws/Visit.lean`. A command that stops at a byte, cut or waiting, is said once for
all eight commands (`visit_command_stop`): the visit ends with what that byte's offer comes to. -/

namespace Sys2Proof.Machine

open Sys2Proof Sys2Proof.Safety

/-! ## A command is the visit of its state -/

theorem exec_selectAddress {s : State} (a : Addr) (h : s.fsm = .addrSel) :
    exec (.selectAddress a) s = (repeatRow (rowSelectAddress a) 6 s).toOutcome := by
  simp [exec, execSelectAddress, wireCommand, State.visitBound, h]

theorem exec_writeAddr {s : State} (a : Addr) (h : s.fsm = .wAddr) :
    exec (.writeAddr a) s = (repeatRow (rowWriteAddr a) 6 s).toOutcome := by
  simp [exec, execWriteAddr, wireCommand, State.visitBound, h]

theorem exec_writeValue {s : State} (v : Byte) (h : s.fsm = .wValue) :
    exec (.writeValue v) s = (repeatRow (rowWriteValue v) 5 s).toOutcome := by
  simp [exec, execWriteValue, wireCommand, State.visitBound, h]

/-- A command whose state is left in its visit. -/
theorem exec_of_visit {s t : State} {i : Instr} (hc : s.command = some i) (hv : visit s = .moved t) :
    exec i s = .next t := by
  rw [exec_command hc, hv]; rfl

/-! ## Commands sent whole (R130-R144) -/

/-- Settles O48, by the visit of S_RM_ENTER. -/
theorem enterReadCompletes : Obligations.EnterReadCompletes := fun _ _ _ h htx hp =>
  exec_of_visit (by simp [State.command, h]) (visit_enterRead h htx hp)

/-- Settles O47, by the rows of S_ADDR_SEL. -/
theorem selectAddressCompletes : Obligations.SelectAddressCompletes := fun _ a _ _ h hl hne htx hacc => by
  rw [exec_selectAddress a h, selectAddress_sent a h hl hne htx hacc]; rfl

/-- Settles O52, by the rows of S_W_ADDR. -/
theorem writeAddrCompletes : Obligations.WriteAddrCompletes := fun _ a _ _ h hl hne htx hacc => by
  rw [exec_writeAddr a h, writeAddr_sent a h hl hne htx hacc]; rfl

/-- Settles O53, by the rows of S_W_VALUE. -/
theorem writeValueCompletes : Obligations.WriteValueCompletes := fun _ v _ _ h hl hne htx hacc => by
  rw [exec_writeValue v h, writeValue_sent v h hl hne htx hacc]; rfl

theorem visit_init5_sent {s : State} {sel rest : List TxPins} (h : s.fsm = .init5) (hl : s.seq.toNat + sel.length = 2)
    (hne : sel ≠ []) (htx : s.txIn = sel ++ rest) (hacc : AllAccepted sel) :
    visit s = .moved { s with
      seq := 1, dly := s.par.tInit, fsm := .initDly2, txIn := rest
      wire := s.wire ++ sent (init5Bytes.drop s.seq.toNat) } := by
  rw [visit_init5 h, init5_sent h hl hne htx hacc]

/-- Settles O54, by the visits of S_INIT_G and S_INIT_5. -/
theorem initCompletes : Obligations.InitCompletes :=
  ⟨fun _ _ _ h htx hp => exec_of_visit (by simp [State.command, h]) (visit_initG_sent h htx hp),
    fun _ _ _ h hl hne htx hacc => exec_of_visit (by simp [State.command, h]) (visit_init5_sent h hl hne htx hacc)⟩

/-! ## EXIT_READ (R134, R176) -/

/-- Settles O50: the exit is sent, then the block is committed. -/
theorem exitReadCompletes : Obligations.ExitReadCompletes := fun s _ _ hwf h hep hl hne htx hacc => by
  have hsent := exit_sent hwf h hl hne htx hacc (s.par.exitReadSeq.length + 1) (by omega)
  exact exec_of_visit (by simp [State.command, h]) ((visit_rmExit h).trans (hsent.trans (finishExit_commit hep)))

/-- An empty EXIT_READ_SEQ: the visit is the end of the exit, wherever `seq` stands (R134). -/
theorem visit_rmExit_empty {s : State} (h : s.fsm = .rmExit) (he : s.par.exitReadSeq = []) :
    visit s = finishExit s := by
  have hr : rowExitRead s = finishExit s := if_pos he
  rw [visit_rmExit h, repeatRow_leaves (by rw [hr, h]; exact finishExit_leaves), hr]

/-- The visit of S_RM_EXIT, its bytes accepted to the end with an error pending: the trap (R176). -/
theorem visit_rmExit_pending {s : State} {sel tail : List TxPins} (hwf : s.par.wf) (h : s.fsm = .rmExit)
    (hep : s.ep ≠ 0) (hend : (s.par.exitReadSeq = [] ∧ sel = []) ∨
      (sel ≠ [] ∧ s.seq.toNat + sel.length = s.par.exitReadSeq.length))
    (htx : s.txIn = sel ++ tail) (hacc : AllAccepted sel) :
    ∃ q, visit s = .moved (State.trap s.ep { s with
      txIn := tail, seq := q, wire := s.wire ++ sent ((s.par.exitReadSeq.drop s.seq.toNat).take sel.length) }) := by
  rcases hend with ⟨he, rfl⟩ | ⟨hne, hl⟩
  · refine ⟨s.seq, ?_⟩
    rw [visit_rmExit_empty h he, finishExit_trap hep, show tail = s.txIn from htx.symm]
    simp [sent]
  · have hall : (s.par.exitReadSeq.drop s.seq.toNat).take sel.length = s.par.exitReadSeq.drop s.seq.toNat :=
      List.take_of_length_le (by rw [List.length_drop]; omega)
    refine ⟨BitVec.ofNat 3 (s.par.exitReadSeq.length - 1), ?_⟩
    rw [visit_rmExit h, hall]
    exact (exit_sent hwf h hl (fun _ => hne) htx hacc _ (by omega)).trans (finishExit_trap hep)

/-- The visit of S_RM_EXIT, cut at a byte: the trap, with the error that came first (R176, R194). -/
theorem visit_rmExit_cut {s : State} {sel rest : List TxPins} {x : TxPins} (hwf : s.par.wf) (h : s.fsm = .rmExit)
    (hl : s.seq.toNat + sel.length < s.par.exitReadSeq.length) (htx : s.txIn = sel ++ x :: rest)
    (hacc : AllAccepted sel) (hx : x.outcome = .failed) :
    ∃ q, visit s = .moved (State.trap (if s.ep = 0 then 1 else s.ep) { s with
      txIn := rest, seq := q, wire := s.wire ++ sent ((s.par.exitReadSeq.drop s.seq.toNat).take sel.length) }) :=
  ⟨s.seq + BitVec.ofNat 3 sel.length, by rw [visit_rmExit h, exit_cut hwf h hl htx hacc hx _ (by omega)]; rfl⟩

/-- Both ends are one trap: with the pending error, or TX_FAIL when none is pending (R194). -/
theorem visit_rmExit_traps {s : State} {sel tail : List TxPins} (hwf : s.par.wf) (h : s.fsm = .rmExit)
    (htx : s.txIn = sel ++ tail) (hacc : AllAccepted sel)
    (hend : (s.ep ≠ 0 ∧ ((s.par.exitReadSeq = [] ∧ sel = []) ∨
        (sel ≠ [] ∧ s.seq.toNat + sel.length = s.par.exitReadSeq.length))) ∨
      (s.seq.toNat + sel.length < s.par.exitReadSeq.length ∧ ∃ x, tail.head? = some x ∧ x.outcome = .failed)) :
    ∃ txIn q, visit s = .moved (State.trap (if s.ep = 0 then 1 else s.ep) { s with
      txIn := txIn, seq := q,
      wire := s.wire ++ sent ((s.par.exitReadSeq.drop s.seq.toNat).take sel.length) }) := by
  rcases hend with ⟨hep, hend⟩ | ⟨hl, x, hx, hfail⟩
  · rw [if_neg hep]
    exact ⟨tail, visit_rmExit_pending hwf h hep hend htx hacc⟩
  · rw [List.eq_cons_of_mem_head? hx] at htx
    exact ⟨_, visit_rmExit_cut hwf h hl htx hacc hfail⟩

/-- Settles O51: the trap at the end of the exit, field by field; it keeps what was noted when the error came (R196). -/
theorem exitReadTraps : Obligations.ExitReadTraps := by
  intro s sel tail hwf h htx hacc hend
  obtain ⟨txIn, q, hv⟩ := visit_rmExit_traps hwf h htx hacc hend
  refine ⟨_, exec_of_visit (by simp [State.command, h]) hv, State.trap_fault _ _, State.trap_v _ _, State.trap_dm _ _,
    State.trap_fsm _ _, State.trap_wire _ _, fun hep => ?_, fun hep => ?_⟩
  · have hep' : s.ep ≠ 0#3 := hep
    simp [State.errorNoted, causeNone, Fsm.inOperation, h, hep']
  · simp [State.errorNoted, causeNone, Fsm.inOperation, Fsm.code, Fsm.countsBurst, h, hep]

/-! ## A command that stops at a byte -/

/-- What the sequencer does when a byte of the command fails (R170, R174, R176). -/
def onFail : Instr → State → Tick
  | .triggerBurst => fun t => holdError causeTxFail { t with cnt := 0 }
  | .exitRead => failExit
  | _ => trapTxFail

/-- Where a command stands after `n` more of its bytes were accepted, `tail` being the answers still to come (R140). -/
def State.afterBytes (cmd : List Byte) (n : Nat) (tail : List TxPins) (s : State) : State :=
  { s with
    txIn := tail
    wire := s.wire ++ sent ((cmd.drop s.seq.toNat).take n)
    seq := s.seq + BitVec.ofNat 3 n }

@[simp] theorem State.afterBytes_fsm (cmd : List Byte) (n : Nat) (tail : List TxPins) (s : State) :
    (s.afterBytes cmd n tail).fsm = s.fsm := rfl

/-- A row that sends a command byte by byte: the visit ends with what the offer of the next byte comes to. -/
theorem visit_sendRow_stop {s : State} {cmd : List Byte} {f g : State → Tick} {sel tail : List TxPins} {k : Tick}
    (hrow : ∀ t : State, t.fsm = s.fsm → t.par = s.par → t.addrR = s.addrR → t.wdataR = s.wdataR →
      rowOf t = sendRow cmd f g t)
    (hlen : cmd.length ≤ 7) (hb : cmd.length ≤ s.visitBound) (htx : s.txIn = sel ++ tail)
    (hl : s.seq.toNat + sel.length < cmd.length) (hacc : AllAccepted sel)
    (hk : ∀ b f', offer b f' g (s.afterBytes cmd sel.length tail) = k) (hleaves : k.Leaves s.fsm) : visit s = k :=
  repeatRow_send_stop rowOf cmd f g hlen sel tail s _ k (by omega) htx hacc hl hrow hk hleaves

/-- A row that sends a command of one byte: the same, no byte being accepted before. -/
theorem visit_offer_stop {s : State} {b : Byte} {f g : State → Tick} {sel tail : List TxPins} {k : Tick}
    (hrow : rowOf s = offer b f g s) (hq : s.fsm ≠ .idle) (htx : s.txIn = sel ++ tail)
    (hl : s.seq.toNat + sel.length < [b].length)
    (hk : ∀ c f', offer c f' g (s.afterBytes [b] sel.length tail) = k) (hleaves : k.Leaves s.fsm) : visit s = k := by
  obtain ⟨n, hn⟩ := visitBound_pos hq
  obtain rfl : sel = [] := List.eq_nil_of_length_eq_zero (by rw [List.length_singleton] at hl; omega)
  have hs : s.afterBytes [b] 0 tail = s := by
    rw [show tail = s.txIn from htx.symm]; simp [State.afterBytes, sent]
  have hr : rowOf s = k := by rw [hrow, ← hk b f, List.length_nil, hs]
  rw [visit, hn, repeatRow_leaves (by rw [hr]; exact hleaves), hr]

/-- Any wire command in its state, some bytes accepted and more of it to come: the visit ends with what the offer of the
next byte comes to, if that is no further row of the command (R140, R170). -/
theorem visit_command_stop {s : State} {i : Instr} {cmd : List Byte} {sel tail : List TxPins} {k : Tick}
    (hp : i = .exitRead → s.par.wf) (hc : s.command = some i) (henc : encode s.par i = .wire cmd)
    (htx : s.txIn = sel ++ tail) (hl : s.seq.toNat + sel.length < cmd.length) (hacc : AllAccepted sel)
    (hk : ∀ b f, offer b f (onFail i) (s.afterBytes cmd sel.length tail) = k) (hleaves : k.Leaves s.fsm) :
    visit s = k := by
  cases hq : s.fsm <;> simp only [State.command, hq, reduceCtorEq, Option.some.injEq] at hc <;> subst hc <;> cases henc
  case initG =>
    exact visit_offer_stop (b := tokInitG) (g := trapTxFail) (by simp only [rowOf, hq]; rfl) (by simp [hq])
      htx hl hk hleaves
  case rmEnter =>
    exact visit_offer_stop (b := tokEnterRead) (g := trapTxFail) (by simp only [rowOf, hq]; rfl) (by simp [hq])
      htx hl hk hleaves
  case burstTrig =>
    exact visit_offer_stop (b := tokTrigger) (g := onFail .triggerBurst) (by simp only [rowOf, hq]; rfl) (by simp [hq])
      htx hl hk hleaves
  case init5 =>
    exact visit_sendRow_stop (fun t ht _ _ _ => by simp only [rowOf, ht, hq]; rfl) (by decide)
      (by simp [State.visitBound, hq, init5Bytes_length]) htx hl hacc hk hleaves
  case addrSel =>
    exact visit_sendRow_stop
      (fun t ht hp ha _ => by simp only [rowOf, ht, hq, State.baseR, ha, rowSelectAddress, hp]; rfl)
      (by simp [selectAddressBytes_length]) (by simp [State.visitBound, hq, selectAddressBytes_length]) htx hl hacc hk
      hleaves
  case wAddr =>
    exact visit_sendRow_stop (fun t ht hp ha _ => by simp only [rowOf, ht, hq, ha, rowWriteAddr, hp]; rfl)
      (by simp [writeAddrBytes_length]) (by simp [State.visitBound, hq, writeAddrBytes_length]) htx hl hacc hk hleaves
  case wValue =>
    have hd := dec_length s.wdataR
    exact visit_sendRow_stop (fun t ht _ _ hw => by simp only [rowOf, ht, hq, hw]; rfl)
      (by rw [writeValueBytes_length]; omega) (by simp [State.visitBound, hq, writeValueBytes_length, hd.2]) htx hl hacc
      hk hleaves
  case rmExit =>
    have hne : s.par.exitReadSeq ≠ [] := by intro he; simp [he] at hl
    exact visit_sendRow_stop (fun t ht hp _ _ => by simp only [rowOf, ht, hq, rowExitRead, hp, if_neg hne]; rfl)
      (hp rfl) (by simp [State.visitBound, hq]) htx hl hacc hk hleaves

/-- Settles O56: the next byte is offered and blocks. -/
theorem commandWaits : Obligations.CommandWaits := by
  intro s i cmd sel tail hwf hc henc _ htx hl hacc hw
  have hv : visit s = .waits { s.afterBytes cmd sel.length tail with txIn := tail.tail } :=
    visit_command_stop (fun _ => hwf) hc henc htx hl hacc (fun _ _ => offer_blocked hw _ _ _) trivial
  have hseq : s.seq + BitVec.ofNat 3 sel.length = BitVec.ofNat 3 (s.seq.toNat + sel.length) := by
    rw [BitVec.ofNat_add, BitVec.ofNat_toNat, BitVec.setWidth_eq]
  rw [exec_command hc, hv, ← hseq]
  rfl

/-- The commands that trap at once: no burst is counted, no error waits for the exit, and only those of the start-up
sequence belong to no operation (R170, R196, R198). -/
theorem command_trapsAtOnce {s : State} {i : Instr} (hc : s.command = some i) (ht : i ≠ .triggerBurst)
    (hx : i ≠ .exitRead) :
    onFail i = trapTxFail ∧ s.fsm ≠ .idle ∧ s.fsm ≠ .rmExit ∧ s.fsm.countsBurst = false ∧
      (s.fsm.inOperation = true ↔ ¬ (i = .initG ∨ i = .init5)) := by
  cases hq : s.fsm <;> simp only [State.command, hq, reduceCtorEq, Option.some.injEq] at hc <;> subst hc <;>
    simp [onFail, Fsm.countsBurst, Fsm.inOperation] at ht hx ⊢

/-- Settles O55: the next byte is offered and fails, and the trap is taken (R196). -/
theorem commandCut : Obligations.CommandCut := by
  intro s i cmd sel rest q hc ht hx henc _ htx hl hacc hq
  obtain ⟨hfail, hidle, hexit, hcount, hop⟩ := command_trapsAtOnce hc ht hx
  have hv : visit s = .moved (State.trap causeTxFail (s.afterBytes cmd sel.length rest)) :=
    visit_command_stop (fun h => absurd h hx) hc henc htx hl hacc
      (fun _ _ => by rw [hfail]; exact offer_failed rfl hq _ _ _) (by simp [Tick.Leaves, hidle.symm])
  have hnoted : (s.afterBytes cmd sel.length rest).errorNoted = false := by simp [State.errorNoted, hexit]
  refine ⟨_, exec_of_visit hc hv, State.trap_fault _ _, State.trap_cause _ _, ?_, ?_, State.trap_v _ _,
    State.trap_dm _ _, State.trap_fsm _ _, State.trap_txIn _ _, State.trap_wire _ _, ?_⟩
  · simp [hnoted]
  · simp [hnoted, hcount]
  · simp only [State.trap_rsp, State.afterBytes_fsm, hop, ite_not]
    rfl

/-! ## The burst (R133, R175) -/

/-- A step outside `S_IDLE` that is no reset is the visit of the state (R170). -/
theorem step_visit {s : State} (hr : NoReset s) (h : s.fsm ≠ .idle) : step s = (visit (pastReset s)).toOutcome :=
  (step_pastReset hr).trans (fetchRun_visit (s := pastReset s) h)

theorem fillFrom_getElem_burst (fb : Vector Byte 64) (n : Nat) (bs : List Byte) (k : Nat) (hk : k < 64) :
    (fillFrom fb n bs)[k] = if n ≤ k ∧ k < n + bs.length then bs[k - n]! else fb[k] := by
  rw [fillFrom_getElem]
  by_cases h1 : n ≤ k
  · by_cases h2 : k < n + bs.length
    · have h3 : k - n < bs.length := by omega
      simp [h1, h2, h3]
    · have h3 : ¬ k - n < bs.length := by omega
      simp [h1, h2, h3]
  · simp [h1]

/-- Settles O58: the fill buffer is the old one with the bytes written from `cnt` on, and the visit ends in one of three
ways. -/
theorem burstReceived : Obligations.BurstReceived := by
  intro s bs got tail hr hq hrx hmap
  have hstep : step s = (repeatRow rowBurstRx 64 (pastReset s)).toOutcome := by
    rw [step_visit hr (by simp [hq]), visit_burstRx (s := pastReset s) hq]
  have hcnt : s.cnt + BitVec.ofNat 7 bs.length = BitVec.ofNat 7 (s.cnt.toNat + bs.length) := by
    rw [BitVec.ofNat_add, BitVec.ofNat_toNat, BitVec.setWidth_eq]
  refine ⟨fillFrom s.fb s.cnt.toNat bs, fillFrom_getElem_burst s.fb s.cnt.toNat bs, fun hc hne => ?_,
    fun q rest c htail hc hqc => ?_, fun hw hc => ?_⟩
  · rw [hstep, repeatRow_rx rowBurstRx bs tail got (pastReset s) 64 (by omega) hne hrx hmap hc hq fun _ _ => rfl]
    rfl
  · rw [hstep, repeatRow_rx_cut rowBurstRx c q hqc bs rest got (pastReset s) 64 (by omega) (htail ▸ hrx) hmap hc hq
      fun _ _ => rfl, ← hcnt]
    rfl
  · rw [hstep, repeatRow_rx_wait rowBurstRx bs got tail hw (pastReset s) 64 (by omega) hrx hmap hc fun _ _ => rfl,
      ← hcnt]
    rfl

/-! ## The delays (R136, R203) -/

theorem visit_wDly1 {s : State} (h : s.fsm = .wDly1) :
    visit s = .moved { s with dly := 0, seq := 0, fsm := .wValue, wire := s.wire ++ [.delay .tWrite] } :=
  visit_delay (next := fun t => { t with seq := 0, fsm := .wValue }) (by simp [State.visitBound, h])
    (fun t ht => by simp only [rowOf, ht, h]; rfl) (fun _ _ => by simp [h])

theorem visit_wDly2 {s : State} (h : s.fsm = .wDly2) :
    visit s = .moved { s with dly := 0, fsm := .inval, wire := s.wire ++ [.delay .tWrite] } :=
  visit_delay (next := fun t => { t with fsm := .inval }) (by simp [State.visitBound, h])
    (fun t ht => by simp only [rowOf, ht, h]; rfl) (fun _ _ => by simp [h])

theorem visit_initDly1 {s : State} (h : s.fsm = .initDly1) :
    visit s = .moved { s with dly := 0, seq := 0, fsm := .init5, wire := s.wire ++ [.delay .tInit] } :=
  visit_delay (next := fun t => { t with seq := 0, fsm := .init5 }) (by simp [State.visitBound, h])
    (fun t ht => by simp only [rowOf, ht, h]; rfl) (fun _ _ => by simp [h])

theorem visit_initDly2 {s : State} (h : s.fsm = .initDly2) :
    visit s = .moved { s with dly := 0, fsm := .idle, wire := s.wire ++ [.delay .tInit] } :=
  visit_delay (next := fun t => { t with fsm := .idle }) (by simp [State.visitBound, h])
    (fun t ht => by simp only [rowOf, ht, h]; rfl) (fun _ _ => by simp [h])

/-- Settles O59, by the visits of the four delay states and of S_INVAL. -/
theorem delaysAndInvalidation : Obligations.DelaysAndInvalidation := fun s hr =>
  ⟨fun h => by rw [step_visit hr (by simp [h]), visit_wDly1 (s := pastReset s) h]; rfl,
    fun h => by rw [step_visit hr (by simp [h]), visit_wDly2 (s := pastReset s) h]; rfl,
    fun h => by rw [step_visit hr (by simp [h]), visit_initDly1 (s := pastReset s) h]; rfl,
    fun h => by rw [step_visit hr (by simp [h]), visit_initDly2 (s := pastReset s) h]; rfl,
    fun h => by rw [step_visit hr (by simp [h]), visit_inval (s := pastReset s) h]; rfl⟩

/-! ## The start-up sequence (R143) -/

/-- While `rst` stays low, a step outside `S_IDLE` goes where the visit of its state goes. -/
theorem step_of_visit {s t : State} (hr : s.rstIn = []) (h : s.fsm ≠ .idle) (hv : visit s = .moved t) :
    step s = .next t := by
  rw [step_no_rst hr, fetchRun_visit h, hv]; rfl

/-- The first half: 'G' is sent, and its delay elapses. -/
theorem startUp_initG {s : State} {p : TxPins} {rest : List TxPins} (hr : s.rstIn = []) (hq : s.fsm = .initG)
    (htx : s.txIn = p :: rest) (hp : p.outcome = .accepted) :
    ∃ t, step s = .next t ∧ step t = .next { s with
      seq := 0, dly := 0, fsm := .init5, txIn := rest, wire := s.wire ++ [.tx 0x47, .delay .tInit] } := by
  refine ⟨_, step_of_visit hr (by simp [hq]) (visit_initG_sent hq htx hp), ?_⟩
  refine Eq.trans (step_of_visit hr (by simp) (visit_initDly1 rfl)) ?_
  simp

/-- The second half: '5' 0x00 is sent, and its delay elapses. -/
theorem startUp_init5 {s : State} {p q : TxPins} {rest : List TxPins} (hr : s.rstIn = []) (hq : s.fsm = .init5)
    (hseq : s.seq = 0) (htx : s.txIn = p :: q :: rest) (hacc : AllAccepted [p, q]) :
    ∃ t, step s = .next t ∧ step t = .next { s with
      seq := 1, dly := 0, fsm := .idle, txIn := rest
      wire := s.wire ++ [.tx 0x35, .tx 0x00, .delay .tInit] } := by
  refine ⟨_, step_of_visit hr (by simp [hq]) (visit_init5_sent hq (by simp [hseq]) (by simp) htx hacc), ?_⟩
  refine Eq.trans (step_of_visit hr (by simp) (visit_initDly2 rfl)) ?_
  simp [init5Bytes, tokInit5, sent, hseq]

/-- Settles O60: the two halves, one after the other. -/
theorem startUpSequence : Obligations.StartUpSequence := by
  intro s sel rest hr hq htx hlen hacc
  obtain ⟨p, q, r, rfl⟩ := List.length_eq_three.1 hlen
  obtain ⟨t1, h1, h2⟩ := startUp_initG hr hq htx (hacc p (by simp))
  obtain ⟨t3, h3, h4⟩ := startUp_init5 (s := { s with
    seq := 0, dly := 0, fsm := .init5, txIn := q :: r :: rest, wire := s.wire ++ [.tx 0x47, .delay .tInit] })
    hr rfl rfl rfl fun x hx => hacc x (List.mem_cons_of_mem p hx)
  refine ⟨t1, _, t3, h1, h2, h3, ?_⟩
  rw [h4]
  simp

end Sys2Proof.Machine
end
-/

/-
COMMENTED OUT FOR MEMORY ONLY: the text below compiles and was checked to the end (leanchecker, audit, settle: O15, O17, O30,
O31, O32, O33, O34, O35, O37, O38, O39, O40, O41, O43, O44, O45, O46 and O49 proved) with
`MIMALLOC_ARENA_EAGER_COMMIT=0 bash check.sh`. Under check.sh's 22 GiB of data the tests above fill the limit while they wait
for the kernel (46 threads, 22388 MB of 22528), and every command that stands after them takes one thread more: the compile
then ends with "failed to create thread" or std::bad_alloc (none of six plain runs passed). To restore it, remove this
paragraph with the comment opener before it, and the closer at the end of the file. It uses nothing of the commented texts
above it and shares no name with them; all six restored together compile as well.

section
/-! PROOFS. The statements of spec/42_controller_ops.md: a step as rows of the transition table, the host operations.

A step answers because every row on its way does (`rowOf_goes`), and it is a run of rows because a row is one
(`transition_ledFrom`). An operation that goes through or is cut is the chain of its visits: the stages `fetch_…` and
`write_…` say how far the accepted bytes bring it, and `runOp_exit_…` and `runOp_send_cut` how it ends. What an
operation leaves alone is carried along its rows (`rowOf_readRun`, `rowOf_writeRun`). -/

namespace Sys2Proof.Machine

open Sys2Proof Sys2Proof.Safety

/-! ## The block never stops (R170, R191-R193) -/

/-- The tick answers a state, and `P` holds of it. -/
def Tick.Goes (P : State → Prop) : Tick → Prop
  | .moved t => P t
  | .waits t => P t
  | .noRow => False

theorem Tick.goes_of_all {P : State → Prop} {k : Tick} (h : k.All P) (hk : k ≠ .noRow) : k.Goes P := by
  cases k with
  | moved t | waits t => exact h
  | noRow => exact absurd rfl hk

theorem Tick.Goes.toOutcome {P : State → Prop} {k : Tick} (h : k.Goes P) : ∃ t, k.toOutcome = .next t := by
  cases k with
  | moved t | waits t => exact ⟨t, rfl⟩
  | noRow => exact h.elim

theorem repeatRow_goes {P : State → Prop} {row : State → Tick}
    (hrow : ∀ s, s.fsm ≠ .idle → P s → (row s).Goes P) :
    ∀ n s, s.fsm ≠ .idle → P s → (repeatRow row n s).Goes P := by
  intro n
  induction n with
  | zero => exact fun _ _ h => h
  | succ n ih =>
    intro s hq h
    have h1 := hrow s hq h
    unfold repeatRow
    cases hr : row s with
    | moved t =>
      rw [hr] at h1
      by_cases e : t.fsm = s.fsm
      · simp only [if_pos e]; exact ih t (e ▸ hq) h1
      · simp only [if_neg e]; exact h1
    | waits t => rw [hr] at h1; exact h1
    | noRow => rw [hr] at h1; exact h1

theorem runOp_goes {P : State → Prop} (hrow : ∀ s, s.fsm ≠ .idle → P s → (rowOf s).Goes P) :
    ∀ n s, P s → (runOp n s).Goes P := by
  intro n
  induction n with
  | zero => exact fun _ h => h
  | succ n ih =>
    intro s h
    unfold runOp
    by_cases e : s.fsm = .idle
    · rw [if_pos e]; exact h
    · have h1 : (visit s).Goes P := repeatRow_goes hrow _ s e h
      rw [if_neg e]
      cases hv : visit s with
      | moved t => rw [hv] at h1; exact ih t h1
      | waits t => rw [hv] at h1; exact h1
      | noRow => rw [hv] at h1; exact h1

theorem offer_ne_noRow {b : Byte} {f g : State → Tick} {s : State} (hf : ∀ t, f t ≠ .noRow) (hg : ∀ t, g t ≠ .noRow) :
    offer b f g s ≠ .noRow := by
  rcases offer_cases b f g s with h | ⟨p, ps, _, ⟨_, h⟩ | ⟨_, h⟩ | ⟨_, h⟩⟩ <;> rw [h]
  · nofun
  · exact hf _
  · exact hg _
  · nofun

theorem sendRow_ne_noRow {cmd : List Byte} {f g : State → Tick} {s : State} (h : s.seq.toNat < cmd.length)
    (hf : ∀ t, f t ≠ .noRow) (hg : ∀ t, g t ≠ .noRow) : sendRow cmd f g s ≠ .noRow := by
  rw [sendRow_at (List.getElem?_eq_getElem h)]
  refine offer_ne_noRow (fun t => ?_) hg
  split
  · exact hf t
  · nofun

theorem finishExit_ne_noRow (s : State) : finishExit s ≠ .noRow := by
  by_cases h : s.ep = 0
  · rw [finishExit_commit h]; nofun
  · rw [finishExit_trap h]; nofun

theorem rowBurstRx_ne_noRow {s : State} (h : s.cnt.toNat < 64) : rowBurstRx s ≠ .noRow := by
  unfold rowBurstRx
  rw [if_neg (by omega)]
  have hbyte : ∀ b t, takeByte b t ≠ .noRow := fun b t => by unfold takeByte; split <;> nofun
  rcases rx_cases s with h | ⟨p, ps, _, ⟨b, _, h⟩ | ⟨_, h⟩ | ⟨_, h⟩ | ⟨_, h⟩⟩ <;> rw [h]
  · nofun
  · exact hbyte b _
  · nofun
  · nofun
  · nofun

theorem rowDelay_ne_noRow (p : DelayParam) (next : State → State) (s : State) : rowDelay p next s ≠ .noRow := by
  unfold rowDelay
  split <;> nofun

theorem rowDrain_ne_noRow (s : State) : rowDrain s ≠ .noRow := by
  unfold rowDrain
  cases s.payIn with
  | nil => nofun
  | cons p ps => dsimp only; split_ifs <;> nofun

/-- Where the counters are within their commands the table has a row (R24, R170). -/
theorem rowOf_ne_noRow {s : State} (hq : s.fsm ≠ .idle) (h : SeqInv s) : rowOf s ≠ .noRow := by
  unfold rowOf
  unfold SeqInv at h
  cases hs : s.fsm <;> simp only [hs] at h ⊢
  case idle => exact absurd hs hq
  case initG | rmEnter | burstTrig => exact offer_ne_noRow (fun _ => by nofun) (fun _ => by nofun)
  case init5 | addrSel | wAddr | wValue => exact sendRow_ne_noRow h (fun _ => by nofun) (fun _ => by nofun)
  case initDly1 | initDly2 | wDly1 | wDly2 => exact rowDelay_ne_noRow _ _ s
  case burstRx => exact rowBurstRx_ne_noRow h
  case inval => nofun
  case lsavDrain => exact rowDrain_ne_noRow s
  case rmExit =>
    unfold rowExitRead
    split
    · exact finishExit_ne_noRow s
    · next he =>
      exact sendRow_ne_noRow (h.1.resolve_left he) finishExit_ne_noRow (fun _ => by nofun)

/-- The exit begins with its first byte, after a whole burst or with an error pending (R174, R175). -/
theorem seqInv_rmExit_start {s : State} (hq : s.fsm = .rmExit) (hs : s.seq = 0) (h : s.ep = 0 → s.cnt = 64) :
    SeqInv s := by
  simp only [SeqInv, hq, hs]
  exact ⟨(Classical.em (s.par.exitReadSeq = [])).imp id List.length_pos_iff.2, h⟩

theorem seqInv_idle {s : State} (hq : s.fsm = .idle) : SeqInv s := by simp [SeqInv, hq]

/-- Admissible parameters, and the counters within their commands: what every row needs and keeps (R24). -/
def OnTable (s : State) : Prop := s.par.wf ∧ SeqInv s

theorem onTable_trap {s : State} (h : s.par.wf) (c : BitVec 3) : OnTable (s.trap c) :=
  ⟨by simpa using h, seqInv_idle (by simp)⟩

/-- A byte of a command that is not its last one leaves `seq` within the command (R24, R140). -/
theorem seq_within {cmd : List Byte} {q : BitVec 3} {b : Byte} (hlen : cmd.length ≤ 8) (hb : cmd[q.toNat]? = some b)
    (he : q.toNat + 1 ≠ cmd.length) : (q + 1).toNat < cmd.length := by
  have hlt : q.toNat < cmd.length := (List.getElem?_eq_some_iff.1 hb).1
  rw [BitVec.toNat_add]; simp; omega

/-- A sending state outside the bracketed burst stays on the table when its last row does. -/
theorem sendRow_onTable {cmd : List Byte} {done : State → Tick} {s : State} (h : OnTable s) (hlen : cmd.length ≤ 8)
    (hseq : ∀ ps w q, q.toNat < cmd.length → SeqInv { s with txIn := ps, wire := w, seq := q })
    (hdone : ∀ ps w, (done { s with txIn := ps, wire := w }).All OnTable) :
    (sendRow cmd done trapTxFail s).All OnTable :=
  sendRow_all h (fun _ => h) (fun ps _ hb he => ⟨h.1, hseq ps _ _ (seq_within hlen hb he)⟩) (fun ps _ _ _ => hdone ps _)
    (fun ps _ => onTable_trap (s := { s with txIn := ps }) h.1 _)

theorem rowBurstRx_onTable {s : State} (h : OnTable s) (hq : s.fsm = .burstRx) : (rowBurstRx s).All OnTable := by
  refine rowBurstRx_all h (fun _ => h) (fun _ _ hc => ⟨h.1, ?_⟩) (fun _ _ hc => ⟨h.1, ?_⟩) (fun _ _ hc _ => ⟨h.1, ?_⟩)
  · simp only [SeqInv, hq]
    rw [BitVec.toNat_add]; simp; omega
  · refine seqInv_rmExit_start rfl rfl fun _ => ?_
    apply BitVec.eq_of_toNat_eq; rw [BitVec.toNat_add]; simp [hc]
  · exact seqInv_rmExit_start rfl rfl fun he => by rcases hc with rfl | rfl <;> cases he

theorem rowExitRead_onTable {s : State} (h : OnTable s) (hq : s.fsm = .rmExit) : (rowExitRead s).All OnTable := by
  have hfin : ∀ ps w, (finishExit { s with txIn := ps, wire := w }).All OnTable := fun ps w =>
    finishExit_all (fun _ _ _ => ⟨h.1, seqInv_idle rfl⟩)
      (fun _ => onTable_trap (s := { s with txIn := ps, wire := w }) h.1 _)
  have hs := h.2
  simp only [SeqInv, hq] at hs
  unfold rowExitRead
  by_cases he : s.par.exitReadSeq = []
  · rw [if_pos he]; exact hfin s.txIn s.wire
  · rw [if_neg he]
    refine sendRow_all h (fun _ => h) (fun _ _ hb hne => ⟨h.1, ?_⟩) (fun ps _ _ _ => hfin ps _)
      (fun ps _ => onTable_trap (s := { s with txIn := ps }) h.1 _)
    simp only [SeqInv, hq]
    exact ⟨.inr (seq_within (Nat.le_succ_of_le h.1) hb hne), hs.2⟩

/-- Every row leads to a state for which the table has a row again (R170). -/
theorem rowOf_onTable {s : State} (h : OnTable s) : (rowOf s).All OnTable := by
  have hw := h.1
  have htrap : ∀ ps, (trapTxFail { s with txIn := ps }).All OnTable := fun ps =>
    onTable_trap (s := { s with txIn := ps }) hw _
  unfold rowOf
  cases hq : s.fsm with
  | idle => trivial
  | initG | rmEnter => exact offer_all h (fun _ => h) (fun _ => ⟨hw, by simp [SeqInv]⟩) htrap
  | burstTrig =>
    exact offer_all h (fun _ => h) (fun _ => ⟨hw, by simp [SeqInv]⟩)
      (fun _ => ⟨hw, seqInv_rmExit_start rfl rfl fun he => by cases he⟩)
  | init5 | addrSel | wAddr =>
    exact sendRow_onTable h (by simp [init5Bytes_length, selectAddressBytes_length, writeAddrBytes_length])
      (fun _ _ _ hlt => by simp only [SeqInv, hq]; exact hlt) (fun _ _ => ⟨hw, by simp [SeqInv]⟩)
  | wValue =>
    have hlen := writeValueBytes_length s.wdataR
    have hdec := dec_length s.wdataR
    exact sendRow_onTable h (by omega) (fun _ _ _ hlt => by simpa only [SeqInv, hq] using hlt)
      (fun _ _ => ⟨hw, by simp [SeqInv]⟩)
  | initDly1 | initDly2 | wDly2 => exact rowDelay_all ⟨hw, by simp [SeqInv, hq]⟩ (fun _ => ⟨hw, by simp [SeqInv]⟩)
  | wDly1 =>
    exact rowDelay_all ⟨hw, by simp [SeqInv, hq]⟩ (fun _ => ⟨hw, by simp [SeqInv, writeValueBytes_length]⟩)
  | burstRx => exact rowBurstRx_onTable h hq
  | rmExit => exact rowExitRead_onTable h hq
  | inval => exact ⟨hw, seqInv_idle rfl⟩
  | lsavDrain => exact rowDrain_all h (fun _ => ⟨hw, by simp [SeqInv, hq]⟩) (fun _ => ⟨hw, seqInv_idle rfl⟩)

theorem rowOf_goes {s : State} (hq : s.fsm ≠ .idle) (h : OnTable s) : (rowOf s).Goes OnTable :=
  Tick.goes_of_all (rowOf_onTable h) (rowOf_ne_noRow hq h.2)

/-- A READ is refused, answered from a row that has its byte, or begins a fetch (R160, R171). -/
theorem acceptRead_goes {s : State} (a : Addr) (hw : s.par.wf) (hc : CacheInv s) (hq : s.fsm = .idle) :
    (acceptRead a s).Goes OnTable := by
  unfold acceptRead
  by_cases hf : s.fault = true
  · rw [if_pos hf]; exact ⟨hw, seqInv_idle hq⟩
  rw [if_neg hf]
  by_cases hl : s.lookup a = true
  · obtain ⟨b, hb, -⟩ := readByte_some hc a hl
    rw [if_pos hl, hb]; exact ⟨hw, seqInv_idle hq⟩
  · rw [if_neg hl]; exact ⟨hw, by simp [SeqInv]⟩

theorem acceptWrite_goes {s : State} (op : BitVec 3) (a : Addr) (v : Byte) (hw : s.par.wf) (hq : s.fsm = .idle) :
    (acceptWrite op a v s).Goes OnTable := by
  unfold acceptWrite
  by_cases hf : s.fault = true
  · rw [if_pos hf]; exact ⟨hw, seqInv_idle hq⟩
  · rw [if_neg hf]; exact ⟨hw, by simp [SeqInv]⟩

/-- Every request word is an operation with an acceptance (R93, R171). -/
theorem accept_request_goes {s : State} (w : BitVec 27) (hw : s.par.wf) (hc : CacheInv s) (hq : s.fsm = .idle) :
    (accept (decodeRequest w) s).Goes OnTable := by
  have hrespond : ∀ r, (Tick.moved (s.respond r)).Goes OnTable := fun _ => ⟨hw, seqInv_idle hq⟩
  unfold decodeRequest
  split_ifs
  · exact acceptRead_goes _ hw hc hq
  · exact acceptWrite_goes _ _ _ hw hq
  · exact acceptWrite_goes _ _ _ hw hq
  · exact hrespond _
  · exact ⟨hw, by simp [SeqInv]⟩
  · exact hrespond _
  · exact hrespond _
  · exact hrespond _

theorem transition_goes {s : State} (h : OnTable s) (hc : CacheInv s) : (transition s).Goes OnTable := by
  unfold transition
  by_cases hq : s.fsm = .idle
  · rw [if_pos hq]
    cases s.hostIn with
    | nil => exact h
    | cons p ps =>
      obtain ⟨valid, req⟩ := p
      cases valid with
      | true => exact accept_request_goes (s := { s with hostIn := ps }) req h.1 hc hq
      | false => exact h
  · rw [if_neg hq]; exact rowOf_goes hq h

theorem finish_goes {k : Tick} (h : k.Goes OnTable) : ∃ t, k.finish = .next t := by
  cases k with
  | moved t => exact (runOp_goes (fun _ => rowOf_goes) maxVisits t h).toOutcome
  | waits t => exact ⟨t, rfl⟩
  | noRow => exact h.elim

/-- A step takes the coming look at `rst`: it is the reset, or goes on from there (R220). -/
theorem step_eq (s : State) :
    step s = if NoReset s then (pastReset s).fetchRun.run else .next (pastReset s).resetBlock := by
  by_cases hr : NoReset s
  · rw [if_pos hr, step_pastReset hr]
  · obtain ⟨rs, hrs⟩ := List.head?_eq_some_iff.1 (not_not.1 hr)
    rw [if_neg hr, step_rst_high hrs, pastReset, hrs]
    rfl

/-- Settles O15: every state of the invariant is on the table, and so is every state its rows reach. -/
theorem stepAnswersNext : Obligations.StepAnswersNext := by
  rintro s ⟨hw, hc, hseq, -⟩
  have hon : OnTable (pastReset s) := ⟨hw, hseq⟩
  rw [step_eq]
  split
  · by_cases hq : s.fsm = .idle
    · rw [fetchRun_idle (s := pastReset s) hq]
      exact finish_goes (transition_goes hon hc)
    · rw [fetchRun_visit (s := pastReset s) hq]
      exact (repeatRow_goes (fun _ => rowOf_goes) _ (pastReset s) hq hon).toOutcome
  · exact ⟨_, rfl⟩

/-! ## A step is a run of rows (R170) -/

/-- From `s` rows lead to the state of the tick: to where they go on, or to where the last look found nothing. -/
def Tick.LedFrom (s : State) : Tick → Prop
  | .moved t => ∀ u, RowsTo t u → RowsTo s u
  | .waits t => RowsTo s t
  | .noRow => True

theorem Tick.LedFrom.prepend {s t : State} {k : Tick} (h : ∀ u, RowsTo t u → RowsTo s u) (hk : k.LedFrom t) :
    k.LedFrom s := by
  cases k with
  | moved u => exact fun v hv => h v (hk v hv)
  | waits u => exact h u hk
  | noRow => trivial

theorem Tick.LedFrom.rowsTo {s t : State} {k : Tick} (h : k.LedFrom s) (e : k.toOutcome = .next t) : RowsTo s t := by
  rcases Tick.toOutcome_next e with rfl | rfl
  · exact h t (.refl t)
  · exact h

theorem transition_ledFrom (s : State) : (transition s).LedFrom s := by
  cases h : transition s with
  | moved t => exact fun _ => .row h
  | waits t => exact .waits h
  | noRow => trivial

theorem rowOf_ledFrom (s : State) : (rowOf s).LedFrom s := by
  by_cases hq : s.fsm = .idle
  · simp only [rowOf, hq]; trivial
  · have h : transition s = rowOf s := if_neg hq
    exact h ▸ transition_ledFrom s

theorem repeatRow_ledFrom : ∀ n s, (repeatRow rowOf n s).LedFrom s := by
  intro n
  induction n with
  | zero => exact fun _ _ h => h
  | succ n ih =>
    intro s
    have h1 := rowOf_ledFrom s
    unfold repeatRow
    cases hr : rowOf s with
    | moved t =>
      rw [hr] at h1
      by_cases e : t.fsm = s.fsm
      · simp only [if_pos e]; exact (ih t).prepend h1
      · simp only [if_neg e]; exact h1
    | waits t => rw [hr] at h1; exact h1
    | noRow => trivial

theorem runOp_ledFrom : ∀ n s, (runOp n s).LedFrom s := by
  intro n
  induction n with
  | zero => exact fun _ _ h => h
  | succ n ih =>
    intro s
    unfold runOp
    by_cases e : s.fsm = .idle
    · rw [if_pos e]; exact fun _ h => h
    · have h1 : (visit s).LedFrom s := repeatRow_ledFrom _ s
      rw [if_neg e]
      cases hv : visit s with
      | moved t => rw [hv] at h1; exact (ih t).prepend h1
      | waits t => rw [hv] at h1; exact h1
      | noRow => trivial

theorem finish_rowsTo {s t : State} {k : Tick} (h : k.LedFrom s) (e : k.finish = .next t) : RowsTo s t := by
  cases k with
  | moved u => exact h t ((runOp_ledFrom maxVisits u).rowsTo e)
  | waits u => cases e; exact h
  | noRow => cases e

/-- Settles O17: in `S_IDLE` the row of the acceptance and the operation's rows, elsewhere the rows of one visit. -/
theorem stepIsRunOfRows : Obligations.StepIsRunOfRows := by
  intro s t hr hs
  rw [step_pastReset hr] at hs
  by_cases hq : s.fsm = .idle
  · rw [fetchRun_idle (s := pastReset s) hq] at hs
    exact finish_rowsTo (transition_ledFrom _) hs
  · rw [fetchRun_visit (s := pastReset s) hq] at hs
    exact (repeatRow_ledFrom _ _).rowsTo hs

/-! ## Running an operation (R62, R170) -/

/-- The last visit of an operation ends in `S_IDLE`. -/
theorem runOp_last {n : Nat} {s t : State} (h : s.fsm ≠ .idle) (hv : visit s = .moved t) (ht : t.fsm = .idle) :
    runOp (n + 1) s = .moved t := by
  rw [runOp_step h hv, runOp_idle ht]

/-- An acceptance that answers at once is the whole operation. -/
theorem finish_idle {t : State} (h : t.fsm = .idle) : (Tick.moved t).finish = .next t := by
  rw [Tick.finish, runOp_idle h]; rfl

theorem exec_read {s : State} (a : Addr) (h : s.fsm = .idle) : exec (.read a) s = (acceptRead a s).finish := if_pos h

theorem exec_wrom {s : State} (a : Addr) (v : Byte) (h : s.fsm = .idle) :
    exec (.wrom a v) s = (acceptWrite opWrom a v s).finish := if_pos h

theorem exec_wram {s : State} (a : Addr) (v : Byte) (h : s.fsm = .idle) :
    exec (.wram a v) s = (acceptWrite opWram a v s).finish := if_pos h

/-- Accepted bytes, split at a place in the command that sends them. -/
theorem allAccepted_split {sel : List TxPins} {n : Nat} (hn : n ≤ sel.length) (hacc : AllAccepted sel) :
    ∃ xs ys, sel = xs ++ ys ∧ xs.length = n ∧ ys.length = sel.length - n ∧ AllAccepted xs ∧ AllAccepted ys :=
  ⟨sel.take n, sel.drop n, (List.take_append_drop n sel).symm, by simp [hn], by simp,
    fun p hp => hacc p (List.mem_of_mem_take hp), fun p hp => hacc p (List.mem_of_mem_drop hp)⟩

/-! ## GSAV, LSAV, the reserved operations (R163-R165) -/

/-- Settles O44: the acceptance answers. -/
theorem gsavCompletes : Obligations.GsavCompletes :=
  ⟨fun w h => by simp [decodeRequest, h], fun s h => (if_pos h).trans (finish_idle (t := s.respond .ok) h)⟩

/-- Settles O46: the acceptance answers. -/
theorem reservedCompletes : Obligations.ReservedCompletes :=
  ⟨fun w => ⟨fun h => by simp [decodeRequest, h], fun h => by simp [decodeRequest, h],
      fun h => by simp [decodeRequest, h]⟩,
    fun s h =>
      have hf := finish_idle (t := s.respond .illegal) h
      ⟨(if_pos h).trans hf, (if_pos h).trans hf, (if_pos h).trans hf⟩⟩

/-- Settles O45: the visit of `S_LSAV_DRAIN`, after the acceptance or resumed. -/
theorem lsavCompletes : Obligations.LsavCompletes := by
  refine ⟨fun s beats rest e hq hp hb he hl => ?_,
    fun s beats tail hr hq hp hb => ⟨fun e rest ht he hl => ?_, fun hw => ?_⟩⟩
  · have hv := visit_drain (s := { s with opR := opLsav, fsm := .lsavDrain }) rfl hp hb ⟨he, hl⟩
    have hx : exec .lsav s = (acceptLsav s).finish := if_pos hq
    rw [hx, acceptLsav, Tick.finish, maxVisits, runOp_last (by simp) hv rfl, ← hq]
    rfl
  · rw [step_pastReset hr, fetchRun_visit (s := pastReset s) (by simp [pastReset, hq]),
      visit_drain (s := pastReset s) hq (hp.trans (by rw [ht])) hb ⟨he, hl⟩]
    rfl
  · rw [step_pastReset hr, fetchRun_visit (s := pastReset s) (by simp [pastReset, hq]),
      visit_drain_wait (s := pastReset s) hq hp hb hw]
    rfl

/-! ## TRIGGER_BURST (R174) -/

/-- Settles O49: the visit of `S_BURST_TRIG`, for each answer of the transport. -/
theorem triggerBurstCompletes : Obligations.TriggerBurstCompletes := by
  intro s p rest h htx
  have hx : exec .triggerBurst s = (visit s).toOutcome := exec_command (by simp [State.command, h])
  refine ⟨fun hp => ?_, fun hp => ?_⟩
  · rw [hx, visit_triggerBurst h htx hp]; rfl
  · rw [hx, visit_triggerBurst_failed h htx hp]; rfl

/-! ## READ (R160) -/

/-- Settles O30: a hit finds its byte at the address itself. -/
theorem readHit : Obligations.ReadHit := by
  rintro s a ⟨-, hc, -⟩ hq hf hl
  obtain ⟨b, hb, hm⟩ := readByte_some hc a hl
  refine ⟨b, hm, ?_⟩
  rw [exec_read a hq, acceptRead, if_neg (by simp [hf]), if_pos hl, hb]
  exact finish_idle hq

/-- The state in which the fetch for a READ of `a` begins, when it misses (R160, R171). -/
def State.beginFetch (a : Addr) (s : State) : State := { s with opR := opRead, addrR := a, seq := 0, fsm := .addrSel }

theorem exec_read_miss {s : State} {a : Addr} (hq : s.fsm = .idle) (hf : s.fault = false) (hl : s.lookup a = false) :
    exec (.read a) s = (runOp 5 (s.beginFetch a)).toOutcome := by
  rw [exec_read a hq, acceptRead, if_neg (by simp [hf]), if_neg (by simp [hl])]
  rfl

section
variable {s : State} {sel tail : List TxPins} (hq : s.fsm = .addrSel) (hs : s.seq = 0) (htx : s.txIn = sel ++ tail)
  (hacc : AllAccepted sel)
include hq hs htx hacc

/-- The fetch as far as ENTER_READ: the selection is sent (R172). -/
theorem fetch_selected (hlen : sel.length = 6) :
    runOp 5 s = runOp 4 { s with
      seq := 0, fsm := .rmEnter, txIn := tail
      wire := s.wire ++ sent (selectAddressBytes s.par (base s.addrR)) } := by
  have hne : sel ≠ [] := by rintro rfl; simp at hlen
  have h := (visit_addrSel hq).trans
    (selectAddress_sent (base s.addrR) hq (by simp [hs, hlen]) hne htx hacc)
  rw [runOp_step (by simp [hq]) h]
  simp [hs]

/-- The fetch as far as TRIGGER_BURST: ENTER_READ is sent (R173). -/
theorem fetch_entered (hlen : sel.length = 7) :
    runOp 5 s = runOp 3 { s with
      seq := 0, ep := 0, fsm := .burstTrig, txIn := tail
      wire := s.wire ++ (sent (selectAddressBytes s.par (base s.addrR)) ++ [.tx 0x30]) } := by
  obtain ⟨xs, ys, rfl, hx, hy, hxs, hys⟩ := allAccepted_split (n := 6) (by omega) hacc
  obtain ⟨p, rfl⟩ : ∃ p, ys = [p] := List.length_eq_one_iff.1 (by omega)
  have h := visit_enterRead (s := { s with
    seq := 0, fsm := .rmEnter, txIn := [p] ++ tail
    wire := s.wire ++ sent (selectAddressBytes s.par (base s.addrR)) }) rfl rfl (hys p (by simp))
  rw [fetch_selected hq hs (htx.trans (List.append_assoc ..)) hxs hx, runOp_step (by simp) h]
  simp

/-- The fetch as far as the burst (R174). -/
theorem fetch_triggered (hlen : sel.length = 8) :
    runOp 5 s = runOp 2 { s with
      seq := 0, ep := 0, cnt := 0, fsm := .burstRx, txIn := tail
      wire := s.wire ++ (sent (selectAddressBytes s.par (base s.addrR)) ++ [.tx 0x30, .tx 0x52]) } := by
  obtain ⟨xs, ys, rfl, hx, hy, hxs, hys⟩ := allAccepted_split (n := 7) (by omega) hacc
  obtain ⟨p, rfl⟩ : ∃ p, ys = [p] := List.length_eq_one_iff.1 (by omega)
  have h := visit_triggerBurst (s := { s with
    seq := 0, ep := 0, fsm := .burstTrig, txIn := [p] ++ tail
    wire := s.wire ++ (sent (selectAddressBytes s.par (base s.addrR)) ++ [.tx 0x30]) }) rfl rfl (hys p (by simp))
  rw [fetch_entered hq hs (htx.trans (List.append_assoc ..)) hxs hx, runOp_step (by simp) h]
  simp

/-- The fetch as far as the exit, the whole burst being received (R175). -/
theorem fetch_received {bytes : Vector Byte 64} {got rxRest : List RxPins} (hlen : sel.length = 8)
    (hrx : s.rxIn = got ++ rxRest) (hgot : Carries got bytes.toList) :
    runOp 5 s = runOp 1 { s with
      fb := bytes, seq := 0, ep := 0, cnt := 64, fsm := .rmExit, txIn := tail, rxIn := rxRest
      wire := s.wire ++
        (sent (selectAddressBytes s.par (base s.addrR)) ++ [.tx 0x30, .tx 0x52] ++ bytes.toList.map .rx) } := by
  have hlb : bytes.toList.length = 64 := by simp
  have hne : bytes.toList ≠ [] := fun h => by simp [h] at hlb
  have h := (visit_burstRx rfl).trans (repeatRow_rx rowBurstRx bytes.toList rxRest got { s with
    seq := 0, ep := 0, cnt := 0, fsm := .burstRx, txIn := tail
    wire := s.wire ++ (sent (selectAddressBytes s.par (base s.addrR)) ++ [.tx 0x30, .tx 0x52]) }
    64 (by omega) hne hrx hgot (by simp) rfl fun _ _ => rfl)
  rw [fetch_triggered hq hs htx hacc hlen, runOp_step (by simp) h]
  simp [fillFrom_whole]

/-- The trigger fails: the error is held and the exit is next (R174). -/
theorem fetch_triggerFailed {q : TxPins} {rest : List TxPins} (hlen : sel.length = 7) (htail : tail = q :: rest)
    (hfail : q.outcome = .failed) :
    runOp 5 s = runOp 2 { s with
      seq := 0, ep := 1, cnt := 0, fstate := 7, fcnt := 0, fsm := .rmExit, txIn := rest
      wire := s.wire ++ (sent (selectAddressBytes s.par (base s.addrR)) ++ [.tx 0x30]) } := by
  have h := visit_triggerBurst_failed (s := { s with
    seq := 0, ep := 0, fsm := .burstTrig, txIn := tail
    wire := s.wire ++ (sent (selectAddressBytes s.par (base s.addrR)) ++ [.tx 0x30]) }) rfl htail hfail
  rw [fetch_entered hq hs htx hacc hlen, runOp_step (by simp) h]

/-- The burst is cut: the error is held and the exit is next (R175). -/
theorem fetch_burstCut {bs : List Byte} {got rxRest : List RxPins} {q : RxPins} {c : BitVec 3} (hlen : sel.length = 8)
    (hrx : s.rxIn = got ++ q :: rxRest) (hgot : Carries got bs) (hbs : bs.length < 64)
    (hqc : (q.outcome = .failed ∧ c = 2) ∨ (q.outcome = .ended ∧ c = 3)) :
    runOp 5 s = runOp 1 { s with
      fb := fillFrom s.fb 0 bs, seq := 0, ep := c, cnt := BitVec.ofNat 7 bs.length, fstate := 8
      fcnt := BitVec.ofNat 7 bs.length, fsm := .rmExit, txIn := tail, rxIn := rxRest
      wire := s.wire ++
        (sent (selectAddressBytes s.par (base s.addrR)) ++ [.tx 0x30, .tx 0x52] ++ bs.map .rx) } := by
  have h := (visit_burstRx rfl).trans (repeatRow_rx_cut rowBurstRx c q hqc bs rxRest got { s with
    seq := 0, ep := 0, cnt := 0, fsm := .burstRx, txIn := tail
    wire := s.wire ++ (sent (selectAddressBytes s.par (base s.addrR)) ++ [.tx 0x30, .tx 0x52]) }
    64 (by omega) hrx hgot (by simpa using hbs) rfl fun _ _ => rfl)
  rw [fetch_triggered hq hs htx hacc hlen, runOp_step (by simp) h]
  simp

end

/-! ## The end of a fetch (R176, R194) -/

/-- The exit is sent: the block is stored and its byte answered (R176). -/
theorem runOp_exit_commit {s : State} {sel rest : List TxPins} (hw : s.par.wf) (hq : s.fsm = .rmExit) (hs : s.seq = 0)
    (he : s.ep = 0) (htx : s.txIn = sel ++ rest) (hlen : sel.length = s.par.exitReadSeq.length)
    (hacc : AllAccepted sel) :
    runOp 1 s = .moved { s with
      v := s.v ||| BitVec.twoPow 1024 (idx s.addrR).toNat
      dm := Memory.writeBytes s.dm (rowBase (idx s.addrR)) s.fb.toList
      seq := BitVec.ofNat 3 (s.par.exitReadSeq.length - 1)
      fsm := .idle, txIn := rest, wire := s.wire ++ sent s.par.exitReadSeq
      rsp := s.rsp ++ [.okByte (s.fb[(off s.addrR).toNat]'(off s.addrR).isLt)] } := by
  have hne : s.par.exitReadSeq ≠ [] → sel ≠ [] := fun hne hnil => hne (by simpa [hnil] using hlen.symm)
  have hv := (visit_rmExit hq).trans (exit_sent hw hq (by simp [hs, hlen]) hne htx hacc _ (by omega))
  rw [runOp_last (by simp [hq]) (hv.trans (finishExit_commit he)) rfl]
  simp [hs]

/-- The trap of a failing exit reports the pending error, or TX_FAIL when there is none (R176, R194). -/
theorem failExit_eq (s : State) : failExit s = .moved (s.trap (if s.ep = 0 then 1 else s.ep)) := rfl

/-- The exit is cut: the bytes before the failing one stay sent, the trap is taken (R140, R176). -/
theorem runOp_exit_cut {s : State} {n : Nat} {sel rest : List TxPins} {x : TxPins} (hw : s.par.wf)
    (hq : s.fsm = .rmExit) (hs : s.seq = 0) (htx : s.txIn = sel ++ x :: rest)
    (hlen : sel.length < s.par.exitReadSeq.length) (hacc : AllAccepted sel) (hx : x.outcome = .failed) :
    runOp (n + 1) s = .moved (State.trap (if s.ep = 0 then 1 else s.ep) { s with
      txIn := rest, seq := BitVec.ofNat 3 sel.length
      wire := s.wire ++ sent (s.par.exitReadSeq.take sel.length) }) := by
  have hv := (visit_rmExit hq).trans (exit_cut hw hq (by simpa [hs] using hlen) htx hacc hx _ (by omega))
  rw [runOp_last (by simp [hq]) (hv.trans (failExit_eq _)) (State.trap_fsm _ _)]
  simp [hs]

/-- With an error pending the exit ends in the trap that reports it, whether it is sent or fails as well (R194). -/
theorem runOp_exit_pending {s : State} {n : Nat} {sel tail : List TxPins} (hw : s.par.wf) (hq : s.fsm = .rmExit)
    (hs : s.seq = 0) (he : s.ep ≠ 0) (htx : s.txIn = sel ++ tail) (hacc : AllAccepted sel)
    (hend : sel.length = s.par.exitReadSeq.length ∨
      (sel.length < s.par.exitReadSeq.length ∧ ∃ x, tail.head? = some x ∧ x.outcome = .failed)) :
    ∃ txIn q, runOp (n + 1) s = .moved (State.trap s.ep { s with
      txIn := txIn, seq := q, wire := s.wire ++ sent (s.par.exitReadSeq.take sel.length) }) := by
  rcases hend with hlen | ⟨hlen, x, hx, hfail⟩
  · have hne : s.par.exitReadSeq ≠ [] → sel ≠ [] := fun hne hnil => hne (by simpa [hnil] using hlen.symm)
    have hv := (visit_rmExit hq).trans (exit_sent hw hq (by simp [hs, hlen]) hne htx hacc _ (by omega))
    refine ⟨tail, BitVec.ofNat 3 (s.par.exitReadSeq.length - 1), ?_⟩
    rw [runOp_last (by simp [hq]) (hv.trans (finishExit_trap he)) (State.trap_fsm _ _)]
    simp [hs, hlen]
  · obtain ⟨rest, rfl⟩ := List.head?_eq_some_iff.1 hx
    refine ⟨rest, BitVec.ofNat 3 sel.length, ?_⟩
    rw [runOp_exit_cut hw hq hs htx hlen hacc hfail, if_neg he]

/-- Settles O31: the exit is sent, the burst stored and its byte answered. -/
theorem readMiss : Obligations.ReadMiss := by
  intro s a bytes sel rest got rxRest hw hq hf hl htx hlen hacc hrx hgot
  obtain ⟨xs, ys, rfl, hx, hy, hxs, hys⟩ := allAccepted_split (n := 8) (by omega) hacc
  rw [exec_read_miss hq hf hl,
    fetch_received (s := s.beginFetch a) rfl rfl (htx.trans (List.append_assoc ..)) hxs hx hrx hgot]
  refine Eq.trans (congrArg Tick.toOutcome (runOp_exit_commit hw rfl rfl rfl rfl
    (by simp only [State.beginFetch]; omega) hys)) ?_
  rw [← hq]
  simp [Tick.toOutcome, State.beginFetch]

/-! ## An operation cut outside the bracketed burst (R170, R196) -/

/-- The state the trap leaves when `TX_FAIL` is its first error and no burst is counted (R196). -/
def State.cutOff (s : State) : State :=
  { s with
    fstate := s.fsm.code, fcnt := 0, cause := 1, fault := true, v := 0, dm := [], rsp := s.rsp ++ [.fatal 1]
    fsm := .idle }

/-- In the states that send an address, a value or ENTER_READ the trap is that. -/
theorem trap_eq_cutOff {s : State} (hq : s.fsm ∈ [Fsm.addrSel, .rmEnter, .wAddr, .wValue]) :
    s.trap causeTxFail = s.cutOff := by
  have hop : s.fsm.inOperation = true ∧ s.fsm.countsBurst = false ∧ s.fsm ≠ .rmExit := by
    revert hq; cases s.fsm <;> decide
  rw [State.trap_eq]
  simp [State.errorNoted, State.cutOff, causeTxFail, hop]

/-- ENTER_READ fails (R173). -/
theorem runOp_enterRead_cut {s : State} {rest : List TxPins} {q : TxPins} {n : Nat}
    (hq : s.fsm = .rmEnter) (htx : s.txIn = q :: rest) (hfail : q.outcome = .failed) :
    runOp (n + 1) s = .moved (State.cutOff { s with txIn := rest }) := by
  have hr : rowEnterRead s = .moved (State.cutOff { s with txIn := rest }) :=
    (offer_failed htx hfail _ _ _).trans
      (congrArg Tick.moved (trap_eq_cutOff (s := { s with txIn := rest }) (by simp [hq])))
  refine runOp_last (by simp [hq]) ?_ rfl
  rw [visit_rmEnter hq, repeatRow_leaves (by rw [hr, hq]; simp [Tick.Leaves, State.cutOff]), hr]

/-- A byte of an address or of a value fails: the bytes before it stay sent, the trap is taken (R140, R196). -/
theorem runOp_send_cut {s : State} {cmd : List Byte} {done : State → Tick} {sel rest : List TxPins} {q : TxPins}
    {n : Nat} (hq : s.fsm ∈ [Fsm.addrSel, .wAddr, .wValue])
    (hrow : ∀ t : State, t.fsm = s.fsm → t.par = s.par → t.addrR = s.addrR → t.wdataR = s.wdataR →
      rowOf t = sendRow cmd done trapTxFail t)
    (hs : s.seq = 0) (hlen : cmd.length ≤ 7) (hb : cmd.length ≤ s.visitBound) (htx : s.txIn = sel ++ q :: rest)
    (hl : sel.length < cmd.length) (hacc : AllAccepted sel) (hfail : q.outcome = .failed) :
    runOp (n + 1) s = .moved (State.cutOff { s with
      txIn := rest, wire := s.wire ++ sent (cmd.take sel.length), seq := BitVec.ofNat 3 sel.length }) := by
  have hidle : s.fsm ≠ .idle := by rintro h; simp [h] at hq
  have hv := visit_cut hrow (fun _ _ _ _ => rfl) (fun t ht => by simp [trapTxFail, Tick.Leaves, hidle.symm]) hlen
    (by omega) (by simpa [hs] using hl) htx hacc hfail
  rw [trapTxFail, trap_eq_cutOff (by simp at hq ⊢; tauto)] at hv
  rw [runOp_last hidle hv rfl]
  simp [hs, sent]

/-- Settles O32: the selection is cut, or ENTER_READ fails. -/
theorem readCutBeforeBurst : Obligations.ReadCutBeforeBurst := by
  intro s a sel rest q hq hf hl htx hlen hacc hfail
  rw [exec_read_miss hq hf hl]
  by_cases hc : sel.length < 6
  · have hrow : ∀ t : State, t.fsm = .addrSel → t.par = s.par → t.addrR = a → t.wdataR = s.wdataR →
        rowOf t = sendRow (selectAddressBytes s.par (base a)) (fun t => .moved { t with seq := 0, fsm := .rmEnter })
          trapTxFail t := fun t ht hp ha _ => by
      simp only [rowOf, ht, State.baseR, ha, rowSelectAddress, hp]
    refine Eq.trans (congrArg Tick.toOutcome (runOp_send_cut (s := s.beginFetch a) (by simp [State.beginFetch]) hrow rfl
      (by simp [selectAddressBytes_length]) (le_refl 6) htx hc hacc hfail)) ?_
    rw [if_pos hc, if_pos hc, hq]
    rfl
  · obtain ⟨xs, ys, rfl, hx, hy, hxs, hys⟩ := allAccepted_split (n := 6) (by omega) hacc
    obtain rfl : ys = [] := List.eq_nil_of_length_eq_zero (by omega)
    rw [List.append_nil] at htx hc
    rw [fetch_selected (s := s.beginFetch a) rfl rfl htx hxs hx]
    refine Eq.trans (congrArg Tick.toOutcome (runOp_enterRead_cut rfl rfl hfail)) ?_
    simp only [State.cutOff, State.beginFetch, Tick.toOutcome]
    rw [List.append_nil, if_neg hc, if_neg hc, ← hq, List.take_of_length_le (by simp [selectAddressBytes_length, hx])]
    rfl

/-- Settles O33: the trigger fails, and the exit ends in the trap that reports it. -/
theorem readTriggerFails : Obligations.ReadTriggerFails := by
  intro s a sel exit tail q hw hq hf hl htx hlen hacc hfail hexit hend
  obtain ⟨txIn, r, hx⟩ := runOp_exit_pending (n := 1) (s := { s.beginFetch a with
    seq := 0, ep := 1, cnt := 0, fstate := 7, fcnt := 0, fsm := .rmExit, txIn := exit ++ tail
    wire := s.wire ++ (sent (selectAddressBytes s.par (base a)) ++ [.tx 0x30]) }) hw rfl rfl nofun rfl hexit hend
  refine ⟨_, (exec_read_miss hq hf hl).trans (congrArg Tick.toOutcome
    ((fetch_triggerFailed (s := s.beginFetch a) rfl rfl htx hacc hlen rfl hfail).trans hx)), ?_⟩
  simp [State.beginFetch, State.errorNoted, causeNone, Fsm.inOperation]

/-- Settles O34: the burst is cut, and the exit ends in the trap that reports it. -/
theorem readBurstCut : Obligations.ReadBurstCut := by
  intro s a sel exit tail bs got rxRest q c hw hq hf hl htx hlen hacc hexit hend hrx hgot hbs hqc
  have hc : c ≠ 0#3 := by rcases hqc with ⟨-, rfl⟩ | ⟨-, rfl⟩ <;> decide
  obtain ⟨txIn, r, hx⟩ := runOp_exit_pending (n := 0) (s := { s.beginFetch a with
    fb := fillFrom s.fb 0 bs, seq := 0, ep := c, cnt := BitVec.ofNat 7 bs.length, fstate := 8
    fcnt := BitVec.ofNat 7 bs.length, fsm := .rmExit, txIn := exit ++ tail, rxIn := rxRest
    wire := s.wire ++
      (sent (selectAddressBytes s.par (base a)) ++ [.tx 0x30, .tx 0x52] ++ bs.map .rx) })
    hw rfl rfl hc rfl hexit hend
  refine ⟨_, (exec_read_miss hq hf hl).trans (congrArg Tick.toOutcome ((fetch_burstCut (s := s.beginFetch a) rfl rfl
    (htx.trans (List.append_assoc ..)) hacc hlen hrx hgot hbs hqc).trans hx)), ?_⟩
  have hcount : bs.length % 2 ^ 7 = bs.length := Nat.mod_eq_of_lt (by omega)
  simpa [State.beginFetch, State.errorNoted, causeNone, Fsm.inOperation, hc] using hcount

/-- Settles O35: the exit fails with no error pending. -/
theorem readExitFails : Obligations.ReadExitFails := by
  intro s a bytes sel exit rest x got rxRest hw hq hf hl htx hlen hacc hexit hlt hx hrx hgot
  have h := runOp_exit_cut (n := 0) (s := { s.beginFetch a with
    fb := bytes, seq := 0, ep := 0, cnt := 64, fsm := .rmExit, txIn := exit ++ x :: rest, rxIn := rxRest
    wire := s.wire ++
      (sent (selectAddressBytes s.par (base a)) ++ [.tx 0x30, .tx 0x52] ++ bytes.toList.map .rx) })
    hw rfl rfl rfl hlt hexit hx
  refine ⟨_, (exec_read_miss hq hf hl).trans (congrArg Tick.toOutcome ((fetch_received (s := s.beginFetch a) rfl rfl
    (by rw [← List.append_assoc]; exact htx) hacc hlen hrx hgot).trans h)), ?_⟩
  simp [State.beginFetch, State.errorNoted, causeNone, Fsm.inOperation, Fsm.code, Fsm.countsBurst]

/-! ## WROM and WRAM (R161, R162) -/

/-- The state in which a write of `v` to `a` begins (R171). -/
def State.beginWrite (op : BitVec 3) (a : Addr) (v : Byte) (s : State) : State :=
  { s with opR := op, addrR := a, wdataR := v, seq := 0, fsm := .wAddr }

theorem acceptWrite_finish {s : State} (op : BitVec 3) (a : Addr) (v : Byte) (hf : s.fault = false) :
    (acceptWrite op a v s).finish = (runOp 5 (s.beginWrite op a v)).toOutcome := by
  rw [acceptWrite, if_neg (by simp [hf])]
  rfl

/-- The settling delay after the address phase (R178). -/
theorem visit_addressSettled {s : State} (h : s.fsm = .wDly1) :
    visit s = .moved { s with dly := 0, seq := 0, fsm := .wValue, wire := s.wire ++ [.delay .tWrite] } :=
  visit_delay (next := fun t => { t with seq := 0, fsm := .wValue }) (by simp [State.visitBound, h])
    (fun t ht => by simp only [rowOf, ht, h]; rfl) (fun _ _ => by simp [h])

/-- The settling delay after the value phase (R178). -/
theorem visit_valueSettled {s : State} (h : s.fsm = .wDly2) :
    visit s = .moved { s with dly := 0, fsm := .inval, wire := s.wire ++ [.delay .tWrite] } :=
  visit_delay (next := fun t => { t with fsm := .inval }) (by simp [State.visitBound, h])
    (fun t ht => by simp only [rowOf, ht, h]; rfl) (fun _ _ => by simp [h])

/-- The write as far as its value phase: the address is sent and has settled (R177, R178). -/
theorem write_addressed {s : State} {sel tail : List TxPins} (hq : s.fsm = .wAddr) (hs : s.seq = 0)
    (htx : s.txIn = sel ++ tail) (hacc : AllAccepted sel) (hlen : sel.length = 6) :
    runOp 5 s = runOp 3 { s with
      seq := 0, dly := 0, fsm := .wValue, txIn := tail
      wire := s.wire ++ (sent (writeAddrBytes s.par s.addrR) ++ [.delay .tWrite]) } := by
  have hne : sel ≠ [] := by rintro rfl; simp at hlen
  have h1 := (visit_wAddr hq).trans (writeAddr_sent s.addrR hq (by simp [hs, hlen]) hne htx hacc)
  have h2 := visit_addressSettled (s := { s with
    seq := 5, dly := s.par.tWrite, fsm := .wDly1, txIn := tail
    wire := s.wire ++ sent ((writeAddrBytes s.par s.addrR).drop s.seq.toNat) }) rfl
  rw [runOp_step (by simp [hq]) h1, runOp_step (by simp) h2]
  simp [hs]

/-- The rest of the write: the value is sent and has settled, the cache is emptied (R179, R180). -/
theorem write_valued {s : State} {sel tail : List TxPins} (hq : s.fsm = .wValue) (hs : s.seq = 0)
    (htx : s.txIn = sel ++ tail) (hacc : AllAccepted sel) (hlen : sel.length = (dec s.wdataR).length + 2) :
    runOp 3 s = .moved { s with
      v := 0, dm := [], seq := BitVec.ofNat 3 ((dec s.wdataR).length + 1), dly := 0, fsm := .idle, txIn := tail
      wire := s.wire ++ (sent (writeValueBytes s.wdataR) ++ [.delay .tWrite])
      rsp := s.rsp ++ [.ok] } := by
  have hne : sel ≠ [] := by rintro rfl; simp at hlen
  have h1 := (visit_wValue hq).trans (writeValue_sent s.wdataR hq (by simp [hs, hlen]) hne htx hacc)
  have h2 := visit_valueSettled (s := { s with
    seq := BitVec.ofNat 3 ((dec s.wdataR).length + 1), dly := s.par.tWrite, fsm := .wDly2, txIn := tail
    wire := s.wire ++ sent ((writeValueBytes s.wdataR).drop s.seq.toNat) }) rfl
  rw [runOp_step (by simp [hq]) h1, runOp_step (by simp) h2, runOp_last (by simp) (visit_inval rfl) rfl]
  simp [hs]

/-- A write whose bytes are all accepted, whatever its code (R139, R183, R118). -/
theorem write_completes {s : State} (op : BitVec 3) (a : Addr) (v : Byte) {sel rest : List TxPins} (hq : s.fsm = .idle)
    (hf : s.fault = false) (htx : s.txIn = sel ++ rest) (hlen : sel.length = 8 + (dec v).length)
    (hacc : AllAccepted sel) :
    (acceptWrite op a v s).finish = .next { s with
      v := 0, dm := [], opR := op, addrR := a, wdataR := v
      seq := BitVec.ofNat 3 ((dec v).length + 1)
      dly := 0, txIn := rest
      wire := s.wire ++ ([.tx 0x42] ++ sent (hex4 s.par.hexUpper a) ++ [.tx 0x00, .delay .tWrite, .tx 0x42] ++
        sent (dec v) ++ [.tx 0x00, .delay .tWrite])
      rsp := s.rsp ++ [.ok] } := by
  obtain ⟨xs, ys, rfl, hx, hy, hxs, hys⟩ := allAccepted_split (n := 6) (by omega) hacc
  have h := write_valued (s := { s.beginWrite op a v with
    seq := 0, dly := 0, fsm := .wValue, txIn := ys ++ rest
    wire := s.wire ++ (sent (writeAddrBytes s.par a) ++ [.delay .tWrite]) }) rfl rfl rfl hys
    (show ys.length = (dec v).length + 2 by omega)
  rw [acceptWrite_finish op a v hf, write_addressed (s := s.beginWrite op a v) rfl rfl
    (htx.trans (List.append_assoc ..)) hxs hx]
  refine Eq.trans (congrArg Tick.toOutcome h) ?_
  simp [State.beginWrite, Tick.toOutcome, hq, writeAddrBytes, writeValueBytes, tokWrite, sent]

/-- Settles O38: the two phases of the write, latched as WROM. -/
theorem wromCompletes : Obligations.WromCompletes := fun _ a v _ _ hq hf htx hlen hacc =>
  (exec_wrom a v hq).trans (write_completes opWrom a v hq hf htx hlen hacc)

/-- Settles O39: the two phases of the write, latched as WRAM. -/
theorem wramCompletes : Obligations.WramCompletes := fun _ a v _ _ hq hf htx hlen hacc =>
  (exec_wram a v hq).trans (write_completes opWram a v hq hf htx hlen hacc)

/-- A write is cut in its address phase (R177). -/
theorem write_cut_address {s : State} (op : BitVec 3) (a : Addr) (v : Byte) {sel rest : List TxPins} {q : TxPins}
    (hf : s.fault = false) (htx : s.txIn = sel ++ q :: rest) (hlen : sel.length < 6) (hacc : AllAccepted sel)
    (hfail : q.outcome = .failed) :
    (acceptWrite op a v s).finish = .next (State.cutOff { s.beginWrite op a v with
      txIn := rest, wire := s.wire ++ sent ((writeAddrBytes s.par a).take sel.length)
      seq := BitVec.ofNat 3 sel.length }) := by
  have hrow : ∀ t : State, t.fsm = .wAddr → t.par = s.par → t.addrR = a → t.wdataR = v →
      rowOf t = sendRow (writeAddrBytes s.par a)
        (fun t => .moved { t with dly := t.par.periods .tWrite, fsm := .wDly1 }) trapTxFail t := fun t ht hp ha _ => by
    simp only [rowOf, ht, ha, rowWriteAddr, hp]
  rw [acceptWrite_finish op a v hf, runOp_send_cut (s := s.beginWrite op a v) (by simp [State.beginWrite]) hrow rfl
    (by simp [writeAddrBytes_length]) (le_refl 6) htx hlen hacc hfail]
  rfl

/-- A write is cut in its value phase (R179). -/
theorem write_cut_value {s : State} (op : BitVec 3) (a : Addr) (v : Byte) {xs ys rest : List TxPins} {q : TxPins}
    (hf : s.fault = false) (htx : s.txIn = xs ++ (ys ++ q :: rest)) (hx : xs.length = 6)
    (hy : ys.length < (dec v).length + 2) (hxs : AllAccepted xs) (hys : AllAccepted ys) (hfail : q.outcome = .failed) :
    (acceptWrite op a v s).finish = .next (State.cutOff { s.beginWrite op a v with
      seq := BitVec.ofNat 3 ys.length, dly := 0, fsm := .wValue, txIn := rest
      wire := s.wire ++ (sent (writeAddrBytes s.par a) ++ [.delay .tWrite]) ++
        sent ((writeValueBytes v).take ys.length) }) := by
  have hl := writeValueBytes_length v
  have hd := dec_length v
  have hrow : ∀ t : State, t.fsm = .wValue → t.par = s.par → t.addrR = a → t.wdataR = v →
      rowOf t = sendRow (writeValueBytes v) (fun t => .moved { t with dly := t.par.periods .tWrite, fsm := .wDly2 })
        trapTxFail t := fun t ht _ _ hv => by
    simp only [rowOf, ht, hv, rowWriteValue]
  have h := runOp_send_cut (n := 2) (s := { s.beginWrite op a v with
    seq := 0, dly := 0, fsm := .wValue, txIn := ys ++ q :: rest
    wire := s.wire ++ (sent (writeAddrBytes s.par a) ++ [.delay .tWrite]) }) (by simp) hrow rfl (by omega)
    (show (writeValueBytes v).length ≤ 5 by omega) rfl (by omega) hys hfail
  rw [acceptWrite_finish op a v hf, write_addressed (s := s.beginWrite op a v) rfl rfl htx hxs hx]
  exact congrArg Tick.toOutcome h

/-- Settles O40: cut in the address phase, or in the value phase. -/
theorem writeCut : Obligations.WriteCut := by
  intro s a v i sel rest q hi hq hf htx hlen hacc hfail
  obtain ⟨op, hx⟩ : ∃ op, exec i s = (acceptWrite op a v s).finish := by
    rcases hi with rfl | rfl
    · exact ⟨opWrom, exec_wrom a v hq⟩
    · exact ⟨opWram, exec_wram a v hq⟩
  by_cases hc : sel.length < 6
  · refine ⟨_, hx.trans (write_cut_address op a v hf htx hc hacc hfail), ?_⟩
    simp [State.cutOff, State.beginWrite, Fsm.code, hc]
  · obtain ⟨xs, ys, rfl, hxl, hyl, hxs, hys⟩ := allAccepted_split (n := 6) (by omega) hacc
    refine ⟨_, hx.trans (write_cut_value op a v hf (htx.trans (List.append_assoc ..)) hxl (by omega) hxs hys hfail), ?_⟩
    simp [State.cutOff, State.beginWrite, Fsm.code, hxl]

/-! ## The frames of READ and of the writes -/

/-- What a READ of `a` accepted in `s` leaves alone (R160). -/
def ReadLeaves (s t : State) : Prop :=
  t.par = s.par ∧ t.wdataR = s.wdataR ∧ t.dly = s.dly ∧ t.rstIn = s.rstIn ∧ t.hostIn = s.hostIn ∧ t.payIn = s.payIn

/-- No fault was taken, and every entry and byte outside the block of `a` is that of `s`. -/
def KeepsOtherBlocks (a : Addr) (s t : State) : Prop :=
  t.fault = s.fault ∧ t.cause = s.cause ∧ (∀ j, j ≠ idx a → t.valid j = s.valid j) ∧
    ∀ b : Nat, ¬ (rowBase (idx a) ≤ b ∧ b < rowBase (idx a) + 64) → Memory.read t.dm b = Memory.read s.dm b

/-- A READ of `a` accepted in `s`, as far as `t`: on the read path with the block of `a` selected and the cache as it
was, or at its end. -/
def ReadRun (a : Addr) (s t : State) : Prop :=
  ReadLeaves s t ∧
    ((onReadPath t.fsm = true ∧ t.addrR = a ∧ t.fault = s.fault ∧ t.cause = s.cause ∧ t.v = s.v ∧ t.dm = s.dm) ∨
      (t.fsm = .idle ∧ (KeepsOtherBlocks a s t ∨ (t.fault = true ∧ t.v = 0 ∧ t.dm = []))))

theorem keepsOtherBlocks_of_same {a : Addr} {s t : State} (hf : t.fault = s.fault) (hc : t.cause = s.cause)
    (hv : t.v = s.v) (hd : t.dm = s.dm) : KeepsOtherBlocks a s t :=
  ⟨hf, hc, fun j _ => by rw [State.valid, State.valid, hv], fun b _ => by rw [hd]⟩

/-- Storing the block of `a` leaves the others (R113). -/
theorem keepsOtherBlocks_fill {a : Addr} {s t : State} (h : KeepsOtherBlocks a s t) :
    KeepsOtherBlocks a s (t.fill (idx a)) := by
  obtain ⟨hf, hc, hv, hd⟩ := h
  refine ⟨hf, hc, fun j hj => ?_, fun b hb => (fill_read_other t (idx a) hb).trans (hd b hb)⟩
  rw [fill_valid, decide_eq_false hj.symm, Bool.or_false, hv j hj]

theorem ReadRun.trap {a : Addr} {s t : State} (h : ReadRun a s t) (c : BitVec 3) : ReadRun a s (t.trap c) :=
  ⟨by simpa [ReadLeaves] using h.1, .inr ⟨by simp, .inr (by simp)⟩⟩

/-- A row inside the fetch goes on along the read path. -/
theorem ReadRun.goOn {a : Addr} {s t u : State} (h : ReadRun a s t) (hq : t.fsm ≠ .idle)
    (e : u = { t with
      fsm := u.fsm, seq := u.seq, cnt := u.cnt, ep := u.ep, fb := u.fb, fstate := u.fstate, fcnt := u.fcnt
      txIn := u.txIn, rxIn := u.rxIn, wire := u.wire })
    (hu : onReadPath u.fsm = true) : ReadRun a s u := by
  obtain ⟨hl, ⟨-, hkeep⟩ | ⟨hi, -⟩⟩ := h
  · rw [e]; exact ⟨hl, .inl ⟨hu, hkeep⟩⟩
  · exact absurd hi hq

theorem ReadRun.commit {a : Addr} {s t : State} (h : ReadRun a s t) (hq : t.fsm ≠ .idle) (r : Response) :
    ReadRun a s { (t.fill t.idxR).respond r with fsm := .idle } := by
  obtain ⟨hl, ⟨-, ha, hf, hc, hv, hd⟩ | ⟨hi, -⟩⟩ := h
  · refine ⟨hl, .inr ⟨rfl, .inl ?_⟩⟩
    have hk := keepsOtherBlocks_fill (keepsOtherBlocks_of_same (a := a) hf hc hv hd)
    rw [State.idxR, ha]
    exact hk
  · exact absurd hi hq

/-- Every row of the read path: it waits, goes on along the path, stores the block, or traps (R172-R176). -/
theorem rowOf_readRun {a : Addr} {s t : State} (hq : t.fsm ≠ .idle) (h : ReadRun a s t) :
    (rowOf t).All (ReadRun a s) := by
  have hwait : ∀ ps, ReadRun a s { t with txIn := ps } := fun _ => h
  have htrap : ∀ ps, (trapTxFail { t with txIn := ps }).All (ReadRun a s) := fun ps => (hwait ps).trap _
  have hpath : onReadPath t.fsm = true := by
    obtain ⟨-, ⟨hp, -⟩ | ⟨hi, -⟩⟩ := h
    · exact hp
    · exact absurd hi hq
  unfold rowOf
  cases hs : t.fsm <;> simp only [hs, onReadPath] at hpath <;> try contradiction
  case addrSel =>
    exact sendRow_all h hwait (fun _ _ _ _ => h.goOn hq rfl (by simp [hs, onReadPath]))
      (fun _ _ _ _ => h.goOn hq rfl rfl) (fun ps _ => htrap ps)
  case rmEnter => exact offer_all h hwait (fun _ => h.goOn hq rfl rfl) htrap
  case burstTrig => exact offer_all h hwait (fun _ => h.goOn hq rfl rfl) (fun _ => h.goOn hq rfl rfl)
  case burstRx =>
    exact rowBurstRx_all h (fun _ => h) (fun _ _ _ => h.goOn hq rfl (by simp [hs, onReadPath]))
      (fun _ _ _ => h.goOn hq rfl rfl) (fun _ _ _ _ => h.goOn hq rfl rfl)
  case rmExit =>
    have hfin : ∀ ps w, (finishExit { t with txIn := ps, wire := w }).All (ReadRun a s) := fun ps w =>
      have h' : ReadRun a s { t with txIn := ps, wire := w } := h
      finishExit_all (fun _ _ _ => h'.commit hq _) (fun _ => h'.trap _)
    unfold rowExitRead
    by_cases he : t.par.exitReadSeq = []
    · rw [if_pos he]; exact hfin t.txIn t.wire
    · rw [if_neg he]
      exact sendRow_all h hwait (fun _ _ _ _ => h.goOn hq rfl (by simp [hs, onReadPath])) (fun ps _ _ _ => hfin ps _)
        (fun ps _ => (hwait ps).trap _)

theorem acceptRead_readRun {s : State} (a : Addr) (hq : s.fsm = .idle) : (acceptRead a s).All (ReadRun a s) := by
  have hleaves : ReadLeaves s s := ⟨rfl, rfl, rfl, rfl, rfl, rfl⟩
  have hrespond : ∀ r, ReadRun a s (s.respond r) := fun r =>
    ⟨hleaves, .inr ⟨hq, .inl (keepsOtherBlocks_of_same rfl rfl rfl rfl)⟩⟩
  unfold acceptRead
  split_ifs
  · exact hrespond _
  · cases s.readByte a with
    | some b => exact hrespond _
    | none => trivial
  · exact ⟨hleaves, .inl ⟨rfl, rfl, rfl, rfl, rfl, rfl⟩⟩

/-- A host operation is run in `S_IDLE` alone (R89). -/
theorem hostOp_next {name : String} {acceptOp : State → Tick} {s t : State} (h : hostOp name acceptOp s = .next t) :
    s.fsm = .idle ∧ (acceptOp s).finish = .next t := by
  unfold hostOp at h
  split at h
  · exact ⟨‹_›, h⟩
  · cases h

/-- Settles O37: what the rows of the read path keep. -/
theorem readFrame : Obligations.ReadFrame := by
  intro s t a h
  obtain ⟨hq, hfin⟩ := hostOp_next h
  obtain ⟨⟨hpar, hwdata, hdly, hrst, hhost, hpay⟩, hend⟩ :=
    finish_all (fun _ hu hr => rowOf_readRun hu hr) (acceptRead_readRun a hq) hfin
  refine ⟨hpar, hwdata, hdly, hrst, hhost, hpay, ?_⟩
  rcases hend with ⟨-, -, hf, hc, hv, hd⟩ | ⟨-, hkeep | htrap⟩
  · exact .inl (keepsOtherBlocks_of_same hf hc hv hd)
  · exact .inl hkeep
  · exact .inr htrap

/-- What a write accepted in `s` leaves alone (R161, R162). -/
def WriteLeaves (s t : State) : Prop :=
  t.par = s.par ∧ t.fb = s.fb ∧ t.cnt = s.cnt ∧ t.ep = s.ep ∧ t.rstIn = s.rstIn ∧ t.hostIn = s.hostIn ∧
    t.payIn = s.payIn ∧ t.rxIn = s.rxIn

/-- The status registers are those of `s` (R31). -/
def SameStatus (s t : State) : Prop :=
  t.fault = s.fault ∧ t.cause = s.cause ∧ t.fstate = s.fstate ∧ t.fcnt = s.fcnt

/-- A write accepted in `s`, as far as `t`: the cache and the status as they were, or, back in `S_IDLE`, the cache
emptied by the invalidation or by the trap. -/
def WriteRun (s t : State) : Prop :=
  WriteLeaves s t ∧
    (((onWritePath t.fsm = true ∨ t.fsm = .idle) ∧ t.v = s.v ∧ t.dm = s.dm ∧ SameStatus s t) ∨
      (t.fsm = .idle ∧ t.v = 0 ∧ t.dm = [] ∧ (SameStatus s t ∨ (t.fault = true ∧ t.cause = causeTxFail))))

theorem WriteRun.trap {s t : State} (h : WriteRun s t) : WriteRun s (t.trap causeTxFail) :=
  ⟨by simpa [WriteLeaves] using h.1, .inr ⟨by simp, by simp, by simp, .inr (by simp)⟩⟩

theorem WriteRun.goOn {s t u : State} (h : WriteRun s t) (hq : t.fsm ≠ .idle)
    (e : u = { t with fsm := u.fsm, seq := u.seq, dly := u.dly, txIn := u.txIn, wire := u.wire })
    (hu : onWritePath u.fsm = true) : WriteRun s u := by
  obtain ⟨hl, ⟨-, hkeep⟩ | ⟨hi, -⟩⟩ := h
  · rw [e]; exact ⟨hl, .inl ⟨.inl hu, hkeep⟩⟩
  · exact absurd hi hq

/-- Every row of the write path: it waits, goes on along the path, empties the cache, or traps (R177-R180). -/
theorem rowOf_writeRun {s t : State} (hq : t.fsm ≠ .idle) (h : WriteRun s t) : (rowOf t).All (WriteRun s) := by
  have hwait : ∀ ps, WriteRun s { t with txIn := ps } := fun _ => h
  obtain ⟨hpath, hstatus⟩ : onWritePath t.fsm = true ∧ SameStatus s t := by
    obtain ⟨-, ⟨hp | hi, -, -, hst⟩ | ⟨hi, -⟩⟩ := h
    · exact ⟨hp, hst⟩
    · exact absurd hi hq
    · exact absurd hi hq
  unfold rowOf
  cases hs : t.fsm <;> simp only [hs, onWritePath] at hpath <;> try contradiction
  case wAddr | wValue =>
    exact sendRow_all h hwait (fun _ _ _ _ => h.goOn hq rfl (by simp [hs, onWritePath]))
      (fun _ _ _ _ => h.goOn hq rfl rfl) (fun ps _ => (hwait ps).trap)
  case wDly1 | wDly2 =>
    exact rowDelay_all (h.goOn hq rfl (by simp [hs, onWritePath])) (fun _ => h.goOn hq rfl rfl)
  case inval => exact ⟨h.1, .inr ⟨rfl, rfl, rfl, .inl hstatus⟩⟩

theorem acceptWrite_writeRun {s : State} (op : BitVec 3) (a : Addr) (v : Byte) (hq : s.fsm = .idle) :
    (acceptWrite op a v s).All (WriteRun s) := by
  have hleaves : WriteLeaves s s := ⟨rfl, rfl, rfl, rfl, rfl, rfl, rfl, rfl⟩
  have hstatus : SameStatus s s := ⟨rfl, rfl, rfl, rfl⟩
  unfold acceptWrite
  split_ifs
  · exact ⟨hleaves, .inl ⟨.inr hq, rfl, rfl, hstatus⟩⟩
  · exact ⟨hleaves, .inl ⟨.inl rfl, rfl, rfl, hstatus⟩⟩

/-- Settles O43: what the rows of the write path keep. -/
theorem writeFrame : Obligations.WriteFrame := by
  intro s t a v h
  obtain ⟨op, hq, hfin⟩ : ∃ op, s.fsm = .idle ∧ (acceptWrite op a v s).finish = .next t := by
    rcases h with h | h
    · exact ⟨opWrom, hostOp_next h⟩
    · exact ⟨opWram, hostOp_next h⟩
  obtain ⟨⟨hpar, hfb, hcnt, hep, hrst, hhost, hpay, hrx⟩, hend⟩ :=
    finish_all (fun _ hu hr => rowOf_writeRun hu hr) (acceptWrite_writeRun op a v hq) hfin
  refine ⟨hpar, hfb, hcnt, hep, hrst, hhost, hpay, hrx, ?_⟩
  rcases hend with ⟨-, hv, hd, hstatus⟩ | ⟨-, hv, hd, hstatus | ⟨hf, hc⟩⟩
  · exact ⟨.inl ⟨hv, fun b => by rw [hd]⟩, .inl hstatus⟩
  · exact ⟨.inr ⟨hv, hd⟩, .inl hstatus⟩
  · exact ⟨.inr ⟨hv, hd⟩, .inr ⟨hf, hc, hv⟩⟩

/-! ## No row reads `op_r` (R162) -/

/-- The state with another latched operation code. -/
@[simps] def State.withOp (op : BitVec 3) (s : State) : State := { s with opR := op }

/-- A tick with another latched operation code in the state it gives. -/
def Tick.withOp (op : BitVec 3) : Tick → Tick
  | .moved s => .moved (s.withOp op)
  | .waits s => .waits (s.withOp op)
  | .noRow => .noRow

/-- A row that does not read the latched operation code. -/
def IgnoresOp (row : State → Tick) : Prop :=
  ∀ (op : BitVec 3) (s : State), row (s.withOp op) = (row s).withOp op

theorem trap_withOp (op c : BitVec 3) (s : State) : (s.withOp op).trap c = (s.trap c).withOp op := by
  rw [State.trap_eq, State.trap_eq]; rfl

theorem offer_ignoresOp {f g : State → Tick} (hf : IgnoresOp f) (hg : IgnoresOp g) (b : Byte) :
    IgnoresOp (offer b f g) := by
  intro op s
  cases h : s.txIn with
  | nil => rw [offer_nil h, offer_nil (s := s.withOp op) h]; rfl
  | cons p ps =>
    cases hp : p.outcome with
    | accepted =>
      rw [offer_accepted h hp, offer_accepted (s := s.withOp op) h hp]
      exact hf op { s with txIn := ps, wire := s.wire ++ [.tx b] }
    | failed =>
      rw [offer_failed h hp, offer_failed (s := s.withOp op) h hp]
      exact hg op { s with txIn := ps }
    | blocked =>
      have hb : ∃ q qs, s.txIn = q :: qs ∧ q.outcome = .blocked := ⟨p, ps, h, hp⟩
      rw [offer_blocked (.inr hb), offer_blocked (s := s.withOp op) (.inr hb)]
      rfl

theorem sendRow_ignoresOp {f g : State → Tick} (hf : IgnoresOp f) (hg : IgnoresOp g) (cmd : List Byte) :
    IgnoresOp (sendRow cmd f g) := by
  intro op s
  cases h : cmd[s.seq.toNat]? with
  | none => simp [sendRow, State.withOp, Tick.withOp, h]
  | some b =>
    rw [sendRow_at h, sendRow_at (s := s.withOp op) h, State.withOp_seq]
    refine offer_ignoresOp (fun op t => ?_) hg b op s
    by_cases e : s.seq.toNat + 1 = cmd.length
    · simpa only [if_pos e] using hf op t
    · simp only [if_neg e]; rfl

theorem trapTxFail_ignoresOp : IgnoresOp trapTxFail := fun op s => congrArg Tick.moved (trap_withOp op _ s)

theorem takeByte_ignoresOp (b : Byte) : IgnoresOp (takeByte b) := by
  intro op s
  unfold takeByte
  rw [State.withOp_cnt]
  split <;> rfl

theorem rx_withOp (op : BitVec 3) (s : State) : (s.withOp op).rx = (s.rx.1, s.rx.2.withOp op) := by
  cases h : s.rxIn with
  | nil => simp [State.rx, h]
  | cons p ps => cases hp : p.outcome <;> simp [State.rx, State.withOp, h, hp]

theorem rowBurstRx_ignoresOp : IgnoresOp rowBurstRx := by
  intro op s
  unfold rowBurstRx
  rw [State.withOp_cnt, rx_withOp]
  by_cases hc : 64 ≤ s.cnt.toNat
  · rw [if_pos hc, if_pos hc]; rfl
  · rw [if_neg hc, if_neg hc]
    rcases s.rx with ⟨b | _ | _ | _, t⟩
    · exact takeByte_ignoresOp b op t
    · rfl
    · rfl
    · rfl

theorem finishExit_ignoresOp : IgnoresOp finishExit := by
  intro op s
  by_cases h : s.ep = 0
  · rw [finishExit_commit h, finishExit_commit (s := s.withOp op) h]; rfl
  · rw [finishExit_trap h, finishExit_trap (s := s.withOp op) h]; exact congrArg Tick.moved (trap_withOp op _ s)

theorem failExit_ignoresOp : IgnoresOp failExit := fun op s => congrArg Tick.moved (trap_withOp op _ s)

theorem rowExitRead_ignoresOp : IgnoresOp rowExitRead := by
  intro op s
  unfold rowExitRead
  rw [State.withOp_par]
  by_cases h : s.par.exitReadSeq = []
  · rw [if_pos h, if_pos h]; exact finishExit_ignoresOp op s
  · rw [if_neg h, if_neg h]
    exact sendRow_ignoresOp finishExit_ignoresOp failExit_ignoresOp _ op s

theorem rowDelay_ignoresOp {next : State → State} (hn : ∀ op t, next (State.withOp op t) = (next t).withOp op)
    (p : DelayParam) : IgnoresOp (rowDelay p next) := by
  intro op s
  unfold rowDelay
  rw [State.withOp_dly]
  by_cases h : s.dly = 0
  · rw [if_pos h, if_pos h]; exact congrArg Tick.moved (hn op { s with wire := s.wire ++ [.delay p] })
  · rw [if_neg h, if_neg h]; rfl

theorem rowDrain_ignoresOp : IgnoresOp rowDrain := by
  intro op s
  unfold rowDrain
  rw [State.withOp_payIn]
  cases s.payIn with
  | nil => rfl
  | cons p ps =>
    obtain ⟨valid, data, last⟩ := p
    cases valid with
    | false => rfl
    | true => cases last <;> rfl

/-- The operation in progress is in the sequencer's state, not in `op_r`: no row reads it (R170). -/
theorem rowOf_ignoresOp : IgnoresOp rowOf := by
  intro op s
  unfold rowOf
  rw [State.withOp_fsm]
  cases s.fsm with
  | idle => rfl
  | initG | rmEnter => exact offer_ignoresOp (fun _ _ => rfl) trapTxFail_ignoresOp _ op s
  | burstTrig => exact offer_ignoresOp (fun _ _ => rfl) (fun _ _ => rfl) _ op s
  | init5 | addrSel | wAddr | wValue => exact sendRow_ignoresOp (fun _ _ => rfl) trapTxFail_ignoresOp _ op s
  | initDly1 | initDly2 | wDly1 | wDly2 => exact rowDelay_ignoresOp (fun _ _ => rfl) _ op s
  | burstRx => exact rowBurstRx_ignoresOp op s
  | rmExit => exact rowExitRead_ignoresOp op s
  | inval => rfl
  | lsavDrain => exact rowDrain_ignoresOp op s

theorem repeatRow_ignoresOp (n : Nat) : IgnoresOp (repeatRow rowOf n) := by
  induction n with
  | zero => exact fun _ _ => rfl
  | succ n ih =>
    intro op s
    unfold repeatRow
    rw [rowOf_ignoresOp]
    cases rowOf s with
    | moved t =>
      by_cases e : t.fsm = s.fsm
      · simpa [Tick.withOp, e] using ih op t
      · simp [Tick.withOp, e]
    | waits t => rfl
    | noRow => rfl

theorem runOp_ignoresOp (n : Nat) : IgnoresOp (runOp n) := by
  induction n with
  | zero => exact fun _ _ => rfl
  | succ n ih =>
    intro op s
    have hv : visit (s.withOp op) = (visit s).withOp op := repeatRow_ignoresOp s.visitBound op s
    unfold runOp
    rw [State.withOp_fsm, hv]
    by_cases e : s.fsm = .idle
    · rw [if_pos e, if_pos e]; rfl
    · rw [if_neg e, if_neg e]
      cases visit s with
      | moved t => exact ih op t
      | waits t => rfl
      | noRow => rfl

theorem toOutcome_withOp {k : Tick} {t : State} (op : BitVec 3) (h : k.toOutcome = .next t) :
    (k.withOp op).toOutcome = .next (t.withOp op) := by
  rcases Tick.toOutcome_next h with rfl | rfl <;> rfl

/-- Settles O41: the two begin in states that differ in `op_r` alone, and no row reads it. -/
theorem wramLikeWrom : Obligations.WramLikeWrom := by
  intro s t a v h
  obtain ⟨hq, hfin⟩ := hostOp_next h
  by_cases hf : s.fault = true
  · have hrefused : acceptWrite opWram a v s = acceptWrite opWrom a v s := by
      rw [acceptWrite, acceptWrite, if_pos hf, if_pos hf]
    exact ⟨t, (exec_wram a v hq).trans (hrefused ▸ hfin), rfl⟩
  · have hf' : s.fault = false := by simpa using hf
    rw [acceptWrite_finish opWrom a v hf'] at hfin
    refine ⟨t.withOp opWram, ?_, rfl⟩
    rw [exec_wram a v hq, acceptWrite_finish opWram a v hf',
      show s.beginWrite opWram a v = (s.beginWrite opWrom a v).withOp opWram from rfl, runOp_ignoresOp]
    exact toOutcome_withOp opWram hfin

end Sys2Proof.Machine
end
-/

/-
COMMENTED OUT FOR MEMORY ONLY: the text below compiles and was checked to the end (leanchecker, audit, settle: O24 and O25
proved) with `MIMALLOC_ARENA_EAGER_COMMIT=0 bash check.sh`. Under check.sh's 22 GiB of data the tests above peak at 46
threads and 22419 MB of 22528 while they wait for the kernel. A command after them keeps one worker more busy in that moment,
and a 47th stack of 256 MiB does not fit: the compile then ends with "failed to create thread" or std::bad_alloc (none of
ten plain runs passed). To restore it, remove this paragraph with the comment opener before it, and the closer at the end
of the file. It uses nothing of the commented texts above it and shares no name with them; all seven restored together compile
as well.

section
/-! PROOFS. The statements of spec/60_exceptions.md: the trap (R196), and the operations while FAULT is 1 (R199).

The trap is the record update of `State.trap_eq`, its two conditions decided. Of the operations that do not look at FAULT,
LSAV is the one that runs on after its acceptance: `exec_lsav_fault` says that FAULT passes through its drain. -/

namespace Sys2Proof.Machine

open Sys2Proof

/-! ## The trap (R196) -/

theorem errorNoted_iff (s : State) : s.errorNoted = true ↔ s.fsm = .rmExit ∧ s.ep ≠ 0 := by
  simp [State.errorNoted, causeNone]

theorem countsBurst_iff (q : Fsm) : q.countsBurst = true ↔ q = .burstTrig ∨ q = .burstRx ∨ q = .rmExit := by
  simp [Fsm.countsBurst, or_assoc]

/-- Settles O24: the trap as one record update, with an error noted before or not. -/
theorem trapEffect : Obligations.TrapEffect := by
  refine fun s c => ⟨fun hnew => ?_, fun hq hep => ?_⟩
  · have hn : ¬ s.errorNoted = true := mt (errorNoted_iff s).mp hnew
    simp only [State.trap_eq, if_neg hn, countsBurst_iff]
  · have hn : s.errorNoted = true := (errorNoted_iff s).mpr ⟨hq, hep⟩
    have hop : s.fsm.inOperation = true := by rw [hq]; rfl
    rw [State.trap_eq, if_pos hn, if_pos hn, if_pos hop]

/-! ## Operations while FAULT is 1 (R199) -/

/-- A host operation whose acceptance goes back to `S_IDLE` is over. -/
theorem hostOp_idle {name : String} {acceptOp : State → Tick} {s t : State} (hs : s.fsm = .idle)
    (ha : acceptOp s = .moved t) (ht : t.fsm = .idle) : hostOp name acceptOp s = .next t := by
  rw [hostOp, if_pos hs, ha, Tick.finish, runOp_idle ht]
  rfl

/-- What comes on the payload channel is beats to drop, then an end beat or a look that shows nothing (R97). -/
theorem payload_splits (pins : List PayPins) :
    ∃ beats rest, pins = beats ++ rest ∧ (∀ p ∈ beats, p.valid = true ∧ p.last = false) ∧
      ((∃ e qs, rest = e :: qs ∧ e.valid = true ∧ e.last = true) ∨
        (rest = [] ∨ ∃ p qs, rest = p :: qs ∧ p.valid = false)) := by
  induction pins with
  | nil => exact ⟨[], [], rfl, by simp, .inr (.inl rfl)⟩
  | cons p ps ih =>
    cases hv : p.valid with
    | false => exact ⟨[], p :: ps, rfl, by simp, .inr (.inr ⟨p, ps, rfl, hv⟩)⟩
    | true =>
      cases hl : p.last with
      | true => exact ⟨[], p :: ps, rfl, by simp, .inl ⟨p, ps, rfl, hv, hl⟩⟩
      | false =>
        obtain ⟨beats, rest, rfl, hb, hend⟩ := ih
        exact ⟨p :: beats, rest, rfl, List.forall_mem_cons.mpr ⟨⟨hv, hl⟩, hb⟩, hend⟩

/-- LSAV is its acceptance and one visit of `S_LSAV_DRAIN`; neither reads FAULT, and FAULT stays (R164, R199). -/
theorem exec_lsav_fault {s : State} (hs : s.fsm = .idle) :
    ∃ ps q r, ∀ f, exec .lsav { s with fault := f } =
      .next { s with fault := f, opR := opLsav, payIn := ps, fsm := q, rsp := r } := by
  have hexec : ∀ f, exec .lsav { s with fault := f } = (acceptLsav { s with fault := f }).finish := fun _ => if_pos hs
  obtain ⟨beats, rest, hp, hb, ⟨e, qs, rfl, he⟩ | hw⟩ := payload_splits s.payIn
  · refine ⟨qs, .idle, s.rsp ++ [Response.ok], fun f => ?_⟩
    have hv := visit_drain (s := { s with fault := f, opR := opLsav, fsm := .lsavDrain }) rfl hp hb he
    rw [hexec, acceptLsav, Tick.finish, maxVisits, runOp_step (by simp) hv, runOp_idle rfl]
    rfl
  · refine ⟨rest.tail, .lsavDrain, s.rsp, fun f => ?_⟩
    have hv := visit_drain_wait (s := { s with fault := f, opR := opLsav, fsm := .lsavDrain }) rfl hp hb hw
    rw [hexec, acceptLsav, Tick.finish, maxVisits, runOp, if_neg (by simp), hv]
    rfl

/-- Settles O25: the three accesses are answered at their acceptance; the other operations do not look at FAULT. -/
theorem faultRefuses : Obligations.FaultRefuses := by
  intro s a v hs hf
  refine ⟨hostOp_idle hs (if_pos hf) hs, hostOp_idle hs (if_pos hf) hs, hostOp_idle hs (if_pos hf) hs, fun i hi => ?_⟩
  suffices h : ∃ t : State, ∀ f, exec i { s with fault := f } = .next { t with fault := f } by
    obtain ⟨t, ht⟩ := h
    exact ⟨_, ht false, (congrArg (exec i) (by rw [← hf])).trans (ht true)⟩
  simp only [List.mem_cons, List.not_mem_nil, or_false] at hi
  obtain rfl | rfl | rfl | rfl | rfl := hi
  · exact ⟨s.respond .ok, fun _ => hostOp_idle hs rfl hs⟩
  · obtain ⟨ps, q, r, h⟩ := exec_lsav_fault hs
    exact ⟨{ s with opR := opLsav, payIn := ps, fsm := q, rsp := r }, h⟩
  all_goals exact ⟨s.respond .illegal, fun _ => hostOp_idle hs rfl hs⟩

end Sys2Proof.Machine
end
-/

/-
COMMENTED OUT FOR MEMORY ONLY: the text below compiles and was checked to the end (leanchecker, audit, settle: O36 and O42
proved, with O12 after it) with `MIMALLOC_ARENA_EAGER_COMMIT=0 bash check.sh`. Under check.sh's 22 GiB of data the tests above
peak at 46 threads and 22419 MB of 22528 while they wait for the kernel, or at 47 threads in about one run of four, which then
fails. The worker that elaborates the text takes the last test once the text ends; with this text still to elaborate it does
not, and the 47th stack of 256 MiB does not fit: the compile ends with "failed to create thread" or std::bad_alloc (none of
nine plain runs passed). The one theorem after it is too short to matter. To restore it, remove this paragraph with the comment
opener before it, and the closer after it. It uses nothing of the commented texts above it and shares no name with them; all
eight restored together compile as well.

section
/-! PROOFS. The statements of spec/70_reset_and_hazards.md: what a READ finds after an earlier READ of its block (R232) or
after a write (R234).

The idea: say once what a row outside `S_IDLE` can do to the cache (`rowOf_cacheChange`). A fetch then ends with its block
in the cache or with the fault (`rowOf_fetching`); a block in the cache stays unless the fault is taken, because another
fetch latches another entry and only a write invalidates (`rowOf_keepsRow`); a write ends with the cache empty
(`rowOf_emptying`). `finish_all` and `visit_all` carry each over an operation or a step. -/

namespace Sys2Proof.Machine

open Sys2Proof Sys2Proof.Safety

/-! ## What a row can do to the cache -/

/-- From `s` to `t` the cache and FAULT stay, and the sequencer stays on the read path, on the write path or off both. -/
def CacheUntouched (s t : State) : Prop :=
  t.v = s.v ∧ t.dm = s.dm ∧ t.fault = s.fault ∧ onReadPath t.fsm = onReadPath s.fsm ∧
    onWritePath t.fsm = onWritePath s.fsm

/-- From `s` to `t` the cache is emptied, by the trap or at the end of a write (R180, R196). -/
def CacheDropped (s t : State) : Prop :=
  t.fsm = .idle ∧ t.v = 0 ∧ t.dm = [] ∧ (t.fault = true ∨ s.fsm = .inval)

/-- From `s` to `t` a fetch stores its block (R113, R176). -/
def BlockCommitted (s t : State) : Prop :=
  s.fsm = .rmExit ∧ t.fsm = .idle ∧ t.v = (s.fill s.idxR).v ∧ t.dm = (s.fill s.idxR).dm ∧ t.fault = s.fault

/-- What a row outside `S_IDLE` can do to the cache; the address latch stays. -/
def CacheChange (s t : State) : Prop :=
  t.addrR = s.addrR ∧ (CacheUntouched s t ∨ CacheDropped s t ∨ BlockCommitted s t)

theorem CacheChange.untouched {s t : State} (ha : t.addrR = s.addrR) (hv : t.v = s.v) (hd : t.dm = s.dm)
    (hf : t.fault = s.fault) (hr : onReadPath t.fsm = onReadPath s.fsm) (hw : onWritePath t.fsm = onWritePath s.fsm) :
    CacheChange s t :=
  ⟨ha, .inl ⟨hv, hd, hf, hr, hw⟩⟩

theorem cacheChange_trap {s u : State} (c : BitVec 3) (h : u.addrR = s.addrR) : CacheChange s (u.trap c) :=
  ⟨by simpa using h, .inr (.inl ⟨by simp, by simp, by simp, .inl (by simp)⟩)⟩

/-- A row of the exit waits, sends a byte, stores the block or traps (R176). -/
theorem rowExitRead_cacheChange {s : State} (hq : s.fsm = .rmExit) : (rowExitRead s).All (CacheChange s) := by
  have hfinish : ∀ ps w, (finishExit { s with txIn := ps, wire := w }).All (CacheChange s) := fun _ _ =>
    finishExit_all (fun _ _ _ => ⟨rfl, .inr (.inr ⟨hq, rfl, rfl, rfl, rfl⟩)⟩) (fun _ => cacheChange_trap _ rfl)
  have hstay : CacheChange s s := .untouched rfl rfl rfl rfl rfl rfl
  unfold rowExitRead
  by_cases he : s.par.exitReadSeq = []
  · rw [if_pos he]; exact hfinish s.txIn s.wire
  · rw [if_neg he]
    exact sendRow_all hstay (fun _ => hstay) (fun _ _ _ _ => hstay) (fun _ _ _ _ => hfinish _ _)
      (fun _ _ => cacheChange_trap _ rfl)

/-- Every row outside `S_IDLE`: the rows of the two paths end on their path, but for the commit, the invalidation and the
trap (R170). -/
theorem rowOf_cacheChange (s : State) : (rowOf s).All (CacheChange s) := by
  have hstay : CacheChange s s := .untouched rfl rfl rfl rfl rfl rfl
  have hgo : ∀ {q} q', s.fsm = q → onReadPath q' = onReadPath q → onWritePath q' = onWritePath q →
      CacheChange s { s with fsm := q' } := fun _ h hr hw => .untouched rfl rfl rfl rfl (h ▸ hr) (h ▸ hw)
  have htrap : ∀ ps, (trapTxFail { s with txIn := ps }).All (CacheChange s) := fun _ => cacheChange_trap _ rfl
  have hstay' : ∀ ps, CacheChange s { s with txIn := ps } := fun _ => hstay
  unfold rowOf
  cases hq : s.fsm with
  | idle => trivial
  | initG => exact offer_all hstay hstay' (fun _ => hgo .initDly1 hq rfl rfl) htrap
  | initDly1 => exact rowDelay_all hstay (fun _ => hgo .init5 hq rfl rfl)
  | init5 =>
    exact sendRow_all hstay hstay' (fun _ _ _ _ => hstay) (fun _ _ _ _ => hgo .initDly2 hq rfl rfl) (fun ps _ => htrap ps)
  | initDly2 => exact rowDelay_all hstay (fun _ => hgo .idle hq rfl rfl)
  | addrSel =>
    exact sendRow_all hstay hstay' (fun _ _ _ _ => hstay) (fun _ _ _ _ => hgo .rmEnter hq rfl rfl) (fun ps _ => htrap ps)
  | rmEnter => exact offer_all hstay hstay' (fun _ => hgo .burstTrig hq rfl rfl) htrap
  | burstTrig =>
    exact offer_all hstay hstay' (fun _ => hgo .burstRx hq rfl rfl) (fun _ => hgo .rmExit hq rfl rfl)
  | burstRx =>
    exact rowBurstRx_all hstay (fun _ => hstay) (fun _ _ _ => hstay) (fun _ _ _ => hgo .rmExit hq rfl rfl)
      (fun _ _ _ _ => hgo .rmExit hq rfl rfl)
  | rmExit => exact rowExitRead_cacheChange hq
  | wAddr =>
    exact sendRow_all hstay hstay' (fun _ _ _ _ => hstay) (fun _ _ _ _ => hgo .wDly1 hq rfl rfl) (fun ps _ => htrap ps)
  | wDly1 => exact rowDelay_all hstay (fun _ => hgo .wValue hq rfl rfl)
  | wValue =>
    exact sendRow_all hstay hstay' (fun _ _ _ _ => hstay) (fun _ _ _ _ => hgo .wDly2 hq rfl rfl) (fun ps _ => htrap ps)
  | wDly2 => exact rowDelay_all hstay (fun _ => hgo .inval hq rfl rfl)
  | inval => exact ⟨rfl, .inr (.inl ⟨rfl, rfl, rfl, .inr hq⟩)⟩
  | lsavDrain => exact rowDrain_all hstay (fun _ => hstay) (fun _ => hgo .idle hq rfl rfl)

theorem onReadPath_ne {q : Fsm} (h : onReadPath q = true) : q ≠ .idle ∧ q ≠ .inval := by
  constructor <;> rintro rfl <;> cases h

theorem onWritePath_ne {q : Fsm} (h : onWritePath q = true) : q ≠ .idle ∧ q ≠ .rmExit := by
  constructor <;> rintro rfl <;> cases h

/-- A host operation that answers was accepted in `S_IDLE` (R89). -/
theorem hostOp_accepted {name : String} {acceptOp : State → Tick} {s t : State} (h : hostOp name acceptOp s = .next t) :
    s.fsm = .idle ∧ (acceptOp s).finish = .next t := by
  unfold hostOp at h
  split at h
  · exact ⟨‹_›, h⟩
  · cases h

/-! ## A write ends with the cache empty (R234) -/

/-- A write, as far as `t`: on its way, or at its end with every entry invalid. -/
def Emptying (t : State) : Prop := onWritePath t.fsm = true ∨ (t.fsm = .idle ∧ t.v = 0)

/-- The write path is left by the invalidation or by the trap (R177-R180). -/
theorem rowOf_emptying {s : State} (hq : s.fsm ≠ .idle) (h : Emptying s) : (rowOf s).All Emptying := by
  have hpath : onWritePath s.fsm = true := h.resolve_right fun hend => hq hend.1
  refine (rowOf_cacheChange s).imp fun t ⟨_, hchange⟩ => ?_
  rcases hchange with ⟨-, -, -, -, hw⟩ | ⟨hi, hv, -, -⟩ | ⟨he, -⟩
  · exact .inl (hw.trans hpath)
  · exact .inr ⟨hi, hv⟩
  · exact absurd he (onWritePath_ne hpath).2

/-- A write is refused with the cache empty already, FAULT being 1, or begins (R171, R199). -/
theorem acceptWrite_emptying {s : State} (op : BitVec 3) (a : Addr) (v : Byte) (hq : s.fsm = .idle) (h : StatusInv s) :
    (acceptWrite op a v s).All Emptying := by
  obtain ⟨-, -, -, -, hfault, -⟩ := h
  unfold acceptWrite
  split_ifs with hf
  · exact .inr ⟨hq, (hfault hf).1⟩
  · exact .inl rfl

/-- Settles O42: a write that is over has left every valid bit at 0. -/
theorem writeThenMiss : Obligations.WriteThenMiss := by
  intro s t a b v ⟨_, _, _, _, hstatus⟩ hexec hend
  obtain ⟨op, hq, hfin⟩ : ∃ op, s.fsm = .idle ∧ (acceptWrite op a v s).finish = .next t := by
    rcases hexec with h | h
    · exact ⟨opWrom, hostOp_accepted h⟩
    · exact ⟨opWram, hostOp_accepted h⟩
  have hempty : t.v = 0 := by
    rcases finish_all (fun _ => rowOf_emptying) (acceptWrite_emptying op a v hq hstatus) hfin with hp | ⟨-, hv⟩
    · exact absurd hend (onWritePath_ne hp).1
    · exact hv
  have hmiss : t.lookup b = false := by simp [State.lookup, State.valid, hempty]
  exact ⟨hmiss, by simp [State.readByte, hmiss]⟩

/-! ## A READ leaves its block in the cache, or the fault (R160, R176) -/

theorem valid_congr {s t : State} (hv : t.v = s.v) (i : BitVec 10) : t.valid i = s.valid i := by
  rw [State.valid, State.valid, hv]

theorem cacheInv_congr {s t : State} (hv : t.v = s.v) (hd : t.dm = s.dm) (h : CacheInv s) : CacheInv t := by
  rw [CacheInv, hv, hd]; exact h

/-- A READ of `a`, as far as `t`: on its way, or at its end with the block of `a` valid or the fault taken. -/
def Fetching (a : Addr) (t : State) : Prop :=
  CacheInv t ∧ ((onReadPath t.fsm = true ∧ t.addrR = a) ∨ (t.fsm = .idle ∧ (t.fault = true ∨ t.lookup a = true)))

/-- The read path is left by the commit of its block or by the trap (R172-R176). -/
theorem rowOf_fetching {a : Addr} {s : State} (hq : s.fsm ≠ .idle) (h : Fetching a s) : (rowOf s).All (Fetching a) := by
  obtain ⟨hinv, hat⟩ := h
  obtain ⟨hpath, rfl⟩ := hat.resolve_right fun hend => hq hend.1
  refine (rowOf_cacheChange s).imp fun t ⟨ha, hchange⟩ => ?_
  rcases hchange with ⟨hv, hd, -, hr, -⟩ | ⟨hi, hv, hd, hwhy⟩ | ⟨-, hi, hv, hd, -⟩
  · exact ⟨cacheInv_congr hv hd hinv, .inl ⟨hr.trans hpath, ha⟩⟩
  · have hf : t.fault = true := hwhy.resolve_right (onReadPath_ne hpath).2
    exact ⟨cacheInv_congr hv hd (invalidateAll_cacheInv s), .inr ⟨hi, .inl hf⟩⟩
  · have hl : t.lookup s.addrR = true := by
      rw [State.lookup, valid_congr hv, fill_valid]; simp [State.idxR]
    exact ⟨cacheInv_congr hv hd (fill_cacheInv _ hinv), .inr ⟨hi, .inr hl⟩⟩

theorem acceptRead_fetching {s : State} (a : Addr) (hq : s.fsm = .idle) (h : CacheInv s) :
    (acceptRead a s).All (Fetching a) := by
  unfold acceptRead
  split_ifs with hf hl
  · exact ⟨h, .inr ⟨hq, .inl hf⟩⟩
  · cases s.readByte a with
    | some b => exact ⟨h, .inr ⟨hq, .inr hl⟩⟩
    | none => trivial
  · exact ⟨h, .inl ⟨rfl, rfl⟩⟩

/-- After a READ that responded without a fault its block hits (R160). -/
theorem read_hits {s t : State} {a : Addr} (h : CacheInv s) (hexec : exec (.read a) s = .next t) (hq : t.fsm = .idle)
    (hf : t.fault = false) : CacheInv t ∧ t.lookup a = true := by
  obtain ⟨hs, hfin⟩ := hostOp_accepted hexec
  obtain ⟨hinv, ⟨hp, -⟩ | ⟨-, hfault | hl⟩⟩ :=
    finish_all (fun _ => rowOf_fetching) (acceptRead_fetching a hs h) hfin
  · exact absurd hq (onReadPath_ne hp).1
  · simp [hf] at hfault
  · exact ⟨hinv, hl⟩

/-! ## A block in the cache stays while nothing disturbs it (R232) -/

/-- Entry `i` is valid with the bytes it has in `m`, and no fetch of it runs. -/
def HoldsRow (i : BitVec 10) (m : Memory) (t : State) : Prop :=
  t.valid i = true ∧ (∀ n, rowBase i ≤ n → n < rowBase i + 64 → Memory.read t.dm n = Memory.read m n) ∧
    (onReadPath t.fsm = true → t.idxR ≠ i)

/-- No write runs, and the fault was taken or entry `i` is that of `m`. -/
def KeepsRow (i : BitVec 10) (m : Memory) (t : State) : Prop :=
  onWritePath t.fsm = false ∧ (t.fault = true ∨ HoldsRow i m t)

/-- Storing a block leaves the other entries, and no fetch fills an entry that is valid already (R113, R114). -/
theorem holdsRow_commit {i : BitVec 10} {m : Memory} {s : State} (hp : onReadPath s.fsm = true) (h : HoldsRow i m s)
    {t : State} (hq : t.fsm = .idle) (hv : t.v = (s.fill s.idxR).v) (hd : t.dm = (s.fill s.idxR).dm) :
    HoldsRow i m t := by
  obtain ⟨hvalid, hbytes, hother⟩ := h
  have hne : s.idxR.toNat ≠ i.toNat := fun e => hother hp (BitVec.eq_of_toNat_eq e)
  have hrow : rowBase i = 64 * i.toNat ∧ rowBase s.idxR = 64 * s.idxR.toNat := ⟨rfl, rfl⟩
  refine ⟨?_, fun n hlo hhi => ?_, fun hr => absurd hq (onReadPath_ne hr).1⟩
  · rw [valid_congr hv, fill_valid, hvalid, Bool.true_or]
  · rw [hd, fill_read_other s s.idxR (by omega), hbytes n hlo hhi]

theorem rowOf_keepsRow {i : BitVec 10} {m : Memory} {s : State} (h : KeepsRow i m s) :
    (rowOf s).All (KeepsRow i m) := by
  obtain ⟨hnowrite, hkept⟩ := h
  refine (rowOf_cacheChange s).imp fun t ⟨ha, hchange⟩ => ?_
  rcases hchange with ⟨hv, hd, hf, hr, hw⟩ | ⟨hi, -, -, hwhy⟩ | ⟨he, hi, hv, hd, hf⟩
  · refine ⟨hw.trans hnowrite, hkept.imp hf.trans fun ⟨hvalid, hbytes, hother⟩ => ?_⟩
    exact ⟨(valid_congr hv i).trans hvalid, hd ▸ hbytes, by rwa [hr, State.idxR, ha]⟩
  · have hinval : s.fsm ≠ .inval := fun e => by simp [e, onWritePath] at hnowrite
    exact ⟨by rw [hi]; rfl, .inl (hwhy.resolve_right hinval)⟩
  · exact ⟨by rw [hi]; rfl, hkept.imp hf.trans fun hk => holdsRow_commit (by rw [he]; rfl) hk hi hv hd⟩

/-- A READ that begins a fetch missed, so it is of another block (R111, R171). -/
theorem acceptRead_keepsRow {i : BitVec 10} {m : Memory} {s : State} (a : Addr) (h : KeepsRow i m s) :
    (acceptRead a s).All (KeepsRow i m) := by
  obtain ⟨hnowrite, hkept⟩ := h
  unfold acceptRead
  split_ifs with hf hl
  · exact ⟨hnowrite, .inl hf⟩
  · cases s.readByte a with
    | some b => exact ⟨hnowrite, hkept⟩
    | none => trivial
  · obtain ⟨hvalid, hbytes, -⟩ := hkept.resolve_left hf
    refine ⟨rfl, .inr ⟨hvalid, hbytes, fun _ e => hl ?_⟩⟩
    rw [State.lookup, show idx a = i from e]; exact hvalid

/-- A request that is no WROM and no WRAM is a READ, an LSAV, or answered at once (R93). -/
theorem decodeRequest_noWrite {w : BitVec 27} (h1 : reqOp w ≠ 1) (h2 : reqOp w ≠ 2) :
    (∃ a, decodeRequest w = .read a) ∨
      decodeRequest w ∈ [Instr.gsav, .lsav, .reserved5, .reserved6, .reserved7] := by
  unfold decodeRequest
  split_ifs <;> simp

theorem accept_keepsRow {i : BitVec 10} {m : Memory} {s : State} {w : BitVec 27} (h1 : reqOp w ≠ 1) (h2 : reqOp w ≠ 2)
    (h : KeepsRow i m s) : (accept (decodeRequest w) s).All (KeepsRow i m) := by
  have hdrain : (acceptLsav s).All (KeepsRow i m) :=
    ⟨rfl, h.2.imp_right fun ⟨hvalid, hbytes, _⟩ => ⟨hvalid, hbytes, fun hr => by cases hr⟩⟩
  obtain ⟨a, e⟩ | e := decodeRequest_noWrite h1 h2
  · rw [e]; exact acceptRead_keepsRow a h
  · simp only [List.mem_cons, List.not_mem_nil, or_false] at e
    rcases e with e | e | e | e | e <;> rw [e]
    · exact h
    · exact hdrain
    all_goals exact h

theorem transition_keepsRow {i : BitVec 10} {m : Memory} {s : State} (hq : s.fsm = .idle)
    (hu : ∀ p ∈ s.hostIn.head?, p.valid = true → reqOp p.req ≠ 1 ∧ reqOp p.req ≠ 2) (h : KeepsRow i m s) :
    (transition s).All (KeepsRow i m) := by
  unfold transition
  rw [if_pos hq]
  cases hh : s.hostIn with
  | nil => exact h
  | cons p ps =>
    dsimp only
    by_cases hp : p.valid = true
    · obtain ⟨h1, h2⟩ := hu p (by simp [hh]) hp
      rw [if_pos hp]; exact accept_keepsRow h1 h2 h
    · rw [if_neg hp]; exact h

theorem step_keepsRow {i : BitVec 10} {m : Memory} {s t : State} (hu : Undisturbed s) (hs : step s = .next t)
    (h : KeepsRow i m s) : KeepsRow i m t := by
  obtain ⟨hrst, hreq⟩ := hu
  have hpast : KeepsRow i m (pastReset s) := h
  rw [step_pastReset hrst] at hs
  by_cases hq : (pastReset s).fsm = .idle
  · rw [fetchRun_idle hq] at hs
    exact finish_all (fun _ _ => rowOf_keepsRow) (transition_keepsRow hq (hreq hq) hpast) hs
  · rw [fetchRun_visit hq] at hs
    exact (visit_all (fun _ _ => rowOf_keepsRow) _ hpast).of_toOutcome hs

theorem undisturbedTo_keepsRow {i : BitVec 10} {m : Memory} {s t : State} (r : UndisturbedTo s t)
    (h : KeepsRow i m s) : KeepsRow i m t := by
  induction r with
  | refl => exact h
  | step hu hs _ ih => exact ih (step_keepsRow hu hs h)

/-- A READ that is refused, or hits a byte with a value, only adds its response (R160, R199). -/
theorem exec_read_at_once {s : State} {b : Addr} {x : Byte} (hq : s.fsm = .idle)
    (h : s.fault = false → s.readByte b = some x) :
    exec (.read b) s = .next { s with rsp := s.rsp ++ [if s.fault then .fatal s.cause else .okByte x] } := by
  have haccept : acceptRead b s = .moved (s.respond (if s.fault then .fatal s.cause else .okByte x)) := by
    cases hf : s.fault with
    | true => simp [acceptRead, hf]
    | false =>
      have hl : s.lookup b = true := by
        by_contra hmiss
        simpa [State.readByte, hmiss] using h hf
      simp [acceptRead, hf, hl, h hf]
  show hostOp "READ" (acceptRead b) s = _
  rw [hostOp, if_pos hq, haccept, Tick.finish, runOp_idle (by simpa using hq)]
  rfl

/-- Settles O36: the block stays as the first READ left it, unless the fault is taken. -/
theorem hitSuppression : Obligations.HitSuppression := by
  intro s t u a b ⟨_, hcache, _⟩ hexec htq htf hsteps huq hidx
  obtain ⟨hinv, hl⟩ := read_hits hcache hexec htq htf
  have hb := rowBase_add_off b
  have hoff : (off b).toNat < 64 := (off b).isLt
  have hlb : t.lookup b = true := by rwa [State.lookup, hidx]
  obtain ⟨x, -, hx⟩ := readByte_some hinv b hlb
  have hstart : KeepsRow (idx b) t.dm t :=
    ⟨by rw [htq]; rfl, .inr ⟨hlb, fun _ _ _ => rfl, fun hr => absurd htq (onReadPath_ne hr).1⟩⟩
  have hkept : u.fault = false → u.lookup b = true ∧ Memory.read u.dm b.toNat = some x := fun hf => by
    obtain ⟨hvalid, hbytes, -⟩ := (undisturbedTo_keepsRow hsteps hstart).2.resolve_left (by simp [hf])
    exact ⟨hvalid, (hbytes b.toNat (by omega) (by omega)).trans hx⟩
  refine ⟨x, hx, exec_read_at_once huq fun hf => ?_, fun hf => (hkept hf).2⟩
  obtain ⟨hhit, hbyte⟩ := hkept hf
  rw [State.readByte, if_pos hhit, hb, hbyte]

end Sys2Proof.Machine
end
-/

/-- Settles O12: the reset state with the look at `rst` taken (R220, R221). -/
theorem Sys2Proof.Machine.resetStep : Obligations.ResetStep := @step_rst_high
